-- ==== Sys2Proof/Word.lean ====
section
/-! DEFINITION. The plain types of the LXF framer block: words, bytes, the 8-byte block, a range of
addresses, and the operand set the engine latches (spec 00_scope.md R11, R12; 10_state.md R40). -/

namespace Sys2Proof

/-- A byte: "an unsigned 8-bit integer 0..255" (R11). -/
abbrev Byte := BitVec 8

/-- A register value: 32 bits (R9 `CSR_W`, R11). -/
abbrev Word := BitVec 32

/-- Eight bytes in order: the key and the cipher block (R9 `BLOCK_BYTES`, `KEY_BYTES`; R44). -/
structure Block where
  b0 : Byte
  b1 : Byte
  b2 : Byte
  b3 : Byte
  b4 : Byte
  b5 : Byte
  b6 : Byte
  b7 : Byte
  deriving DecidableEq, Repr, Inhabited

/-- The bytes `[base, base + len)` of the DMA space; lengths and addresses are exact, never
wrapped (R11, R66). -/
structure Range where
  base : Nat
  len : Nat
  deriving DecidableEq, Repr, Inhabited

/-- The latched operand set L (R40): the accepted command word and the operands of the command. -/
structure Latched where
  w : Word
  src : Word
  srclen : Word
  dst : Word
  dstcap : Word
  keylen : Word
  key : Block
  heap : Word
  heaplen : Word
  deriving DecidableEq, Repr, Inhabited

end Sys2Proof
end

