-- ==== Sys2Proof/Config.lean ====
section
/-! DEFINITION. What an implementation or a platform fixes (spec 00_scope.md R9) and the free values
(93_implementation_defined.md, treatment "any value"). A configuration is plain data and stands in
State as the field `cfg`, which no step changes: a statement about every state holds for every
setting of the parameters. -/

namespace Sys2Proof

/-- The direction of a DMA access (R14). -/
inductive Dir where
  | read
  | write
  deriving DecidableEq, Repr, Inhabited

/-- A range of addresses at which the platform refuses DMA accesses of one direction. -/
structure RefusedRange where
  dir : Dir
  range : Range
  deriving DecidableEq, Repr, Inhabited

/-- The unit behind the primitive port (R3, R180): the default single DES, or some other unit, known
by a number, of which only the two properties of R180 are given (`Config.externalCipher`). -/
inductive Primitive where
  | des
  | external (id : Nat)
  deriving DecidableEq, Repr, Inhabited

/-- The implementation parameters of R9.
* `base`: BASE, the host address of the register window (OPEN, R22).
* `scratchCap`: SCRATCH_CAP (R9, R39).
* `trailerStrict`: TRAILER_STRICT (R189).
* `refused`: MEM_REFUSES as a list of ranges (R9, R14; log 17).
* `devices`: the locations with read or write side effects (R67, R240; log 16).
* `dmaCoherent`: DMA_COHERENT (R80; log 15).
* `primitive`: KSETUP and BLK (R180; log 18). -/
structure Config where
  base : Nat
  scratchCap : Nat
  trailerStrict : Bool
  refused : List RefusedRange
  devices : List Range
  dmaCoherent : Bool
  primitive : Primitive
  deriving DecidableEq, Repr, Inhabited

/-- The defaults of R9. DESIGN CHOICE (unsafe, log 1): `base`, which R9 leaves OPEN; DESIGN CHOICE
(log 16): no device region. -/
def Config.initial : Config :=
  { base := 0x40000000
    scratchCap := 256
    trailerStrict := false
    refused := []
    devices := []
    dmaCoherent := true
    primitive := .des }

/-- What a byte of host memory that nothing has written reads as. DESIGN CHOICE (unsafe, log 4). -/
def Config.unwrittenByte : Byte := 0

/-- FREE VALUE (log 18): the permutation of the 8-byte blocks that external unit number `id` performs
under a key. Enciphering is the permutation and deciphering its inverse, which is what the two
properties of R180 say of a unit. -/
opaque Config.externalCipher : Nat → Block → Equiv.Perm Block

/-- FREE VALUE: a draw of one byte (R75, R120, R231; U1, U2, U3). -/
opaque Config.freeByte : Nat → Byte

/-- FREE VALUE: what L holds while the engine is idle (R40, U13). -/
opaque Config.freeLatched : Nat → Latched

/-- FREE VALUE: what ACC1 and ACC2 hold while the engine is idle (R42, U13). -/
opaque Config.freeAccumulators : Nat → Word × Word

/-- FREE VALUE: what BLKBUF holds while the engine is idle (R44, U13). -/
opaque Config.freeBlock : Nat → Block

/-- FREE VALUE: a byte of SCRATCH that the running command has not written (R45, U13). -/
opaque Config.freeScratch : Nat → Byte

end Sys2Proof
end

