-- ==== Sys2Proof/Syntax.lean ====
section
/-! DEFINITION. The command set (spec 30_encoding.md R90), one constructor per row of
opcode_table.json. A command word has no operand fields and no immediates (R95), so no constructor
has an argument: the operands are the latched set L. -/

namespace Sys2Proof

/-- The five commands of "LXF-CMD v1" (R2, R90). -/
inductive Instr where
  /-- HASHKEY (R150) -/
  | hashkey
  /-- HEX_ENC (R165) -/
  | hexEnc
  /-- HEX_DEC (R168) -/
  | hexDec
  /-- DES_ENC (R185) -/
  | desEnc
  /-- DES_DEC (R190) -/
  | desDec
  deriving DecidableEq, Repr, Inhabited

end Sys2Proof
end

