-- ==== Sys2Proof/WellFormed.lean ====
section
/-! DEFINITION. What is well formed. A constructor of Instr carries no operand, so every Instr is well
formed; what can be ill formed is a command word (spec 30_encoding.md R92) and a configuration
(00_scope.md R9, 10_state.md R22). -/

namespace Sys2Proof

/-- The RSV field, bits 31:8, is zero (R91). -/
def reservedClear (w : Word) : Bool := w.extractLsb' 8 24 == 0#24

/-- The OPC field, bits 7:0, is one of 0x01 to 0x05 (R92). -/
def opcodeAssigned (w : Word) : Bool :=
  let opc := (w.extractLsb' 0 8).toNat
  1 ≤ opc && opc ≤ 5

/-- A legal command word (R92). -/
def legalWord (w : Word) : Bool := reservedClear w && opcodeAssigned w

/-- An instruction is well formed: R95 gives it no operand that could be out of range. -/
def Instr.wf : Instr → Bool
  | .hashkey => true
  | .hexEnc => true
  | .hexDec => true
  | .desEnc => true
  | .desDec => true

/-- BASE is a multiple of 0x100 (R22), and the window lies below 2^32. The second is DESIGN CHOICE (log 25): R9 leaves
BASE open and no rule gives the width of the host's address space; R47 gives only the DMA space's. -/
def Config.baseOk (c : Config) : Bool := c.base % 0x100 == 0 && c.base + 0x100 ≤ 2 ^ 32

/-- SCRATCH_CAP fits the 32-bit register CAPS (R39). -/
def Config.scratchOk (c : Config) : Bool := c.scratchCap < 2 ^ 32

/-- A well-formed configuration. -/
def Config.wf (c : Config) : Bool := c.baseOk && c.scratchOk

end Sys2Proof
end

