-- ==== Sys2Proof/Decode.lean ====
section
/-! DEFINITION. Decoding of command words and the encoder (spec 30_encoding.md R91 to R96). The decoder
is total: a word is one of the five commands or is rejected by name. -/

namespace Sys2Proof

/-- Why a word is no command (R92, R93). -/
inductive DecodeError where
  /-- bits 31:8 are not all zero -/
  | reservedBits
  /-- the opcode is 0x00 or one of 0x06 to 0xFF -/
  | reservedOpcode
  deriving DecidableEq, Repr

/-- The OPC field of a command word (R91). -/
def opc (w : Word) : BitVec 8 := w.extractLsb' 0 8

/-- The RSV field of a command word (R91). -/
def rsv (w : Word) : BitVec 24 := w.extractLsb' 8 24

/-- The row of R90 with this opcode. -/
def instrOfOpcode (o : BitVec 8) : Option Instr :=
  if o = 0x01 then some .hashkey
  else if o = 0x02 then some .hexEnc
  else if o = 0x03 then some .hexDec
  else if o = 0x04 then some .desEnc
  else if o = 0x05 then some .desDec
  else none

/-- R92: the command a word stands for, or the reason it is illegal. -/
def decode (w : Word) : Except DecodeError Instr :=
  if rsv w = 0 then
    match instrOfOpcode (opc w) with
    | some i => .ok i
    | none => .error .reservedOpcode
  else .error .reservedBits

/-- The command word of an instruction (R92, column "match"). -/
def encode : Instr → Word
  | .hashkey => 0x00000001
  | .hexEnc => 0x00000002
  | .hexDec => 0x00000003
  | .desEnc => 0x00000004
  | .desDec => 0x00000005

/-- The command word that the host writes to CMD when the table gives it the low `nbits` bits of `w`;
every bit above them is 0 (R91, R96: a command word is exactly one 32-bit word). -/
def tableWord (nbits w : Nat) : Word := BitVec.ofNat 32 (w % 2 ^ nbits)

/-- The instruction the decoder reads from a row of opcode_table.json. -/
def decodeTableWord (nbits w : Nat) : Option Instr :=
  match decode (tableWord nbits w) with
  | .ok i => some i
  | .error _ => none

end Sys2Proof
end

