-- ==== Sys2Proof/Machine/State.lean ====
section
/-! DEFINITION. The state of the LXF framer block and its surroundings, as plain data (spec
10_state.md), the reasons a step can stop, and the state right after reset (R49). -/

namespace Sys2Proof.Machine

open Sys2Proof

/-- The completion codes (60_exceptions.md R200). Codes 10 to 15 are never produced, so the type has
no value for them. -/
inductive ErrCode where
  | ok
  | opcode
  | range
  | overlap
  | key
  | input
  | malformed
  | dstcap
  | alloc
  | bus
  deriving DecidableEq, Repr, Inhabited

/-- The engine state of R41. The position k of Busy(k) is not kept (log 5). -/
inductive Engine where
  | idle
  | busy
  deriving DecidableEq, Repr, Inhabited

/-- A key schedule, "opaque" to the block (R16): the sixteen round keys of the default DES, or, for an
external unit, the unit's number and the key the schedule was derived from (log 18). -/
inductive Sched where
  | des (roundKeys : List (BitVec 48))
  | external (id : Nat) (key : Block)
  deriving DecidableEq, Repr

/-- One thing that happens to the block from outside, or the engine's turn (R110, R128). `agent` is the
number of the host agent that acts (R224). Log 6 and log 8. -/
inductive Input where
  /-- a register-port write of `size` bytes at an offset of the window (R111, R123) -/
  | write (agent size : Nat) (offset : BitVec 8) (value : Word)
  /-- a register-port read of `size` bytes at an offset of the window (R111, R124) -/
  | read (agent size : Nat) (offset : BitVec 8)
  /-- the host stores one byte to its memory; a host address of 32 bits is the model's choice (log 25) -/
  | store (agent : Nat) (addr : Word) (value : Byte)
  /-- the host loads one byte from its memory (log 25) -/
  | load (agent : Nat) (addr : Word)
  /-- the host looks at the interrupt output (R215) -/
  | seeIrq (agent : Nat)
  /-- the agent ends its command sequence (R243, log 14) -/
  | endSequence (agent : Nat)
  /-- the host's cache maintenance on a platform without coherent DMA (R80, log 15), whichever agent does it (log 26) -/
  | cacheMaintain (agent : Nat)
  /-- the reset input becomes active (R230) -/
  | resetAssert
  /-- the reset input is released (R230) -/
  | resetRelease
  /-- the engine takes its turn (R122) -/
  | engine
  deriving DecidableEq, Repr

/-- What the host last got back (R111, R128). -/
inductive Response where
  | none
  | ack
  | data (v : Word)
  | byte (v : Byte)
  | irq (level : Bool)
  deriving DecidableEq, Repr, Inhabited

/-- The ranges of one command (R18): source, destination, and the heap window of a hex command. A range
that the command does not have is empty. -/
structure Footprint where
  src : Range
  dst : Range
  heap : Range
  deriving DecidableEq, Repr, Inhabited

/-- Host memory (R47, R67) as plain data: the bytes written, in rising order of address, and the addresses
whose byte is a draw (R75, R120, R231), each with the number of its draw. An address in neither list reads as
`Config.unwrittenByte` (log 4, log 23). -/
structure Memory where
  cells : List Host.Cell
  draws : List (Nat × Nat)
  deriving DecidableEq, Repr

/-- Why a step stops with a fault: the host broke a duty, and "a model faults" (R128). None is a trap
of the block, which has none. -/
inductive Fault where
  /-- `HazardRange`: a CMD write was accepted whose ranges overlap the register window or are not plain
  memory (R68, R240, U4). Raised by the accept step. Safe: the chip's behaviour is unspecified. -/
  | hazardRange
  /-- `HazardMemWrite`: a host store into a range of a command whose DONE = 1 the host has not observed
  (R241, U5). Raised by the host's store. Safe. -/
  | hazardMemWrite
  /-- `HazardShared`: a host agent writes an operand register, CMD or STATUS while another agent's command
  sequence is open (R243, U6). Raised by the register write. Safe. -/
  | hazardShared
  /-- On a platform whose DMA is not coherent the host neglected its cache maintenance (R80, R128; log 15).
  Raised by the accept step and by the host's load. Safe. -/
  | hazardCoherence
  /-- A register access while reset is active: "the model has no host register step during reset" (R232,
  U8; log 10). Raised by the host's register access. Safe. -/
  | stuckInReset
  deriving DecidableEq, Repr

/-- Why a step is refused. -/
inductive Refusal where
  /-- An instruction without a meaning in this model. No arm of `exec` uses it. Safe. -/
  | notModelled (mnemonic : String)
  /-- A register-port access that is not 32 bits wide or not at a multiple of 4; the port answers with an
  error response and nothing changes (R60, U7: "refuse"; log 9). Raised by the host's register access. Safe. -/
  | portAccess (offset size : Nat)
  /-- A host store or load at a device whose behaviour the spec does not give (log 16). Raised by the host's
  memory access. Safe. -/
  | deviceAccess (addr : Nat)
  deriving DecidableEq, Repr

/-- The whole state. INVENTORY.md, heading State, lists every field with its rule. -/
structure State where
  /-- the implementation parameters (R9); no step changes them -/
  cfg : Config
  /-- CTRL.IE (R24) -/
  ie : Bool
  /-- STATUS.DONE (R26) -/
  done : Bool
  /-- STATUS.ERR (R27) -/
  err : Bool
  /-- STATUS.PATH (R28) -/
  path : Bool
  /-- the last accepted command word, what a CMD read returns (R30) -/
  cmd : Word
  /-- ERRCODE.CODE (R31) -/
  errcode : ErrCode
  /-- SRC_ADDR (R32) -/
  srcAddr : Word
  /-- SRC_LEN (R32) -/
  srcLen : Word
  /-- DST_ADDR (R33) -/
  dstAddr : Word
  /-- DST_CAP (R33) -/
  dstCap : Word
  /-- RES_LEN (R34) -/
  resLen : Word
  /-- KEY_LEN (R35) -/
  keyLen : Word
  /-- KEY0 (R36) -/
  key0 : Word
  /-- KEY1 (R36) -/
  key1 : Word
  /-- HEAP_ADDR (R37) -/
  heapAddr : Word
  /-- HEAP_LEN (R37) -/
  heapLen : Word
  /-- H1 (R38) -/
  h1 : Word
  /-- H2 (R38) -/
  h2 : Word
  /-- the engine state; STATUS.BUSY is 1 exactly when it is busy (R41) -/
  engine : Engine
  /-- L (R40) -/
  latch : Latched
  /-- ACC1 (R42) -/
  acc1 : Word
  /-- ACC2 (R42) -/
  acc2 : Word
  /-- KS; `none` is `KS_NONE` (R43) -/
  ks : Option Sched
  /-- BLKBUF (R44) -/
  blkbuf : Block
  /-- SCRATCH: the bytes the running command has written; every other byte is unspecified (R45, log 19) -/
  scratch : List Host.Cell
  /-- PATHSEL (R46) -/
  pathsel : Bool
  /-- host memory, the DMA space (R47, R67) -/
  mem : Memory
  /-- the level of the reset input (R230, R232) -/
  resetActive : Bool
  /-- MODEL: what happens next, first first (log 6, log 8) -/
  inputs : List Input
  /-- MODEL: what the host last got back (log 8) -/
  response : Response
  /-- MODEL: the ranges of the accepted words whose DONE = 1 no agent of the host has yet observed (R241, log 12, log 24) -/
  unseen : List Footprint
  /-- MODEL: the agent whose command sequence is open (R243, log 14) -/
  owner : Option Nat
  /-- MODEL: bytes the host stored and has not made visible to a non-coherent DMA (R80, log 15) -/
  hostDirty : List Nat
  /-- MODEL: what a non-coherent DMA may have written since the host's last maintenance (R80, log 15) -/
  dmaDirty : List Footprint
  /-- MODEL: the counter the free values are applied to (log 20) -/
  draws : Nat
  deriving DecidableEq, Repr

end Sys2Proof.Machine

namespace Sys2Proof

/-- L right after reset. DESIGN CHOICE (unsafe, log 2): R40 leaves it unspecified. -/
def Latched.reset : Latched :=
  { w := 0, src := 0, srclen := 0, dst := 0, dstcap := 0, keylen := 0
    key := ⟨0, 0, 0, 0, 0, 0, 0, 0⟩, heap := 0, heaplen := 0 }

end Sys2Proof

namespace Sys2Proof.Machine

open Sys2Proof

/-- The machine right after reset (R49, R230): the reset input has just been released. The values of
`latch`, `acc1`, `acc2`, `blkbuf` and `scratch` are DESIGN CHOICE (log 2), those of the MODEL fields
DESIGN CHOICE (log 20). -/
def State.reset : State :=
  { cfg := Config.initial
    ie := false
    done := false
    err := false
    path := false
    cmd := 0
    errcode := .ok
    srcAddr := 0
    srcLen := 0
    dstAddr := 0
    dstCap := 0
    resLen := 0
    keyLen := 0
    key0 := 0
    key1 := 0
    heapAddr := 0
    heapLen := 0
    h1 := 0
    h2 := 0
    engine := .idle
    latch := Latched.reset
    acc1 := 0
    acc2 := 0
    ks := none
    blkbuf := ⟨0, 0, 0, 0, 0, 0, 0, 0⟩
    scratch := []
    pathsel := false
    mem := ⟨[], []⟩
    resetActive := false
    inputs := []
    response := .none
    unseen := []
    owner := none
    hostDirty := []
    dmaDirty := []
    draws := 0 }

end Sys2Proof.Machine
end

