-- ==== Sys2Proof/Machine/Ops.lean ====
section
/-! DEFINITION. The shared operations: byte lanes, host memory, the DMA port, the loops of the spec's
pseudocode, draws, accept (R112) and completion (R121). Completion with a non-zero code is this
hardware's exception entry: "Error "entry" is completion with a non-zero code" (60_exceptions.md R207). -/

namespace Sys2Proof

/-! ### Byte lanes -/

/-- Byte lane `i` of a word, `v[8i+7:8i]` (R11, R36, R65). -/
def byteLane (v : Word) (i : Nat) : Byte := v.extractLsb' (8 * i) 8

/-- The key bytes `LE32(KEY0) ++ LE32(KEY1)` (R36). -/
def keyBytes (key0 key1 : Word) : Block :=
  { b0 := byteLane key0 0, b1 := byteLane key0 1, b2 := byteLane key0 2, b3 := byteLane key0 3
    b4 := byteLane key1 0, b5 := byteLane key1 1, b6 := byteLane key1 2, b7 := byteLane key1 3 }

/-- Byte `j` of a block, for `j < 8`. -/
def Block.get (b : Block) (j : Nat) : Byte :=
  match j with
  | 0 => b.b0
  | 1 => b.b1
  | 2 => b.b2
  | 3 => b.b3
  | 4 => b.b4
  | 5 => b.b5
  | 6 => b.b6
  | _ => b.b7

/-- The block with byte `j < 8` replaced. -/
def Block.set (b : Block) (j : Nat) (v : Byte) : Block :=
  match j with
  | 0 => { b with b0 := v }
  | 1 => { b with b1 := v }
  | 2 => { b with b2 := v }
  | 3 => { b with b3 := v }
  | 4 => { b with b4 := v }
  | 5 => { b with b5 := v }
  | 6 => { b with b6 := v }
  | 7 => { b with b7 := v }
  | _ => b

/-- The block whose byte `j` is `f j`. -/
def Block.ofFn (f : Nat → Byte) : Block := ⟨f 0, f 1, f 2, f 3, f 4, f 5, f 6, f 7⟩

/-! ### Ranges -/

/-- An address lies in a range. -/
def Range.contains (r : Range) (a : Nat) : Bool := r.base ≤ a && a < r.base + r.len

/-- R117: `overlaps(a, m, b, n)`; a range of length 0 overlaps nothing. -/
def Range.overlaps (r t : Range) : Bool :=
  0 < r.len && 0 < t.len && r.base < t.base + t.len && t.base < r.base + r.len

/-- R66: a range is valid when it does not pass 2^32, computed exactly. -/
def Range.valid (r : Range) : Bool := r.base + r.len ≤ 2 ^ 32

end Sys2Proof

namespace Sys2Proof.Machine

open Sys2Proof

/-! ### Sparse stores -/

/-- What is listed at `a`, if anything is. -/
def lookupCell {β : Type} : List (Nat × β) → Nat → Option β
  | [], _ => none
  | (b, v) :: m, a => if b = a then some v else lookupCell m a

/-- The store without an entry at `a`. -/
def eraseCell {β : Type} (m : List (Nat × β)) (a : Nat) : List (Nat × β) := m.filter fun c => c.1 != a

/-- The store with an entry put in its place by address. -/
def insertCell {β : Type} (a : Nat) (v : β) : List (Nat × β) → List (Nat × β)
  | [] => [(a, v)]
  | (b, u) :: m => if a < b then (a, v) :: (b, u) :: m else (b, u) :: insertCell a v m

/-! ### Host memory (R67) -/

/-- The byte at an address: its draw if it is one, else the byte last written there, else the byte an unwritten
address reads as. -/
def Memory.read (m : Memory) (a : Nat) : Byte :=
  match lookupCell m.draws a with
  | some k => Config.freeByte k
  | none => (lookupCell m.cells a).getD Config.unwrittenByte

/-- The memory with one byte written. The form stays canonical: a byte equal to what an unlisted address
reads as has no entry. -/
def Memory.write (m : Memory) (a : Nat) (v : Byte) : Memory :=
  { cells := if v = Config.unwrittenByte then eraseCell m.cells a
             else insertCell a v (eraseCell m.cells a)
    draws := eraseCell m.draws a }

/-- The memory in which the byte at `a` is draw number `k`. -/
def Memory.draw (m : Memory) (a k : Nat) : Memory :=
  { cells := eraseCell m.cells a
    draws := insertCell a k (eraseCell m.draws a) }

/-- The canonical form: addresses strictly rising and inside the 32-bit DMA space (R47), no written byte equal
to what an unlisted address reads as, and no address both written and drawn. -/
def Memory.wf (m : Memory) : Bool :=
  decide (m.cells.Pairwise fun c d => c.1 < d.1) && decide (m.draws.Pairwise fun c d => c.1 < d.1) &&
    (m.cells.all fun c => c.1 < 2 ^ 32 && c.2 != Config.unwrittenByte && lookupCell m.draws c.1 == none) &&
    m.draws.all fun c => c.1 < 2 ^ 32

/-- The byte of host memory at `a`. -/
def State.byteAt (s : State) (a : Nat) : Byte := Memory.read s.mem a

/-- The state with one byte of host memory written. -/
def State.putByte (s : State) (a : Nat) (v : Byte) : State := { s with mem := Memory.write s.mem a v }

/-! ### The engine's commands

A command body runs over the state and returns, or raises a code and keeps the state it has reached
(R15, R207). -/

/-- What the engine does in the course of one command. -/
abbrev Cmd (α : Type) := EStateM ErrCode State α

/-- MEM_REFUSES (R14). -/
def State.refuses (s : State) (a : Nat) (d : Dir) : Bool :=
  s.cfg.refused.any fun r => r.dir == d && r.range.contains a

/-- R14: `MemRead(a, 1)`. -/
def dmaRead (a : Nat) : Cmd Byte := fun s =>
  if s.refuses a .read then .error .bus s else .ok (s.byteAt a) s

/-- R14: `MemWrite(a, 1, v)`. -/
def dmaWrite (a : Nat) (v : Byte) : Cmd Unit := fun s =>
  if s.refuses a .write then .error .bus s else .ok () (s.putByte a v)

/-- `raise e` when the condition holds (R15). -/
def raiseWhen (c : Bool) (e : ErrCode) : Cmd Unit := fun s => if c then .error e s else .ok () s

/-- The pseudocode's `for j in i .. i + n - 1`, ascending (R72). -/
def loop (body : Nat → Cmd Unit) : Nat → Nat → Cmd Unit
  | _, 0 => pure ()
  | i, n + 1 => do
    body i
    loop body (i + 1) n

/-! ### Draws -/

/-- One byte of host memory becomes a draw (R120, R231). -/
def drawByte (a : Nat) (s : State) : State :=
  { s with mem := s.mem.draw a s.draws, draws := s.draws + 1 }

/-- The `n` bytes from `a` on become draws, but for those that `keep` names and those outside the DMA space. -/
def drawRange (keep : Nat → Bool) : Nat → Nat → State → State
  | _, 0, s => s
  | a, n + 1, s =>
    drawRange keep (a + 1) n (if keep a || 2 ^ 32 ≤ a then s else drawByte a s)

/-- The hidden registers while the engine is idle: L, ACC1, ACC2, BLKBUF and SCRATCH are unspecified
(R40, R45, U13; log 3). -/
def forgetHidden (s : State) : State :=
  { s with
    latch := Config.freeLatched s.draws
    acc1 := (Config.freeAccumulators s.draws).1
    acc2 := (Config.freeAccumulators s.draws).2
    blkbuf := Config.freeBlock s.draws
    scratch := []
    draws := s.draws + 1 }

/-! ### Accept and completion -/

/-- The command word the engine is to run: the machine fetches no instruction, its nearest analogue is the
word latched at accept (R21, R79, R40). -/
def State.fetchWord (s : State) : Word := s.latch.w

/-- The operand set captured from the operand registers (R112). -/
def State.capture (s : State) (w : Word) : Latched :=
  { w := w, src := s.srcAddr, srclen := s.srcLen, dst := s.dstAddr, dstcap := s.dstCap
    keylen := s.keyLen, key := keyBytes s.key0 s.key1, heap := s.heapAddr, heaplen := s.heapLen }

/-- R112: accept of command word `w`, in one indivisible step. -/
def accept (w : Word) (s : State) : State :=
  { s with
    cmd := w
    latch := s.capture w
    done := false
    err := false
    path := false
    errcode := .ok
    resLen := 0
    pathsel := false
    engine := .busy }

/-- R121: `complete(code, n)`, in one indivisible step. With a code other than `ok` it is this hardware's
exception entry (R202, R207). Once Idle, the hidden registers are unspecified (log 3). -/
def complete (code : ErrCode) (n : Nat) (s : State) : State :=
  forgetHidden
    { s with
      ks := none
      h1 := if code = .ok ∧ opc s.latch.w = 0x01 then s.acc1 else s.h1
      h2 := if code = .ok ∧ opc s.latch.w = 0x01 then s.acc2 else s.h2
      errcode := code
      resLen := if code = .ok then BitVec.ofNat 32 n else 0
      path := s.pathsel
      err := code != .ok
      done := true
      engine := .idle }

/-- The return beside the exception entry is the host's acknowledgement, the W1C write to STATUS (R26, R27,
R208): bit 1 clears DONE, bit 2 clears ERR, nothing else changes. -/
def acknowledge (v : Word) (s : State) : State :=
  { s with
    done := s.done && !v.getLsbD 1
    err := s.err && !v.getLsbD 2 }

end Sys2Proof.Machine
end

