-- ==== Sys2Proof/Machine/Operands.lean ====
section
/-! DEFINITION. The operand forms. Every command takes its operands from the latched set L as unsigned
32-bit values widened to exact integers (spec 30_encoding.md R95), and forms every DMA address as
`base + i` (40_command_interface.md R118). The common checks on them are R115 to R117. -/

namespace Sys2Proof

/-- The source range `[L.src, L.src + L.srclen)` (R18). -/
def Latched.source (L : Latched) : Range := ⟨L.src.toNat, L.srclen.toNat⟩

/-- The destination range `[L.dst, L.dst + L.dstcap)` (R18). -/
def Latched.dest (L : Latched) : Range := ⟨L.dst.toNat, L.dstcap.toNat⟩

/-- The heap window `[L.heap, L.heap + L.heaplen)` (R18). -/
def Latched.heapWindow (L : Latched) : Range := ⟨L.heap.toNat, L.heaplen.toNat⟩

/-- The heap bytes a hex command with output length `n` asks for, `[L.heap, L.heap + n)` (R160, R161). -/
def Latched.heapRegion (L : Latched) (n : Nat) : Range := ⟨L.heap.toNat, n⟩

/-- The used heap region of a hex command with output length `n`: the first `n` bytes of the heap window (R18), the
whole window where it is shorter. -/
def Latched.usedHeap (L : Latched) (n : Nat) : Range := ⟨L.heap.toNat, min n L.heaplen.toNat⟩

/-- Address of source byte `i` (R118). -/
def Latched.srcAt (L : Latched) (i : Nat) : Nat := L.src.toNat + i

/-- Address of destination byte `i` (R118). -/
def Latched.dstAt (L : Latched) (i : Nat) : Nat := L.dst.toNat + i

/-- Address of heap byte `i` (R118). -/
def Latched.heapAt (L : Latched) (i : Nat) : Nat := L.heap.toNat + i

end Sys2Proof

namespace Sys2Proof.Machine

open Sys2Proof

/-- R116: `check_ranges`. -/
def checkRanges (L : Latched) : Cmd Unit :=
  raiseWhen (!(L.source.valid && L.dest.valid)) .range

/-- R117: `check_overlap`. -/
def checkOverlap (L : Latched) : Cmd Unit :=
  raiseWhen (L.source.overlaps L.dest) .overlap

/-- The output length of a command, where the operands alone give it (R165, R168); the length the heap path
is chosen by. -/
def hexOutputLength (L : Latched) : Instr → Option Nat
  | .hashkey => none
  | .hexEnc => some (2 * L.srclen.toNat)
  | .hexDec => if L.srclen.toNat % 2 = 0 then some (L.srclen.toNat / 2) else none
  | .desEnc => none
  | .desDec => none

/-- The command is a hex command, so it owns the heap window (R37, R241, C8). -/
def usesHeapWindow : Instr → Bool
  | .hashkey => false
  | .hexEnc => true
  | .hexDec => true
  | .desEnc => false
  | .desDec => false

/-- The command is on the heap path: its output is longer than SCRATCH_CAP (R160, R240). -/
def onHeapPath (cfg : Config) (L : Latched) (i : Instr) : Bool :=
  match hexOutputLength L i with
  | some n => cfg.scratchCap < n
  | none => false

/-- The ranges a command owns from accept until the host has observed DONE = 1 (R75, R128, R241): source and
destination range of any accepted word, and the heap window of a hex command (C8; log 11). -/
def footprint (L : Latched) : Footprint :=
  { src := L.source, dst := L.dest
    heap := match decode L.w with
            | .ok i => if usesHeapWindow i then L.heapWindow else ⟨0, 0⟩
            | .error _ => ⟨0, 0⟩ }

/-- The used heap region of a hex command with output length `n`, empty on the scratch path (R18, R160). -/
def heapRegionUsed (cfg : Config) (L : Latched) (n : Nat) : Range :=
  if n ≤ cfg.scratchCap then ⟨0, 0⟩ else L.usedHeap n

/-- What a command may write by DMA, beside the source range that it never writes (R71): its destination range and, on
the heap path, its used heap region (R128, R130). An illegal word makes no DMA access (R115). -/
def writeRanges (cfg : Config) (L : Latched) : List Footprint :=
  match decode L.w with
  | .ok i =>
    [{ src := L.source, dst := L.dest
       heap := match hexOutputLength L i with
               | some n => heapRegionUsed cfg L n
               | none => ⟨0, 0⟩ }]
  | .error _ => []

/-- The ranges R240 speaks of: source, destination, and the heap window on the heap path. An illegal word completes
with E_OPCODE whatever its operands are (R115, V54; log 11). -/
def hazardRanges (cfg : Config) (L : Latched) : List Range :=
  match decode L.w with
  | .ok i => [L.source, L.dest] ++ (if onHeapPath cfg L i then [L.heapWindow] else [])
  | .error _ => []

/-- The register window `[BASE, BASE + 0x100)` (R22). -/
def registerWindow (cfg : Config) : Range := ⟨cfg.base, 0x100⟩

/-- R240: a range of the command overlaps the register window or is not plain memory. -/
def hazardRange (cfg : Config) (L : Latched) : Bool :=
  (hazardRanges cfg L).any fun r =>
    r.overlaps (registerWindow cfg) || cfg.devices.any fun d => r.overlaps d

/-- R80, log 15: on a non-coherent platform a range of the command holds a byte the host stored and has not
made visible to the DMA port. -/
def hazardCoherence (s : State) (L : Latched) : Bool :=
  !s.cfg.dmaCoherent && (hazardRanges s.cfg L).any fun r => s.hostDirty.any r.contains

/-- The common sequence of R114 after the opcode check, then the completion of R121. -/
def runCommand (body : Latched → Cmd Nat) (s : State) : State :=
  let L := s.latch
  match (do checkRanges L; checkOverlap L; body L : Cmd Nat) s with
  | .ok n t => complete .ok n t
  | .error e t => complete e 0 t

end Sys2Proof.Machine
end

