-- ==== Sys2Proof/Machine/Flags.lean ====
section
/-! DEFINITION. The flags and the words they are read as (spec 10_state.md R24 to R31, R48) and the
interrupt output (60_exceptions.md R215). The block has no condition codes. -/

namespace Sys2Proof.Machine

open Sys2Proof

/-- A flag as bit 0 of a word. -/
def flagBit (b : Bool) : Word := if b then 1 else 0

/-- STATUS.BUSY: 1 exactly when the engine is busy (R25, R41). -/
def State.busy (s : State) : Bool := s.engine == .busy

/-- CTRL reads as `zext_32(IE)` (R24, R124). -/
def State.ctrlWord (s : State) : Word := flagBit s.ie

/-- R29: `(PATH << 3) or (ERR << 2) or (DONE << 1) or BUSY`. -/
def State.statusWord (s : State) : Word :=
  (flagBit s.path <<< 3) ||| (flagBit s.err <<< 2) ||| (flagBit s.done <<< 1) ||| flagBit s.busy

/-- The number of a completion code (R200). -/
def ErrCode.number : ErrCode → BitVec 4
  | .ok => 0
  | .opcode => 1
  | .range => 2
  | .overlap => 3
  | .key => 4
  | .input => 5
  | .malformed => 6
  | .dstcap => 7
  | .alloc => 8
  | .bus => 9

/-- ERRCODE reads as `zext_32(CODE)` (R31, R124). -/
def State.errcodeWord (s : State) : Word := s.errcode.number.setWidth 32

/-- The interrupt output: `irq = CTRL.IE and STATUS.DONE` (R215). -/
def State.irq (s : State) : Bool := s.ie && s.done

end Sys2Proof.Machine
end

