-- ==== Sys2Proof/Machine/Primitive.lean ====
section
/-! DEFINITION. The unit behind the primitive port: KSETUP and BLK (spec 00_scope.md R3, R16;
43_block_framer.md R180). The default is single DES as in FIPS 46-3, whose tables are not in the spec:
PRESUMED (log 18), and checked against the spec's own vectors V31 to V53 in the tests. -/

namespace Sys2Proof

/-! ### Blocks and DES bit strings -/

/-- Block byte 0 carries DES input bits 1 to 8, most significant bit first (R180). -/
def Block.toBits (b : Block) : BitVec 64 :=
  b.b0 ++ b.b1 ++ b.b2 ++ b.b3 ++ b.b4 ++ b.b5 ++ b.b6 ++ b.b7

/-- The block whose DES bits are given (R180). -/
def Block.ofBits (v : BitVec 64) : Block :=
  { b0 := v.extractLsb' 56 8, b1 := v.extractLsb' 48 8, b2 := v.extractLsb' 40 8
    b3 := v.extractLsb' 32 8, b4 := v.extractLsb' 24 8, b5 := v.extractLsb' 16 8
    b6 := v.extractLsb' 8 8, b7 := v.extractLsb' 0 8 }

end Sys2Proof

namespace Sys2Proof.Machine

open Sys2Proof

/-- Collect the listed bits of `v`, numbered from 1 at the most significant bit, first on the left. -/
def pickNat {n : Nat} (v : BitVec n) : List Nat → Nat → Nat
  | [], acc => acc
  | i :: t, acc => pickNat v t (2 * acc + (v.getMsbD (i - 1)).toNat)

/-- A selection table of FIPS 46-3 applied to a bit string. -/
def pick {n : Nat} (m : Nat) (table : List Nat) (v : BitVec n) : BitVec m :=
  BitVec.ofNat m (pickNat v table 0)

/-! ### The tables of FIPS 46-3 (PRESUMED, log 18) -/

namespace DesTable

/-- The initial permutation. -/
def ip : List Nat :=
  [58, 50, 42, 34, 26, 18, 10, 2, 60, 52, 44, 36, 28, 20, 12, 4,
   62, 54, 46, 38, 30, 22, 14, 6, 64, 56, 48, 40, 32, 24, 16, 8,
   57, 49, 41, 33, 25, 17, 9, 1, 59, 51, 43, 35, 27, 19, 11, 3,
   61, 53, 45, 37, 29, 21, 13, 5, 63, 55, 47, 39, 31, 23, 15, 7]

/-- The final permutation. -/
def fp : List Nat :=
  [40, 8, 48, 16, 56, 24, 64, 32, 39, 7, 47, 15, 55, 23, 63, 31,
   38, 6, 46, 14, 54, 22, 62, 30, 37, 5, 45, 13, 53, 21, 61, 29,
   36, 4, 44, 12, 52, 20, 60, 28, 35, 3, 43, 11, 51, 19, 59, 27,
   34, 2, 42, 10, 50, 18, 58, 26, 33, 1, 41, 9, 49, 17, 57, 25]

/-- The expansion E. -/
def expand : List Nat :=
  [32, 1, 2, 3, 4, 5, 4, 5, 6, 7, 8, 9, 8, 9, 10, 11,
   12, 13, 12, 13, 14, 15, 16, 17, 16, 17, 18, 19, 20, 21, 20, 21,
   22, 23, 24, 25, 24, 25, 26, 27, 28, 29, 28, 29, 30, 31, 32, 1]

/-- The permutation P. -/
def perm : List Nat :=
  [16, 7, 20, 21, 29, 12, 28, 17, 1, 15, 23, 26, 5, 18, 31, 10,
   2, 8, 24, 14, 32, 27, 3, 9, 19, 13, 30, 6, 22, 11, 4, 25]

/-- Permuted choice 1; it leaves out the parity bits, which DES ignores (R180). -/
def pc1 : List Nat :=
  [57, 49, 41, 33, 25, 17, 9, 1, 58, 50, 42, 34, 26, 18, 10, 2,
   59, 51, 43, 35, 27, 19, 11, 3, 60, 52, 44, 36, 63, 55, 47, 39,
   31, 23, 15, 7, 62, 54, 46, 38, 30, 22, 14, 6, 61, 53, 45, 37,
   29, 21, 13, 5, 28, 20, 12, 4]

/-- Permuted choice 2. -/
def pc2 : List Nat :=
  [14, 17, 11, 24, 1, 5, 3, 28, 15, 6, 21, 10, 23, 19, 12, 4,
   26, 8, 16, 7, 27, 20, 13, 2, 41, 52, 31, 37, 47, 55, 30, 40,
   51, 45, 33, 48, 44, 49, 39, 56, 34, 53, 46, 42, 50, 36, 29, 32]

/-- The rotations of the sixteen rounds. -/
def shifts : List Nat :=
  [1, 1, 2, 2, 2, 2, 2, 2, 1, 2, 2, 2, 2, 2, 2, 1]

/-- The box S1, row by row. -/
def s1 : List Nat :=
  [14, 4, 13, 1, 2, 15, 11, 8, 3, 10, 6, 12, 5, 9, 0, 7,
   0, 15, 7, 4, 14, 2, 13, 1, 10, 6, 12, 11, 9, 5, 3, 8,
   4, 1, 14, 8, 13, 6, 2, 11, 15, 12, 9, 7, 3, 10, 5, 0,
   15, 12, 8, 2, 4, 9, 1, 7, 5, 11, 3, 14, 10, 0, 6, 13]

/-- The box S2, row by row. -/
def s2 : List Nat :=
  [15, 1, 8, 14, 6, 11, 3, 4, 9, 7, 2, 13, 12, 0, 5, 10,
   3, 13, 4, 7, 15, 2, 8, 14, 12, 0, 1, 10, 6, 9, 11, 5,
   0, 14, 7, 11, 10, 4, 13, 1, 5, 8, 12, 6, 9, 3, 2, 15,
   13, 8, 10, 1, 3, 15, 4, 2, 11, 6, 7, 12, 0, 5, 14, 9]

/-- The box S3, row by row. -/
def s3 : List Nat :=
  [10, 0, 9, 14, 6, 3, 15, 5, 1, 13, 12, 7, 11, 4, 2, 8,
   13, 7, 0, 9, 3, 4, 6, 10, 2, 8, 5, 14, 12, 11, 15, 1,
   13, 6, 4, 9, 8, 15, 3, 0, 11, 1, 2, 12, 5, 10, 14, 7,
   1, 10, 13, 0, 6, 9, 8, 7, 4, 15, 14, 3, 11, 5, 2, 12]

/-- The box S4, row by row. -/
def s4 : List Nat :=
  [7, 13, 14, 3, 0, 6, 9, 10, 1, 2, 8, 5, 11, 12, 4, 15,
   13, 8, 11, 5, 6, 15, 0, 3, 4, 7, 2, 12, 1, 10, 14, 9,
   10, 6, 9, 0, 12, 11, 7, 13, 15, 1, 3, 14, 5, 2, 8, 4,
   3, 15, 0, 6, 10, 1, 13, 8, 9, 4, 5, 11, 12, 7, 2, 14]

/-- The box S5, row by row. -/
def s5 : List Nat :=
  [2, 12, 4, 1, 7, 10, 11, 6, 8, 5, 3, 15, 13, 0, 14, 9,
   14, 11, 2, 12, 4, 7, 13, 1, 5, 0, 15, 10, 3, 9, 8, 6,
   4, 2, 1, 11, 10, 13, 7, 8, 15, 9, 12, 5, 6, 3, 0, 14,
   11, 8, 12, 7, 1, 14, 2, 13, 6, 15, 0, 9, 10, 4, 5, 3]

/-- The box S6, row by row. -/
def s6 : List Nat :=
  [12, 1, 10, 15, 9, 2, 6, 8, 0, 13, 3, 4, 14, 7, 5, 11,
   10, 15, 4, 2, 7, 12, 9, 5, 6, 1, 13, 14, 0, 11, 3, 8,
   9, 14, 15, 5, 2, 8, 12, 3, 7, 0, 4, 10, 1, 13, 11, 6,
   4, 3, 2, 12, 9, 5, 15, 10, 11, 14, 1, 7, 6, 0, 8, 13]

/-- The box S7, row by row. -/
def s7 : List Nat :=
  [4, 11, 2, 14, 15, 0, 8, 13, 3, 12, 9, 7, 5, 10, 6, 1,
   13, 0, 11, 7, 4, 9, 1, 10, 14, 3, 5, 12, 2, 15, 8, 6,
   1, 4, 11, 13, 12, 3, 7, 14, 10, 15, 6, 8, 0, 5, 9, 2,
   6, 11, 13, 8, 1, 4, 10, 7, 9, 5, 0, 15, 14, 2, 3, 12]

/-- The box S8, row by row. -/
def s8 : List Nat :=
  [13, 2, 8, 4, 6, 15, 11, 1, 10, 9, 3, 14, 5, 0, 12, 7,
   1, 15, 13, 8, 10, 3, 7, 4, 12, 5, 6, 11, 0, 14, 9, 2,
   7, 11, 4, 1, 9, 12, 14, 2, 0, 6, 10, 13, 15, 3, 5, 8,
   2, 1, 14, 7, 4, 10, 8, 13, 15, 12, 9, 0, 3, 5, 6, 11]

/-- The eight boxes in order. -/
def boxes : List (List Nat) := [s1, s2, s3, s4] ++ [s5, s6, s7, s8]

end DesTable

/-! ### The cipher -/

/-- One box: row from the outer two bits, column from the inner four. -/
def desBox (box : List Nat) (six : BitVec 6) : BitVec 4 :=
  let row := 2 * (six.getMsbD 0).toNat + (six.getMsbD 5).toNat
  BitVec.ofNat 4 (box.getD (16 * row + (six.extractLsb' 1 4).toNat) 0)

/-- The outputs of the boxes from box `i` on, joined. -/
def desBoxes (x : BitVec 48) : List (List Nat) → Nat → Nat → Nat
  | [], _, acc => acc
  | box :: rest, i, acc =>
    desBoxes x rest (i + 1) (16 * acc + (desBox box (x.extractLsb' (42 - 6 * i) 6)).toNat)

/-- The cipher function f(R, K). -/
def desF (r : BitVec 32) (k : BitVec 48) : BitVec 32 :=
  pick 32 DesTable.perm
    (BitVec.ofNat 32 (desBoxes (pick 48 DesTable.expand r ^^^ k) DesTable.boxes 0 0))

/-- The round keys from the halves C and D on. -/
def desRoundKeys : List Nat → BitVec 28 → BitVec 28 → List (BitVec 48)
  | [], _, _ => []
  | n :: rest, c, d =>
    let c' := c.rotateLeft n
    let d' := d.rotateLeft n
    pick 48 DesTable.pc2 (c' ++ d') :: desRoundKeys rest c' d'

/-- The key schedule of single DES. -/
def desKeySchedule (key : Block) : List (BitVec 48) :=
  let cd : BitVec 56 := pick 56 DesTable.pc1 key.toBits
  desRoundKeys DesTable.shifts (cd.extractLsb' 28 28) (cd.extractLsb' 0 28)

/-- The rounds: (L, R) becomes (R, L xor f(R, K)). -/
def desRounds : List (BitVec 48) → BitVec 32 × BitVec 32 → BitVec 32 × BitVec 32
  | [], x => x
  | k :: rest, x => desRounds rest (x.2, x.1 ^^^ desF x.2 k)

/-- The two halves after the initial permutation. -/
def desSplit (b : Block) : BitVec 32 × BitVec 32 :=
  let v := pick 64 DesTable.ip b.toBits
  (v.extractLsb' 32 32, v.extractLsb' 0 32)

/-- The preoutput block R16 L16 through the final permutation. -/
def desJoin (x : BitVec 32 × BitVec 32) : Block := Block.ofBits (pick 64 DesTable.fp (x.2 ++ x.1))

/-- Single DES on one block with the round keys in the order given. -/
def desBlock (keys : List (BitVec 48)) (b : Block) : Block := desJoin (desRounds keys (desSplit b))

/-! ### The port -/

/-- The direction of a block transform (R16). -/
inductive CipherDir where
  | enc
  | dec
  deriving DecidableEq, Repr

/-- `KSETUP(k)` (R16, R180). -/
def ksetup (p : Primitive) (k : Block) : Sched :=
  match p with
  | .des => .des (desKeySchedule k)
  | .external id => .external id k

/-- `BLK(dir, ks, b)` (R16, R180); deciphering with DES takes the round keys in reverse order. -/
def blk (dir : CipherDir) (ks : Sched) (b : Block) : Block :=
  match ks, dir with
  | .des keys, .enc => desBlock keys b
  | .des keys, .dec => desBlock keys.reverse b
  | .external id k, .enc => Config.externalCipher id k b
  | .external id k, .dec => (Config.externalCipher id k).symm b

end Sys2Proof.Machine
end

