-- ==== Sys2Proof/Machine/BlockFramer.lean ====
section
/-! DEFINITION. The BlockCipherFramer: DES_ENC and DES_DEC (spec 43_block_framer.md R181 to R190). -/

namespace Sys2Proof.Machine

open Sys2Proof

/-- `L.keylen < 8` raises E_KEY before anything else of the body (R181). -/
def checkKeyLength (L : Latched) : Cmd Unit := raiseWhen (L.keylen.toNat < 8) .key

/-- `KS <- KSETUP(L.key)` (R43, R193). -/
def setupKey (L : Latched) : Cmd Unit := fun s =>
  .ok () { s with ks := some (ksetup s.cfg.primitive L.key) }

/-- `BLKBUF[j] <- v` (R44). -/
def setBlkbuf (j : Nat) (v : Byte) : Cmd Unit := fun s => .ok () { s with blkbuf := s.blkbuf.set j v }

/-- `BLKBUF <- BLK(dir, KS, BLKBUF)` (R182, R187). Only reached with KS set (R43: "No command reads KS before
setting it"); with `KS_NONE` the block is left alone. -/
def transformBlkbuf (dir : CipherDir) : Cmd Unit := fun s =>
  .ok () { s with blkbuf := match s.ks with
                            | some ks => blk dir ks s.blkbuf
                            | none => s.blkbuf }

/-- One block of DES_ENC (R185): read, zero fill, transform, write. -/
def encryptBlock (L : Latched) (k : Nat) : Cmd Unit := do
  let r := min 8 (L.srclen.toNat - 8 * k)
  loop (fun j => do setBlkbuf j (← dmaRead (L.srcAt (8 * k + j)))) 0 r
  loop (fun j => setBlkbuf j 0x00) r (8 - r)
  transformBlkbuf .enc
  let s ← get
  loop (fun j => dmaWrite (L.dstAt (8 * k + j)) (s.blkbuf.get j)) 0 8

/-- R183: `pad = (8 - (L.srclen mod 8)) mod 8`. -/
def padCount (srclen : Nat) : Nat := (8 - srclen % 8) % 8

/-- `ceil(a/8)` (R11). -/
def blockCount (a : Nat) : Nat := (a + 7) / 8

/-- R185: `DES_ENC_body(L)`. -/
def desEncBody (L : Latched) : Cmd Nat := do
  checkKeyLength L
  let nb := blockCount L.srclen.toNat
  let n := 8 * nb + 1
  raiseWhen (L.dstcap.toNat < n) .dstcap
  setupKey L
  loop (encryptBlock L) 0 nb
  dmaWrite (L.dstAt (8 * nb)) (BitVec.ofNat 8 (padCount L.srclen.toNat))
  return n

/-- One recovered byte of DES_DEC is written if it is one of the first `n` (R187, R190 step 5). -/
def writeRecovered (L : Latched) (n k : Nat) (b : Block) (j : Nat) : Cmd Unit :=
  if 8 * k + j < n then dmaWrite (L.dstAt (8 * k + j)) (b.get j) else pure ()

/-- One block of DES_DEC (R190): read, transform, write what is recovered. -/
def decryptBlock (L : Latched) (n k : Nat) : Cmd Unit := do
  loop (fun j => do setBlkbuf j (← dmaRead (L.srcAt (8 * k + j)))) 0 8
  transformBlkbuf .dec
  let s ← get
  loop (writeRecovered L n k s.blkbuf) 0 8

/-- R190: `DES_DEC_body(L)`, with the checks of R188 and R189 in their order. -/
def desDecBody (L : Latched) : Cmd Nat := do
  checkKeyLength L
  raiseWhen (L.srclen.toNat == 0 || (L.srclen.toNat - 1) % 8 != 0) .malformed
  let body := L.srclen.toNat - 1
  let p ← dmaRead (L.srcAt body)
  raiseWhen (body < p.toNat) .malformed
  let s ← get
  raiseWhen (s.cfg.trailerStrict && 8 ≤ p.toNat) .malformed
  let n := body - p.toNat
  raiseWhen (L.dstcap.toNat < n) .dstcap
  setupKey L
  loop (decryptBlock L n) 0 (body / 8)
  return n

/-- DES_ENC (R185). -/
def execDesEnc (s : State) : Host.Outcome State Fault Refusal := .next (runCommand desEncBody s)

/-- DES_DEC (R190). -/
def execDesDec (s : State) : Host.Outcome State Fault Refusal := .next (runCommand desDecBody s)

end Sys2Proof.Machine
end

