-- ==== Sys2Proof/Machine/Fingerprint.lean ====
section
/-! DEFINITION. HASHKEY, the KeyFingerprint (spec 41_fingerprint.md R150 to R153). -/

namespace Sys2Proof.Machine

open Sys2Proof

/-- H1_SEED (R10). -/
def h1Seed : Word := 5381

/-- H2_SEED (R10). -/
def h2Seed : Word := 1315423911

/-- R151: `fp_step(h1, h2, c)`; both updates read the values from before the step. -/
def fpStep (h : Word × Word) (c : Byte) : Word × Word :=
  let x := c.setWidth 32
  (h.1 + (h.1 <<< 5) + x, h.2 ^^^ ((h.2 <<< 5) + x + (h.2 >>> 2)))

/-- The accumulators take one source byte (R42, R150). -/
def absorbByte (c : Byte) : Cmd Unit := fun s =>
  .ok () { s with acc1 := (fpStep (s.acc1, s.acc2) c).1, acc2 := (fpStep (s.acc1, s.acc2) c).2 }

/-- The accumulators are loaded with the seeds (R150). -/
def loadSeeds : Cmd Unit := fun s => .ok () { s with acc1 := h1Seed, acc2 := h2Seed }

/-- R150: `HASHKEY_body(L)`; the result is serialised as R152 says. -/
def hashkeyBody (L : Latched) : Cmd Nat := do
  raiseWhen (L.dstcap.toNat < 8) .dstcap
  loadSeeds
  loop (fun i => do absorbByte (← dmaRead (L.srcAt i))) 0 L.srclen.toNat
  let s ← get
  loop (fun j => dmaWrite (L.dstAt j) (byteLane s.acc1 j)) 0 4
  loop (fun j => dmaWrite (L.dstAt (4 + j)) (byteLane s.acc2 j)) 0 4
  return 8

/-- HASHKEY (R150). -/
def execHashkey (s : State) : Host.Outcome State Fault Refusal := .next (runCommand hashkeyBody s)

end Sys2Proof.Machine
end

