-- ==== Sys2Proof/Machine/HexCodec.lean ====
section
/-! DEFINITION. The ScratchBuffer and the HexCodec: HEX_ENC and HEX_DEC (spec 42_hex_codec.md R160 to
R168). -/

namespace Sys2Proof.Machine

open Sys2Proof

/-- The backing of the ScratchBuffer (R160). -/
inductive Backing where
  | scratch
  | heap
  deriving DecidableEq, Repr

/-- PATHSEL takes a value (R46). -/
def setPathsel (b : Bool) : Cmd Unit := fun s => .ok () { s with pathsel := b }

/-- R161: `alloc(L, n)`. -/
def alloc (L : Latched) (n : Nat) : Cmd Backing := do
  let s ← get
  if n ≤ s.cfg.scratchCap then
    setPathsel false
    return .scratch
  else
    setPathsel true
    raiseWhen (L.heaplen.toNat < n) .alloc
    raiseWhen (!(L.heapRegion n).valid) .range
    raiseWhen ((L.heapRegion n).overlaps L.source || (L.heapRegion n).overlaps L.dest) .overlap
    return .heap

/-- A byte of SCRATCH is written (R45, R162). -/
def scratchWrite (k : Nat) (v : Byte) : Cmd Unit := fun s =>
  .ok () { s with scratch := insertCell k v (eraseCell s.scratch k) }

/-- A byte of SCRATCH; one that the running command has not written is unspecified (R45). -/
def scratchRead (k : Nat) : Cmd Byte := fun s =>
  .ok ((lookupCell s.scratch k).getD (Config.freeScratch (s.draws + k))) s

/-- R162: `BufWrite(buf, k, v)`. -/
def bufWrite (L : Latched) (buf : Backing) (k : Nat) (v : Byte) : Cmd Unit :=
  match buf with
  | .scratch => scratchWrite k v
  | .heap => dmaWrite (L.heapAt k) v

/-- R162: `BufRead(buf, k)`. -/
def bufRead (L : Latched) (buf : Backing) (k : Nat) : Cmd Byte :=
  match buf with
  | .scratch => scratchRead k
  | .heap => dmaRead (L.heapAt k)

/-- R162: `copyout(buf, n)`. -/
def copyout (L : Latched) (buf : Backing) (n : Nat) : Cmd Unit :=
  loop (fun k => do dmaWrite (L.dstAt k) (← bufRead L buf k)) 0 n

/-- After a command on the heap path, with any code, each byte of the used heap region is a draw (R120, U1). The
region is the first `n` bytes of the heap window (R18), and no byte of the source or of the destination range, which
R71 and R119 keep where the allocation has failed (log 21). -/
def releaseBuffer (L : Latched) (heapPath : Bool) (n : Nat) (s : State) : State :=
  if heapPath then
    drawRange (fun a => L.source.contains a || L.dest.contains a) (L.usedHeap n).base (L.usedHeap n).len s
  else s

/-- The buffer's lifetime is one codec call: it is allocated, used, and released however the call ends (R160). -/
def withBuffer (L : Latched) (n : Nat) (work : Backing → Cmd Unit) : Cmd Unit := fun s =>
  let heapPath := decide (s.cfg.scratchCap < n)
  match (alloc L n >>= work) s with
  | .ok _ t => .ok () (releaseBuffer L heapPath n t)
  | .error e t => .error e (releaseBuffer L heapPath n t)

/-- R164: `HEXDIGIT[d]`, the lowercase ASCII digit of a nibble. -/
def hexDigit (d : BitVec 4) : Byte :=
  if d.toNat < 10 then BitVec.ofNat 8 (0x30 + d.toNat) else BitVec.ofNat 8 (0x61 + (d.toNat - 10))

/-- R164: `is_hex(x)`. -/
def isHex (x : Byte) : Bool :=
  (0x30 ≤ x.toNat && x.toNat ≤ 0x39) || (0x61 ≤ x.toNat && x.toNat ≤ 0x66)

/-- R164: `nib(x)`, used only where `is_hex(x)`. -/
def nibble (x : Byte) : BitVec 4 :=
  if x.toNat ≤ 0x39 then BitVec.ofNat 4 (x.toNat - 0x30) else BitVec.ofNat 4 (x.toNat - 0x61 + 10)

/-- The high nibble `c >> 4`. -/
def highNibble (c : Byte) : BitVec 4 := c.extractLsb' 4 4

/-- The low nibble `c and 0xF`. -/
def lowNibble (c : Byte) : BitVec 4 := c.extractLsb' 0 4

/-- The byte two characters spell, `(nib(a) << 4) or nib(b)` (R168). -/
def pairByte (a b : Byte) : Byte := nibble a ++ nibble b

/-- One source byte of HEX_ENC (R165): most significant nibble first. -/
def encodeByte (L : Latched) (buf : Backing) (i : Nat) : Cmd Unit := do
  let c ← dmaRead (L.srcAt i)
  bufWrite L buf (2 * i) (hexDigit (highNibble c))
  bufWrite L buf (2 * i + 1) (hexDigit (lowNibble c))

/-- R165: `HEX_ENC_body(L)`. -/
def hexEncBody (L : Latched) : Cmd Nat := do
  let n := 2 * L.srclen.toNat
  raiseWhen (L.dstcap.toNat < n) .dstcap
  withBuffer L n fun buf => do
    loop (encodeByte L buf) 0 L.srclen.toNat
    copyout L buf n
  return n

/-- One pair of HEX_DEC (R168): the first character is the high nibble. -/
def decodePair (L : Latched) (buf : Backing) (i : Nat) : Cmd Unit := do
  let a ← dmaRead (L.srcAt (2 * i))
  let b ← dmaRead (L.srcAt (2 * i + 1))
  raiseWhen (!(isHex a && isHex b)) .input
  bufWrite L buf i (pairByte a b)

/-- R168: `HEX_DEC_body(L)`. -/
def hexDecBody (L : Latched) : Cmd Nat := do
  raiseWhen (L.srclen.toNat % 2 != 0) .input
  let n := L.srclen.toNat / 2
  raiseWhen (L.dstcap.toNat < n) .dstcap
  withBuffer L n fun buf => do
    loop (decodePair L buf) 0 n
    copyout L buf n
  return n

/-- HEX_ENC (R165). -/
def execHexEnc (s : State) : Host.Outcome State Fault Refusal := .next (runCommand hexEncBody s)

/-- HEX_DEC (R168). -/
def execHexDec (s : State) : Host.Outcome State Fault Refusal := .next (runCommand hexDecBody s)

end Sys2Proof.Machine
end

