-- ==== Sys2Proof/Machine/Dispatch.lean ====
section
/-! DEFINITION. The dispatch from a command to its meaning (spec 40_command_interface.md R114). -/

namespace Sys2Proof.Machine

open Sys2Proof

def exec (i : Instr) (s : State) : Host.Outcome State Fault Refusal :=
  match i with
  | .hashkey => Sys2Proof.Machine.execHashkey s
  | .hexEnc => Sys2Proof.Machine.execHexEnc s
  | .hexDec => Sys2Proof.Machine.execHexDec s
  | .desEnc => Sys2Proof.Machine.execDesEnc s
  | .desDec => Sys2Proof.Machine.execDesDec s

end Sys2Proof.Machine
end

