-- ==== Sys2Proof/Machine/HostPort.lean ====
section
/-! DEFINITION. The host's side: the register window (spec 10_state.md R22, R23; 20_memory.md R60 to R63;
40_command_interface.md R123, R124), host memory, the interrupt output, and the hazards of
70_reset_and_hazards.md R240 to R244. -/

namespace Sys2Proof.Machine

open Sys2Proof

/-- The registers of R23. -/
inductive Reg where
  | ctrl | status | cmd | errcode | srcAddr | srcLen | dstAddr | dstCap | resLen
  | keyLen | key0 | key1 | heapAddr | heapLen | h1 | h2 | caps | reserved
  deriving DecidableEq, Repr

/-- R23: the register at a 4-aligned offset. -/
def Reg.ofOffset (o : BitVec 8) : Reg :=
  match o.toNat with
  | 0x00 => .ctrl
  | 0x04 => .status
  | 0x08 => .cmd
  | 0x0C => .errcode
  | 0x10 => .srcAddr
  | 0x14 => .srcLen
  | 0x18 => .dstAddr
  | 0x1C => .dstCap
  | 0x20 => .resLen
  | 0x24 => .keyLen
  | 0x28 => .key0
  | 0x2C => .key1
  | 0x30 => .heapAddr
  | 0x34 => .heapLen
  | 0x38 => .h1
  | 0x3C => .h2
  | 0x40 => .caps
  | _ => .reserved

/-- R124: the value a host read of a register returns. -/
def regRead (r : Reg) (s : State) : Word :=
  match r with
  | .ctrl => s.ctrlWord
  | .status => s.statusWord
  | .cmd => s.cmd
  | .errcode => s.errcodeWord
  | .srcAddr => s.srcAddr
  | .srcLen => s.srcLen
  | .dstAddr => s.dstAddr
  | .dstCap => s.dstCap
  | .resLen => s.resLen
  | .keyLen => s.keyLen
  | .key0 => s.key0
  | .key1 => s.key1
  | .heapAddr => s.heapAddr
  | .heapLen => s.heapLen
  | .h1 => s.h1
  | .h2 => s.h2
  | .caps => BitVec.ofNat 32 s.cfg.scratchCap
  | .reserved => 0

/-- R112 with its bookkeeping: the accepted word's ranges are the host's duty until it observes DONE = 1
(R241), and, without coherent DMA, those it may write are until the host's maintenance (R80, log 15). -/
def acceptCommand (w : Word) (s : State) : State :=
  let t := accept w s
  { t with
    unseen := footprint t.latch :: t.unseen
    dmaDirty := if t.cfg.dmaCoherent then t.dmaDirty else writeRanges t.cfg t.latch ++ t.dmaDirty }

/-- A host write to CMD: accept when Idle (R112), ignored when Busy (R113). "A model faults at accept" when
the ranges break R240 (R68). -/
def cmdWrite (w : Word) (s : State) : Host.Outcome State Fault Refusal :=
  match s.engine with
  | .busy => .next s
  | .idle =>
    if hazardRange s.cfg (s.capture w) then .fault .hazardRange
    else if hazardCoherence s (s.capture w) then .fault .hazardCoherence
    else .next (acceptCommand w s)

/-- R123: a host write of `v` to a register. -/
def regWrite (r : Reg) (v : Word) (s : State) : Host.Outcome State Fault Refusal :=
  match r with
  | .ctrl => .next { s with ie := v.getLsbD 0 }
  | .status => .next (acknowledge v s)
  | .cmd => cmdWrite v s
  | .srcAddr => .next { s with srcAddr := v }
  | .srcLen => .next { s with srcLen := v }
  | .dstAddr => .next { s with dstAddr := v }
  | .dstCap => .next { s with dstCap := v }
  | .keyLen => .next { s with keyLen := v }
  | .key0 => .next { s with key0 := v }
  | .key1 => .next { s with key1 := v }
  | .heapAddr => .next { s with heapAddr := v }
  | .heapLen => .next { s with heapLen := v }
  | .errcode => .next s
  | .resLen => .next s
  | .h1 => .next s
  | .h2 => .next s
  | .caps => .next s
  | .reserved => .next s

/-- The registers a command sequence is made of (R243): an operand register, CMD or STATUS. -/
def sequenceReg : Reg → Bool
  | .ctrl => false
  | .status => true
  | .cmd => true
  | .errcode => false
  | .srcAddr => true
  | .srcLen => true
  | .dstAddr => true
  | .dstCap => true
  | .resLen => false
  | .keyLen => true
  | .key0 => true
  | .key1 => true
  | .heapAddr => true
  | .heapLen => true
  | .h1 => false
  | .h2 => false
  | .caps => false
  | .reserved => false

/-- Another agent's command sequence is open (R243). -/
def ownedByOther (agent : Nat) (s : State) : Bool :=
  match s.owner with
  | some a => a != agent
  | none => false

/-- A write of an operand register, or of CMD while Idle, opens the agent's command sequence (R243, log 14). -/
def opensSequence (r : Reg) (s : State) : Bool :=
  sequenceReg r && r != .status && !(r == .cmd && s.busy)

/-- The agent of an open sequence. -/
def noteWrite (agent : Nat) (r : Reg) (s : State) : State :=
  { s with owner := if opensSequence r s then some agent else s.owner }

/-- R60: only 32-bit accesses at multiples of 4. -/
def portAligned (size : Nat) (o : BitVec 8) : Bool := size == 4 && o.toNat % 4 == 0

/-- A next state with what the host gets back. -/
def answer (r : Response) (x : Host.Outcome State Fault Refusal) : Host.Outcome State Fault Refusal :=
  match x with
  | .next s => .next { s with response := r }
  | .fault e => .fault e
  | .refused e => .refused e

/-- The host writes over the register port (R60, R123, R232, R243). -/
def hostWrite (agent size : Nat) (o : BitVec 8) (v : Word) (s : State) :
    Host.Outcome State Fault Refusal :=
  if s.resetActive then .fault .stuckInReset
  else if !portAligned size o then .refused (.portAccess o.toNat size)
  else if sequenceReg (Reg.ofOffset o) && ownedByOther agent s then .fault .hazardShared
  else answer .ack (regWrite (Reg.ofOffset o) v (noteWrite agent (Reg.ofOffset o) s))

/-- The host has observed DONE = 1: its duty to the ranges of the commands up to now ends (R241, R244). Whichever agent
observes it, the duty ends for all of them, since R18 calls any of them the host: DESIGN CHOICE, unsafe (log 24). -/
def observeDone (seen : Bool) (s : State) : State :=
  if seen then { s with unseen := [] } else s

/-- The host reads over the register port (R60, R124, R232). A read of STATUS that shows DONE = 1 is the
observation R241 speaks of; it changes no state of the block (R62). -/
def hostRead (size : Nat) (o : BitVec 8) (s : State) : Host.Outcome State Fault Refusal :=
  if s.resetActive then .fault .stuckInReset
  else if !portAligned size o then .refused (.portAccess o.toNat size)
  else
    .next { observeDone (Reg.ofOffset o == .status && s.done) s with
            response := .data (regRead (Reg.ofOffset o) s) }

/-- The host looks at the interrupt output (R215, R242); an asserted `irq` shows DONE = 1 (log 12). -/
def hostSeeIrq (s : State) : State :=
  { observeDone s.irq s with response := .irq s.irq }

/-- A host memory access of one byte that meets the register window is a register-port access that is not
32 bits wide (R60, R232); one that meets a device has no meaning here (log 16). -/
def outsideMemory (a : Nat) (s : State) : Option (Host.Outcome State Fault Refusal) :=
  if (registerWindow s.cfg).contains a then
    some (if s.resetActive then .fault .stuckInReset else .refused (.portAccess (a - s.cfg.base) 1))
  else if s.cfg.devices.any (fun d => d.contains a) then some (.refused (.deviceAccess a))
  else none

/-- An address lies in a range of a command whose DONE = 1 the host has not observed. -/
def Footprint.owns (f : Footprint) (a : Nat) : Bool :=
  f.src.contains a || f.dst.contains a || f.heap.contains a

/-- A byte the host races for: in the destination range or the heap window, and not in the source range, which
the block never writes (R71, R75, R241; log 13). -/
def Footprint.races (f : Footprint) (a : Nat) : Bool :=
  (f.dst.contains a || f.heap.contains a) && !f.src.contains a

/-- The host stores one byte (R67, R128, R241). -/
def hostStore (a : Nat) (v : Byte) (s : State) : Host.Outcome State Fault Refusal :=
  match outsideMemory a s with
  | some x => x
  | none =>
    if s.unseen.any (fun f => f.owns a) then .fault .hazardMemWrite
    else
      .next { s.putByte a v with
              hostDirty := if s.cfg.dmaCoherent then s.hostDirty else a :: s.hostDirty
              response := .ack }

/-- The host loads one byte (R67, R75, R241): a racing read returns a draw. A byte for which one unobserved command
races is a draw although it is a source byte of another: DESIGN CHOICE, safe (log 13). -/
def hostLoad (a : Nat) (s : State) : Host.Outcome State Fault Refusal :=
  match outsideMemory a s with
  | some x => x
  | none =>
    if s.unseen.any (fun f => f.races a) then
      .next { s with response := .byte (Config.freeByte s.draws), draws := s.draws + 1 }
    else if !s.cfg.dmaCoherent && s.dmaDirty.any (fun f => f.races a) then .fault .hazardCoherence
    else .next { s with response := .byte (s.byteAt a) }

/-- The agent ends its command sequence (R243, log 14). -/
def hostEndSequence (agent : Nat) (s : State) : State :=
  { s with owner := if s.owner = some agent then none else s.owner }

/-- The host's cache maintenance (R80, log 15): it covers every command that has completed; what a command in flight
may still write is left. Whichever agent does it, it discharges the duty of R80 and R128 for all of them, since R18 calls
any of them the host: DESIGN CHOICE, unsafe (log 26). -/
def hostMaintain (s : State) : State :=
  { s with hostDirty := []
           dmaDirty := if s.busy && !s.cfg.dmaCoherent then writeRanges s.cfg s.latch else [] }

end Sys2Proof.Machine
end

