-- ==== Sys2Proof/Machine/Reset.lean ====
section
/-! DEFINITION. The reset input (spec 70_reset_and_hazards.md R230 to R232, 10_state.md R49). -/

namespace Sys2Proof.Machine

open Sys2Proof

/-- Every register of the block takes its reset value of R49; the hidden registers R49 leaves unspecified become
free values (log 3). Host memory, the configuration and the host's own bookkeeping are not the block's. -/
def resetBlock (level : Bool) (s : State) : State :=
  forgetHidden
    { s with
      ie := State.reset.ie
      done := State.reset.done
      err := State.reset.err
      path := State.reset.path
      cmd := State.reset.cmd
      errcode := State.reset.errcode
      srcAddr := State.reset.srcAddr
      srcLen := State.reset.srcLen
      dstAddr := State.reset.dstAddr
      dstCap := State.reset.dstCap
      resLen := State.reset.resLen
      keyLen := State.reset.keyLen
      key0 := State.reset.key0
      key1 := State.reset.key1
      heapAddr := State.reset.heapAddr
      heapLen := State.reset.heapLen
      h1 := State.reset.h1
      h2 := State.reset.h2
      engine := State.reset.engine
      ks := State.reset.ks
      pathsel := State.reset.pathsel
      unseen := []
      resetActive := level }

/-- R231: the command in flight stops; every byte of its destination range and heap window becomes a draw, and
the source range is unchanged (log 22). -/
def abortCommand (s : State) : State :=
  match s.engine with
  | .idle => s
  | .busy =>
    let L := s.latch
    drawRange L.source.contains L.heap.toNat L.heaplen.toNat
      (drawRange L.source.contains L.dst.toNat L.dstcap.toNat s)

/-- The reset input becomes active (R230, R231). -/
def resetAssert (s : State) : State := resetBlock true (abortCommand s)

/-- The reset input is released (R230); releasing an input that is not active does nothing. -/
def resetRelease (s : State) : State := if s.resetActive then resetBlock false s else s

end Sys2Proof.Machine
end

