-- ==== Sys2Proof/Machine/Turns.lean ====
section
/-! DEFINITION. The turns of the agents (spec 40_command_interface.md R110): the engine's turn, and one input
from outside. -/

namespace Sys2Proof.Machine

open Sys2Proof

/-- The engine's turn: a Busy engine runs its command to completion in one transition (R76, R114, R130; log 5).
An illegal word completes with E_OPCODE and makes no DMA access (R92, R115). An Idle engine does nothing
(R226), and none moves during reset (R232). -/
def engineTurn (s : State) : Host.Outcome State Fault Refusal :=
  if s.resetActive then .next s
  else
    match s.engine with
    | .idle => .next s
    | .busy =>
      match decode s.fetchWord with
      | .ok i => exec i s
      | .error _ => .next (complete .opcode 0 s)

/-- One input takes effect (R110, R128). -/
def inputTurn (x : Input) (s : State) : Host.Outcome State Fault Refusal :=
  match x with
  | .write agent size o v => hostWrite agent size o v s
  | .read _ size o => hostRead size o s
  | .store _ a v => hostStore a.toNat v s
  | .load _ a => hostLoad a.toNat s
  | .seeIrq _ => .next (hostSeeIrq s)
  | .endSequence agent => .next (hostEndSequence agent s)
  | .cacheMaintain _ => .next (hostMaintain s)
  | .resetAssert => .next (resetAssert s)
  | .resetRelease => .next (resetRelease s)
  | .engine => engineTurn s

/-- The inputs after the next one. -/
def State.popInput (s : State) : State := { s with inputs := s.inputs.tail }

/-- Command word `w` as accepted, and the engine next to move (log 7). -/
def placeWord (w : Word) (s : State) : State :=
  { accept w s with inputs := [], resetActive := false }

end Sys2Proof.Machine
end

