-- ==== Sys2Proof/Machine/Step.lean ====
section
/-! DEFINITION. One step. The inputs in State say which agent moves next; when there is none, a Busy engine
moves (spec 40_command_interface.md R122, weak fairness; log 6). -/

namespace Sys2Proof.Machine

open Sys2Proof

/-- One step of the machine. -/
def step (s : State) : Host.Outcome State Fault Refusal :=
  match s.inputs with
  | [] => engineTurn s
  | x :: _ => inputTurn x s.popInput

/-- The state whose very next step runs the command word of an opcode-table row: the word has been accepted
with the operands that stand in the operand registers, and the engine moves next (log 7). -/
def State.withFetchWord (s : State) (nbits w : Nat) : State := placeWord (tableWord nbits w) s

end Sys2Proof.Machine
end

