-- ==== Sys2Proof/Safety.lean ====
section
/-! DEFINITION. The terms the statements are written in: what a command finds in its source range, when
the platform lets it run, what its result is, and the invariant of the machine. None of these is used by
the machine itself. -/

namespace Sys2Proof.Safety

open Sys2Proof Sys2Proof.Machine

/-! ### Before a command runs -/

/-- The engine is about to run command `i`: its word is the latched one (R40, R92). -/
def Loaded (i : Instr) (s : State) : Prop := s.latch.w = encode i

/-- The common checks pass: both ranges are valid and share no byte (R116, R117). -/
def RangesOk (L : Latched) : Prop :=
  L.source.valid = true ∧ L.dest.valid = true ∧ L.source.overlaps L.dest = false

/-- The platform refuses no DMA access of direction `d` to a byte of the range (R14). -/
def Allows (s : State) (r : Range) (d : Dir) : Prop :=
  ∀ a, r.contains a = true → s.refuses a d = false

/-- The platform refuses no read of the first `k` source bytes. -/
def ReadsAllowed (s : State) (k : Nat) : Prop := ∀ j, j < k → s.refuses (s.latch.srcAt j) .read = false

/-- The platform refuses no write of the first `k` destination bytes. -/
def WritesAllowed (s : State) (k : Nat) : Prop := ∀ j, j < k → s.refuses (s.latch.dstAt j) .write = false

/-- The ranges R240 speaks of, as the operand registers give them for command `i`: source, destination, and on the heap
path the heap window. -/
def OperandRange (i : Instr) (s : State) (r : Range) : Prop :=
  r = ⟨s.srcAddr.toNat, s.srcLen.toNat⟩ ∨ r = ⟨s.dstAddr.toNat, s.dstCap.toNat⟩ ∨
    (r = ⟨s.heapAddr.toNat, s.heapLen.toNat⟩ ∧
      ((i = .hexEnc ∧ s.cfg.scratchCap < 2 * s.srcLen.toNat) ∨
       (i = .hexDec ∧ s.srcLen.toNat % 2 = 0 ∧ s.cfg.scratchCap < s.srcLen.toNat / 2)))

/-- The source bytes in order (R18). -/
def sourceBytes (s : State) : List Byte :=
  (List.range s.latch.srclen.toNat).map fun i => s.byteAt (s.latch.srcAt i)

/-- `n` bytes of host memory from `a` on. -/
def bytesFrom (s : State) (a n : Nat) : List Byte := (List.range n).map fun i => s.byteAt (a + i)

/-! ### Results -/

/-- The two final accumulators over a text (R150, R151). -/
def fingerprint (text : List Byte) : Word × Word := text.foldl fpStep (h1Seed, h2Seed)

/-- `LE32(v)` (R12). -/
def le32 (v : Word) : List Byte := [byteLane v 0, byteLane v 1, byteLane v 2, byteLane v 3]

/-- The eight bytes HASHKEY writes (R152). -/
def fingerprintBytes (text : List Byte) : List Byte :=
  le32 (fingerprint text).1 ++ le32 (fingerprint text).2

/-- The lowercase hex text of bytes, most significant nibble first (R164, R165). -/
def hexText (bytes : List Byte) : List Byte :=
  bytes.flatMap fun c => [hexDigit (highNibble c), hexDigit (lowNibble c)]

/-- Every byte is a lowercase hex digit (R164, R167). -/
def AllHex (text : List Byte) : Prop := ∀ x ∈ text, isHex x = true

/-- The bytes a hex text spells, first character the high nibble (R168). -/
def spelled : List Byte → List Byte
  | a :: b :: rest => pairByte a b :: spelled rest
  | _ => []

/-- Plaintext block `k`: bytes 8k to 8k+7 of the source, zero past its end (R182, R183). -/
def plainBlock (s : State) (k : Nat) : Block :=
  Block.ofFn fun j =>
    if 8 * k + j < s.latch.srclen.toNat then s.byteAt (s.latch.srcAt (8 * k + j)) else 0

/-- Ciphertext block `k` of a framed ciphertext in the source range (R184, R187). -/
def cipherBlock (s : State) (k : Nat) : Block :=
  Block.ofFn fun j => s.byteAt (s.latch.srcAt (8 * k + j))

/-- The block transform of the call: one key schedule for every block (R16, R193). -/
def transform (s : State) (dir : CipherDir) (b : Block) : Block :=
  blk dir (ksetup s.cfg.primitive s.latch.key) b

/-- The trailer of a framed ciphertext, its last byte (R17, R188). -/
def trailer (s : State) : Nat := (s.byteAt (s.latch.srcAt (s.latch.srclen.toNat - 1))).toNat

/-! ### After a command -/

/-- Nothing that belongs to the host or to the platform has changed: parameters, CTRL, the CMD read value, the
operand registers, the reset input and the host's bookkeeping. -/
structure HostSideSame (s t : State) : Prop where
  cfg : t.cfg = s.cfg
  ie : t.ie = s.ie
  cmd : t.cmd = s.cmd
  srcAddr : t.srcAddr = s.srcAddr
  srcLen : t.srcLen = s.srcLen
  dstAddr : t.dstAddr = s.dstAddr
  dstCap : t.dstCap = s.dstCap
  keyLen : t.keyLen = s.keyLen
  key0 : t.key0 = s.key0
  key1 : t.key1 = s.key1
  heapAddr : t.heapAddr = s.heapAddr
  heapLen : t.heapLen = s.heapLen
  resetActive : t.resetActive = s.resetActive
  inputs : t.inputs = s.inputs
  response : t.response = s.response
  unseen : t.unseen = s.unseen
  owner : t.owner = s.owner
  hostDirty : t.hostDirty = s.hostDirty
  dmaDirty : t.dmaDirty = s.dmaDirty

/-- Completion with a code and a result length: the flags and result registers of R121 but for PATH, H1 and
H2, the key schedule cleared and the engine Idle. -/
structure CompletedWith (code : ErrCode) (n : Nat) (t : State) : Prop where
  errcode : t.errcode = code
  resLen : t.resLen.toNat = n
  err : t.err = (code != .ok)
  done : t.done = true
  idle : t.engine = .idle
  schedule : t.ks = none

/-- H1 and H2 keep their values (R38). -/
def HashRegsSame (s t : State) : Prop := t.h1 = s.h1 ∧ t.h2 = s.h2

/-- Every byte of host memory reads as before, but for those of a range. -/
def MemorySameOutside (r : Range) (s t : State) : Prop :=
  ∀ a, r.contains a = false → t.byteAt a = s.byteAt a

/-- Every byte of host memory reads as before, but for those of two ranges. -/
def MemorySameOutsideTwo (r q : Range) (s t : State) : Prop :=
  ∀ a, r.contains a = false → q.contains a = false → t.byteAt a = s.byteAt a

/-- The range holds these bytes. -/
def Holds (t : State) (a : Nat) (bytes : List Byte) : Prop := bytesFrom t a bytes.length = bytes

/-- The used heap region of a hex command with output length `n`, empty on the scratch path (R18, R160). -/
def usedHeap (s : State) (n : Nat) : Range :=
  heapRegionUsed s.cfg s.latch n

/-- Command `i` may write the byte: in its destination range or its used heap region, and not in its source range
(R71, R130). -/
def WritableBy (i : Instr) (s : State) (a : Nat) : Prop :=
  s.latch.source.contains a = false ∧
    (s.latch.dest.contains a = true ∨
      ∃ n, hexOutputLength s.latch i = some n ∧ (usedHeap s n).contains a = true)

/-- The byte may have been written by a non-coherent DMA since the host's last maintenance (R80, log 15). -/
def Unmaintained (s : State) (a : Nat) : Prop := ∃ f ∈ s.dmaDirty, f.races a = true

/-- Each byte of the used heap region is a free value, but for the bytes of the source and the destination range and
those outside the DMA space (R120, log 21). -/
def HeapFree (s : State) (n : Nat) (t : State) : Prop :=
  ∀ a, (usedHeap s n).contains a = true → s.latch.source.contains a = false → s.latch.dest.contains a = false →
    a < 2 ^ 32 → ∃ k, t.byteAt a = Config.freeByte k

/-- The result bytes of a hex command (R165, R168). -/
def hexOutput (i : Instr) (s : State) : List Byte :=
  match i with
  | .hashkey => []
  | .hexEnc => hexText (sourceBytes s)
  | .hexDec => spelled (sourceBytes s)
  | .desEnc => []
  | .desDec => []

/-- A hex command with output length `n` gets its buffer (R161). -/
def AllocOk (s : State) (n : Nat) : Prop :=
  s.cfg.scratchCap < n →
    n ≤ s.latch.heaplen.toNat ∧ (s.latch.heapRegion n).valid = true ∧
      (s.latch.heapRegion n).overlaps s.latch.source = false ∧
      (s.latch.heapRegion n).overlaps s.latch.dest = false

/-- A hex command with output length `n` gets its buffer, and the platform refuses none of its accesses to it. -/
def BufferOk (s : State) (n : Nat) : Prop :=
  AllocOk s n ∧ (s.cfg.scratchCap < n →
    Allows s (s.latch.heapRegion n) .write ∧ Allows s (s.latch.heapRegion n) .read)

/-! ### Errors -/

/-- The first code of a list of checks whose condition holds; `ok` if none does (R205). -/
def firstError : List (Bool × ErrCode) → ErrCode
  | [] => .ok
  | (c, e) :: rest => if c then e else firstError rest

/-- The checks of every command, in order (R205, first row; the opcode check is passed). -/
def commonChecks (L : Latched) : List (Bool × ErrCode) :=
  [(!(L.source.valid && L.dest.valid), .range), (L.source.overlaps L.dest, .overlap)]

/-- The allocation checks of the hex commands, in order (R161, R205). -/
def allocChecks (s : State) (n : Nat) : List (Bool × ErrCode) :=
  let heapPath := decide (s.cfg.scratchCap < n)
  [(heapPath && decide (s.latch.heaplen.toNat < n), .alloc),
   (heapPath && !(s.latch.heapRegion n).valid, .range),
   (heapPath && ((s.latch.heapRegion n).overlaps s.latch.source ||
      (s.latch.heapRegion n).overlaps s.latch.dest), .overlap)]

/-- The checks of each command's body, in order (R205). -/
def bodyChecks (i : Instr) (s : State) : List (Bool × ErrCode) :=
  let L := s.latch
  let n := L.srclen.toNat
  match i with
  | .hashkey => [(decide (L.dstcap.toNat < 8), .dstcap)]
  | .hexEnc => (decide (L.dstcap.toNat < 2 * n), .dstcap) :: allocChecks s (2 * n)
  | .hexDec =>
    [(decide (n % 2 ≠ 0), .input), (decide (L.dstcap.toNat < n / 2), .dstcap)] ++
      allocChecks s (n / 2) ++ [((sourceBytes s).any fun x => !isHex x, .input)]
  | .desEnc =>
    [(decide (L.keylen.toNat < 8), .key), (decide (L.dstcap.toNat < 8 * ((n + 7) / 8) + 1), .dstcap)]
  | .desDec =>
    [(decide (L.keylen.toNat < 8), .key), (decide (n = 0 ∨ (n - 1) % 8 ≠ 0), .malformed),
     (decide (n - 1 < trailer s), .malformed),
     (s.cfg.trailerStrict && decide (8 ≤ trailer s), .malformed),
     (decide (L.dstcap.toNat < n - 1 - trailer s), .dstcap)]

/-- The order in which each command's checks are made on a platform that refuses no access (R205). -/
def checksInOrder (i : Instr) (s : State) : List (Bool × ErrCode) :=
  commonChecks s.latch ++ bodyChecks i s

/-! ### The invariant -/

/-- What holds between any two steps. -/
structure Inv (s : State) : Prop where
  /-- host memory is in its canonical form -/
  memory : Memory.wf s.mem = true
  /-- no key schedule outlives its command (R43, R193) -/
  schedule : s.ks = none
  /-- SCRATCH holds nothing between commands that a later one could read (R45) -/
  scratch : s.scratch = []
  /-- from accept to completion the flags and result registers hold what accept set (R112, R244) -/
  inFlight : s.engine = .busy →
    s.done = false ∧ s.err = false ∧ s.path = false ∧ s.errcode = .ok ∧ s.resLen = 0 ∧ s.pathsel = false
  /-- a CMD read returns the word in flight (R30, R40) -/
  inFlightWord : s.engine = .busy → s.latch.w = s.cmd
  /-- no command in flight breaks the range hazard (R240) -/
  inFlightRanges : s.engine = .busy → hazardRange s.cfg s.latch = false
  /-- the host owes its duty to the ranges of the command in flight (R241) -/
  inFlightDuty : s.engine = .busy → footprint s.latch ∈ s.unseen
  /-- ERR shows only with an error code (R27, R202) -/
  errCoded : s.err = true → s.errcode ≠ .ok
  /-- a failed command has no result length (R34, R202) -/
  failedEmpty : s.errcode ≠ .ok → s.resLen = 0
  /-- PATH shows only after a hex command (R28) -/
  pathOfHex : s.path = true → s.cmd = encode .hexEnc ∨ s.cmd = encode .hexDec
  /-- during reset the engine is Idle and `irq` is deasserted (R230) -/
  resetQuiet : s.resetActive = true → s.engine = .idle ∧ s.irq = false
  /-- on a coherent platform there is nothing to maintain (R80) -/
  coherent : s.cfg.dmaCoherent = true → s.hostDirty = [] ∧ s.dmaDirty = []

end Sys2Proof.Safety
end

