-- ==== Sys2Proof/Certificates/Slice0/Obligations.lean ====
section
/-! DEFINITION. The statements about the LXF framer block. Each docstring names the rules of spec/ it
formalises; a clause that rests on a choice of the model names the log entry. -/

open Sys2Proof Sys2Proof.Machine Sys2Proof.Safety

/-! ### Encoding -/

/-- R90, R92: the five words and no others are commands; decoding and encoding agree on every word. -/
def Obligations.DecodeIsInverseOfEncode : Prop :=
  ∀ (w : Word) (i : Instr), decode w = .ok i ↔ w = encode i

/-- R92, R93: every other word is rejected, by the field that is wrong. -/
def Obligations.IllegalWordsAreRejectedByName : Prop :=
  ∀ w : Word,
    (legalWord w = true ↔ ∃ i, decode w = .ok i) ∧
    (rsv w ≠ 0 → decode w = .error .reservedBits) ∧
    (rsv w = 0 → (opc w = 0 ∨ 6 ≤ (opc w).toNat) → decode w = .error .reservedOpcode)

/-- R92: the words written out from the table's "match" column, and illegal neighbours (R94, V54). -/
def Obligations.TableWordsDecode : Prop :=
  decodeTableWord 32 0x00000001 = some .hashkey ∧ decodeTableWord 32 0x00000002 = some .hexEnc ∧
  decodeTableWord 32 0x00000003 = some .hexDec ∧ decodeTableWord 32 0x00000004 = some .desEnc ∧
  decodeTableWord 32 0x00000005 = some .desDec ∧ decodeTableWord 32 0x00000000 = none ∧
  decodeTableWord 32 0x00000006 = none ∧ decodeTableWord 32 0x00000104 = none

/-! ### The step -/

/-- R114: when the engine is Busy and its turn comes, the step is the meaning of the latched command. The turn
comes when no input is left or the next input gives it (log 6); a word placed by `withFetchWord` is run by the
very next step (log 7). -/
def Obligations.StepRunsDecodedCommand : Prop :=
  ∀ (s : State) (i : Instr),
    (s.resetActive = false → s.engine = .busy → decode s.fetchWord = .ok i →
      (s.inputs = [] → step s = exec i s) ∧
      (∀ rest, s.inputs = .engine :: rest → step s = exec i { s with inputs := rest })) ∧
    (∀ w, decodeTableWord 32 w = some i →
      step (s.withFetchWord 32 w) = exec i (s.withFetchWord 32 w))

/-- R115: an illegal word completes with E_OPCODE, makes no DMA access and changes no memory, whichever way the
engine's turn comes (log 6). -/
def Obligations.IllegalWordCompletesWithOpcodeError : Prop :=
  ∀ (s : State) (rest : List Input), s.resetActive = false → s.engine = .busy →
    (s.inputs = [] ∧ rest = []) ∨ s.inputs = .engine :: rest →
    (s.latch.w.extractLsb' 8 24 ≠ 0 ∨
      s.latch.w.extractLsb' 0 8 ∉ [0x01#8, 0x02#8, 0x03#8, 0x04#8, 0x05#8]) →
    ∃ t, step s = .next t ∧ CompletedWith .opcode 0 t ∧ t.mem = s.mem ∧ HashRegsSame s t ∧
      t.path = s.pathsel ∧ HostSideSame { s with inputs := rest } t

/-- R122: a Busy engine completes; while the host only polls registers, at the latest once its reads are over. -/
def Obligations.PollingHostSeesCompletion : Prop :=
  ∀ s : State, s.resetActive = false → s.engine = .busy →
    (∀ x ∈ s.inputs, ∃ agent o, x = .read agent 4 o ∧ o.toNat % 4 = 0) →
    ∃ t, core.run (s.inputs.length + 1) s = .next t ∧ t.engine = .idle ∧ t.done = true ∧ t.inputs = []

/-- R9: the implementation parameters are fixed for the machine. -/
def Obligations.StepKeepsConfiguration : Prop :=
  ∀ s t : State, step s = .next t → t.cfg = s.cfg

/-! ### Reset -/

/-- R49: the values right after reset, and nothing happens until a host writes CMD. -/
def Obligations.ResetStateValues : Prop :=
  let s := State.reset
  s.ctrlWord = 0 ∧ s.statusWord = 0 ∧ s.cmd = 0 ∧ s.errcodeWord = 0 ∧
  s.srcAddr = 0 ∧ s.srcLen = 0 ∧ s.dstAddr = 0 ∧ s.dstCap = 0 ∧ s.resLen = 0 ∧
  s.keyLen = 0 ∧ s.key0 = 0 ∧ s.key1 = 0 ∧ s.heapAddr = 0 ∧ s.heapLen = 0 ∧ s.h1 = 0 ∧ s.h2 = 0 ∧
  regRead .caps s = BitVec.ofNat 32 s.cfg.scratchCap ∧ s.cfg.scratchCap = 256 ∧
  s.engine = .idle ∧ s.ks = none ∧ s.pathsel = false ∧ s.irq = false ∧ step s = .next s

/-- R230: whatever the state, the reset input gives every register its reset value, and so does its release. -/
def Obligations.ResetInputRestoresRegisters : Prop :=
  ∀ (s : State) (rest : List Input) (level : Bool),
    (s.inputs = .resetAssert :: rest ∧ level = true) ∨
      (s.inputs = .resetRelease :: rest ∧ s.resetActive = true ∧ level = false) →
    ∃ t, step s = .next t ∧ t.resetActive = level ∧ t.inputs = rest ∧ t.cfg = s.cfg ∧
      (∀ o : BitVec 8, o.toNat % 4 = 0 → o ≠ 0x40 → regRead (Reg.ofOffset o) t = 0) ∧
      regRead (Reg.ofOffset 0x40) t = BitVec.ofNat 32 s.cfg.scratchCap ∧
      t.engine = .idle ∧ t.ks = none ∧ t.pathsel = false ∧ t.irq = false

/-- R231: reset stops the command in flight; only its destination range and heap window may change, and the source
range does not. -/
def Obligations.ResetAbortsCommand : Prop :=
  ∀ (s : State) (rest : List Input), s.engine = .busy → s.inputs = .resetAssert :: rest →
    ∃ t, step s = .next t ∧ t.engine = .idle ∧ t.done = false ∧ t.errcode = .ok ∧ t.resLen = 0 ∧
      t.ks = none ∧
      (∀ a, s.latch.source.contains a = true → t.byteAt a = s.byteAt a) ∧
      (∀ a, s.latch.dest.contains a = false → s.latch.heapWindow.contains a = false →
        t.byteAt a = s.byteAt a) ∧
      (∀ a, t.byteAt a = s.byteAt a ∨ ∃ k, t.byteAt a = Config.freeByte k)

/-- R232: while reset is active the register port answers no access and the engine makes none. -/
def Obligations.NoAccessDuringReset : Prop :=
  ∀ s : State, s.resetActive = true →
    (∀ agent size o v, hostWrite agent size o v s = .fault .stuckInReset) ∧
    (∀ size o, hostRead size o s = .fault .stuckInReset) ∧ engineTurn s = .next s

/-! ### The register port -/

/-- R60: another width or another alignment is refused. -/
def Obligations.PortRefusesOtherAccesses : Prop :=
  ∀ (s : State) (agent size : Nat) (o : BitVec 8) (v : Word), s.resetActive = false →
    (size ≠ 4 ∨ o.toNat % 4 ≠ 0) →
    hostWrite agent size o v s = .refused (.portAccess o.toNat size) ∧
    hostRead size o s = .refused (.portAccess o.toNat size)

/-- R123: what a 32-bit aligned write does at each offset, for an agent that no other agent shuts out. A write
to an operand register also opens the agent's command sequence (log 14). -/
def Obligations.RegisterWriteEffects : Prop :=
  ∀ (s : State) (agent : Nat) (v : Word), s.resetActive = false → ownedByOther agent s = false →
    let w := fun o => hostWrite agent 4 o v s
    let op := fun t : State => (Host.Outcome.next { t with owner := some agent, response := .ack } :
      Host.Outcome State Fault Refusal)
    w 0x00 = .next { s with ie := v.getLsbD 0, response := .ack } ∧
    w 0x04 = .next { s with done := s.done && !v.getLsbD 1, err := s.err && !v.getLsbD 2
                            response := .ack } ∧
    (s.engine = .busy → w 0x08 = .next { s with response := .ack }) ∧
    (s.engine = .idle → hazardRange s.cfg (s.capture v) = false →
      hazardCoherence s (s.capture v) = false → w 0x08 = op (acceptCommand v s)) ∧
    w 0x10 = op { s with srcAddr := v } ∧ w 0x14 = op { s with srcLen := v } ∧
    w 0x18 = op { s with dstAddr := v } ∧ w 0x1C = op { s with dstCap := v } ∧
    w 0x24 = op { s with keyLen := v } ∧ w 0x28 = op { s with key0 := v } ∧
    w 0x2C = op { s with key1 := v } ∧ w 0x30 = op { s with heapAddr := v } ∧
    w 0x34 = op { s with heapLen := v } ∧
    (∀ o : BitVec 8, o ∈ [0x0C#8, 0x20#8, 0x38#8, 0x3C#8, 0x40#8] ∨ (o.toNat % 4 = 0 ∧ 0x44 ≤ o.toNat) →
      w o = .next { s with response := .ack })

/-- R124: what a 32-bit aligned read returns at each offset; it changes nothing of the block. A STATUS read
that shows DONE = 1 ends the host's duty to the ranges (R241). -/
def Obligations.RegisterReadValues : Prop :=
  ∀ s : State, s.resetActive = false →
    let reads := fun (o : BitVec 8) (v : Word) =>
      hostRead 4 o s = .next { s with unseen := if o = 0x04 ∧ s.done = true then [] else s.unseen
                                      response := .data v }
    let bit := fun b : Bool => (if b then 1 else 0 : Nat)
    reads 0x00 (BitVec.ofNat 32 (bit s.ie)) ∧
    reads 0x04 (BitVec.ofNat 32 (8 * bit s.path + 4 * bit s.err + 2 * bit s.done +
      bit (s.engine == .busy))) ∧
    reads 0x08 s.cmd ∧ reads 0x0C (s.errcode.number.setWidth 32) ∧
    reads 0x10 s.srcAddr ∧ reads 0x14 s.srcLen ∧ reads 0x18 s.dstAddr ∧ reads 0x1C s.dstCap ∧
    reads 0x20 s.resLen ∧ reads 0x24 s.keyLen ∧ reads 0x28 s.key0 ∧ reads 0x2C s.key1 ∧
    reads 0x30 s.heapAddr ∧ reads 0x34 s.heapLen ∧ reads 0x38 s.h1 ∧ reads 0x3C s.h2 ∧
    reads 0x40 (BitVec.ofNat 32 s.cfg.scratchCap) ∧
    (∀ o : BitVec 8, o.toNat % 4 = 0 → 0x44 ≤ o.toNat → reads o 0)

/-- R29: the bits of a STATUS read; bits 31:4 read zero and ignore writes. -/
def Obligations.StatusWordIsTheFlags : Prop :=
  ∀ s : State,
    s.statusWord.getLsbD 0 = (s.engine == .busy) ∧ s.statusWord.getLsbD 1 = s.done ∧
    s.statusWord.getLsbD 2 = s.err ∧ s.statusWord.getLsbD 3 = s.path ∧
    (∀ k, 4 ≤ k → s.statusWord.getLsbD k = false) ∧
    (∀ v : Word, regWrite .status v s = regWrite .status (v &&& 0xF) s)

/-- R63: a read of a RW register returns the value of the last write to it. -/
def Obligations.RegistersReadBackTheLastWrite : Prop :=
  ∀ (s t : State) (agent : Nat) (o : BitVec 8) (v : Word),
    o ∈ [0x10#8, 0x14#8, 0x18#8, 0x1C#8, 0x24#8, 0x28#8, 0x2C#8, 0x30#8, 0x34#8] →
    hostWrite agent 4 o v s = .next t →
    ∃ u, hostRead 4 o t = .next u ∧ u.response = .data v

/-- R26, R27: who sets and who clears DONE and ERR, and the W1C write. -/
def Obligations.DoneAndErrAreWriteOneToClear : Prop :=
  State.reset.done = false ∧ State.reset.err = false ∧
  (∀ (w : Word) (s t : State), s.engine = .idle → cmdWrite w s = .next t →
    t.done = false ∧ t.err = false) ∧
  (∀ (s t : State), s.engine = .busy → s.resetActive = false → engineTurn s = .next t →
    t.done = true ∧ (t.err = true ↔ t.errcode ≠ .ok)) ∧
  (∀ (v : Word) (s : State), ∃ t, regWrite .status v s = .next t ∧
    t.done = (if v.getLsbD 1 then false else s.done) ∧
    t.err = (if v.getLsbD 2 then false else s.err) ∧
    t.engine = s.engine ∧ t.path = s.path ∧ t.errcode = s.errcode)

/-- R215: the level of the interrupt output after each action that moves it. -/
def Obligations.InterruptIsEnableAndDone : Prop :=
  State.reset.irq = false ∧
  (∀ s : State, (hostSeeIrq s).response = .irq (s.ie && s.done)) ∧
  (∀ (v : Word) (s : State), ∃ t, regWrite .ctrl v s = .next t ∧ t.irq = (v.getLsbD 0 && s.done)) ∧
  (∀ (v : Word) (s : State), ∃ t, regWrite .status v s = .next t ∧
    t.irq = (s.irq && !v.getLsbD 1)) ∧
  (∀ (w : Word) (s t : State), s.engine = .idle → cmdWrite w s = .next t → t.irq = false) ∧
  (∀ (s t : State), s.engine = .busy → s.resetActive = false → engineTurn s = .next t →
    t.irq = s.ie)

/-- R112: accept latches every operand register, clears the flags and result registers, and changes nothing
else of the block. -/
def Obligations.AcceptLatchesOperands : Prop :=
  ∀ (s : State) (w : Word), s.engine = .idle → hazardRange s.cfg (s.capture w) = false →
    hazardCoherence s (s.capture w) = false →
    ∃ t, cmdWrite w s = .next t ∧
      t.cmd = w ∧ t.latch.w = w ∧ t.latch.src = s.srcAddr ∧ t.latch.srclen = s.srcLen ∧
      t.latch.dst = s.dstAddr ∧ t.latch.dstcap = s.dstCap ∧ t.latch.keylen = s.keyLen ∧
      t.latch.heap = s.heapAddr ∧ t.latch.heaplen = s.heapLen ∧
      (∀ j, j < 4 → t.latch.key.get j = s.key0.extractLsb' (8 * j) 8 ∧
        t.latch.key.get (4 + j) = s.key1.extractLsb' (8 * j) 8) ∧
      t.engine = .busy ∧ t.done = false ∧ t.err = false ∧ t.path = false ∧ t.errcode = .ok ∧
      t.resLen = 0 ∧ t.pathsel = false ∧
      t.srcAddr = s.srcAddr ∧ t.srcLen = s.srcLen ∧ t.dstAddr = s.dstAddr ∧ t.dstCap = s.dstCap ∧
      t.keyLen = s.keyLen ∧ t.key0 = s.key0 ∧ t.key1 = s.key1 ∧ t.heapAddr = s.heapAddr ∧
      t.heapLen = s.heapLen ∧ t.ie = s.ie ∧ t.h1 = s.h1 ∧ t.h2 = s.h2 ∧ t.acc1 = s.acc1 ∧
      t.acc2 = s.acc2 ∧ t.ks = s.ks ∧ t.blkbuf = s.blkbuf ∧ t.scratch = s.scratch ∧ t.mem = s.mem ∧
      t.cfg = s.cfg

/-- R113: a CMD write while Busy changes nothing; the port acknowledges it as any write. -/
def Obligations.BusyCommandWriteIsIgnored : Prop :=
  ∀ (s : State) (w : Word), s.engine = .busy →
    regWrite .cmd w s = .next s ∧
    ∀ agent, s.resetActive = false → ownedByOther agent s = false →
      hostWrite agent 4 0x08 w s = .next { s with response := .ack }

/-! ### Hazards -/

/-- R240: a command whose source or destination range, or whose heap window on the heap path, overlaps the
register window or is not plain memory, faults at accept. Which locations are not plain memory is the platform's
(log 16). -/
def Obligations.RangeHazardFaultsAtAccept : Prop :=
  ∀ (s : State) (agent : Nat) (i : Instr) (r : Range), s.resetActive = false →
    s.engine = .idle → ownedByOther agent s = false → OperandRange i s r →
    (r.overlaps ⟨s.cfg.base, 0x100⟩ = true ∨ ∃ d ∈ s.cfg.devices, r.overlaps d = true) →
    hostWrite agent 4 0x08 (encode i) s = .fault .hazardRange

/-- R241: from accept until the host has observed DONE = 1, a host store into the command's ranges faults, a load
of the destination range or heap window returns a draw, and a load of the source range returns the source byte (in the
last clause with one command unobserved and coherent DMA). An illegal word owns its source and destination range, and
the heap window is a hex command's (C8; log 11). The duty ends when any agent reads a STATUS that shows DONE = 1 or
sees `irq` asserted, and at reset, and only then (log 12, log 24). -/
def Obligations.InFlightMemoryHazard : Prop :=
  (∀ (s t : State) (w : Word), s.engine = .idle → cmdWrite w s = .next t →
    (⟨t.latch.source, t.latch.dest,
      if w = encode .hexEnc ∨ w = encode .hexDec then t.latch.heapWindow else ⟨0, 0⟩⟩ : Footprint) ∈ t.unseen) ∧
  (∀ s t : State, engineTurn s = .next t → t.unseen = s.unseen) ∧
  (∀ (s t : State) (o : BitVec 8), hostRead 4 o s = .next t →
    t.unseen = if o = 0x04 ∧ s.done = true then [] else s.unseen) ∧
  (∀ s : State, (hostSeeIrq s).unseen = if s.irq then [] else s.unseen) ∧
  (∀ s : State, (resetAssert s).unseen = [] ∧ (resetRelease s).unseen = if s.resetActive then [] else s.unseen) ∧
  (∀ (s t : State) (f : Footprint), step s = .next t → f ∈ s.unseen → f ∉ t.unseen →
    (∃ agent, s.inputs.head? = some (.read agent 4 0x04) ∧ s.done = true) ∨
    (∃ agent, s.inputs.head? = some (.seeIrq agent) ∧ s.irq = true) ∨
    s.inputs.head? = some .resetAssert ∨ (s.inputs.head? = some .resetRelease ∧ s.resetActive = true)) ∧
  (∀ (s : State) (a : Nat) (v : Byte) (f : Footprint), outsideMemory a s = none → f ∈ s.unseen →
    (f.src.contains a = true ∨ f.dst.contains a = true ∨ f.heap.contains a = true →
      hostStore a v s = .fault .hazardMemWrite) ∧
    (f.src.contains a = false → f.dst.contains a = true ∨ f.heap.contains a = true →
      hostLoad a s = .next { s with response := .byte (Config.freeByte s.draws)
                                    draws := s.draws + 1 })) ∧
  (∀ (s : State) (a : Nat) (f : Footprint), outsideMemory a s = none → s.unseen = [f] →
    s.cfg.dmaCoherent = true → f.src.contains a = true →
      hostLoad a s = .next { s with response := .byte (s.byteAt a) })

/-- R243, with the sequences tracked as log 14 says: an agent that writes an operand register, CMD or STATUS while
another agent's sequence is open faults; a write of CTRL never does. -/
def Obligations.SharedUseFaults : Prop :=
  ∀ (s : State) (a b : Nat) (o : BitVec 8) (v : Word), s.resetActive = false →
    s.owner = some a → b ≠ a →
    (o ∈ [0x04#8, 0x08#8, 0x10#8, 0x14#8, 0x18#8, 0x1C#8, 0x24#8, 0x28#8, 0x2C#8, 0x30#8, 0x34#8] →
      hostWrite b 4 o v s = .fault .hazardShared) ∧
    (∃ t, hostWrite b 4 0x00 v s = .next t)

/-- R80, R128, with the duty tracked as log 15 says. Without coherent DMA: a host store is recorded; a command one of
whose ranges holds a byte the host stored and has not made visible faults at accept, and the host's maintenance
discharges that duty; accept of a command records exactly the bytes it may write, of an illegal word none (R115), and
completion changes no record; the host's maintenance leaves exactly the bytes a command still in flight may write; and a
load, where it is no race (log 13), faults at a recorded byte and answers any other. Which agent does the maintenance does
not matter (log 26). -/
def Obligations.CoherenceDutyFaultsAtAccept : Prop :=
  (∀ (s t : State) (a : Nat) (v : Byte), s.cfg.dmaCoherent = false → outsideMemory a s = none →
    hostStore a v s = .next t → a ∈ t.hostDirty) ∧
  (∀ (s : State) (i : Instr) (r : Range) (a : Nat), s.engine = .idle → s.cfg.dmaCoherent = false →
    hazardRange s.cfg (s.capture (encode i)) = false → a ∈ s.hostDirty → OperandRange i s r → r.contains a = true →
    cmdWrite (encode i) s = .fault .hazardCoherence ∧
    ∃ t, cmdWrite (encode i) (hostMaintain s) = .next t) ∧
  (∀ (s t : State) (w : Word) (a : Nat), s.engine = .idle → s.cfg.dmaCoherent = false → cmdWrite w s = .next t →
    (Unmaintained t a ↔ Unmaintained s a ∨ ∃ i, w = encode i ∧ WritableBy i t a)) ∧
  (∀ s t : State, engineTurn s = .next t → t.dmaDirty = s.dmaDirty ∧ t.hostDirty = s.hostDirty) ∧
  (∀ (s : State) (a : Nat), s.cfg.dmaCoherent = false →
    (hostMaintain s).hostDirty = [] ∧
    (Unmaintained (hostMaintain s) a ↔ s.engine = .busy ∧ ∃ i, s.latch.w = encode i ∧ WritableBy i s a)) ∧
  (∀ (s : State) (a : Nat), s.cfg.dmaCoherent = false → outsideMemory a s = none →
    (∀ f ∈ s.unseen, f.races a = false) →
    (Unmaintained s a → hostLoad a s = .fault .hazardCoherence) ∧
    (¬ Unmaintained s a → hostLoad a s = .next { s with response := .byte (s.byteAt a) }))

/-- R67: host memory is plain memory: at an address no unobserved command owns, a load returns the byte last stored,
and a store leaves every other byte alone. -/
def Obligations.HostMemoryHoldsLastStore : Prop :=
  ∀ (s : State) (a : Nat) (v : Byte), outsideMemory a s = none → (∀ f ∈ s.unseen, f.owns a = false) →
    s.cfg.dmaCoherent = true →
    ∃ t u, hostStore a v s = .next t ∧ hostLoad a t = .next u ∧ u.response = .byte v ∧
      (∀ b, b ≠ a → t.byteAt b = s.byteAt b) ∧ u.mem = t.mem

/-! ### HASHKEY -/

/-- R151: the accumulator step in exact arithmetic. -/
def Obligations.FingerprintStepFormula : Prop :=
  ∀ (h1 h2 : Word) (c : Byte),
    (fpStep (h1, h2) c).1.toNat = (h1.toNat + h1.toNat * 2 ^ 5 % 2 ^ 32 + c.toNat) % 2 ^ 32 ∧
    (fpStep (h1, h2) c).2.toNat =
      h2.toNat ^^^ ((h2.toNat * 2 ^ 5 % 2 ^ 32 + c.toNat + h2.toNat / 2 ^ 2) % 2 ^ 32)

/-- R153: `h1' = (33 * h1 + c) mod 2^32`. -/
def Obligations.FirstAccumulatorTimes33 : Prop :=
  ∀ (h1 h2 : Word) (c : Byte),
    (fpStep (h1, h2) c).1.toNat = (33 * h1.toNat + c.toNat) % 2 ^ 32

/-- R150, R152: where HASHKEY completes, what it writes, and its frame. -/
def Obligations.HashkeyWritesFingerprint : Prop :=
  ∀ s : State, Loaded .hashkey s → RangesOk s.latch → 8 ≤ s.latch.dstcap.toNat →
    Allows s s.latch.source .read → Allows s ⟨s.latch.dst.toNat, 8⟩ .write →
    ∃ t, exec .hashkey s = .next t ∧ CompletedWith .ok 8 t ∧ t.path = s.pathsel ∧
      t.h1 = (fingerprint (sourceBytes s)).1 ∧ t.h2 = (fingerprint (sourceBytes s)).2 ∧
      Holds t s.latch.dst.toNat (fingerprintBytes (sourceBytes s)) ∧
      MemorySameOutside ⟨s.latch.dst.toNat, 8⟩ s t ∧ HostSideSame s t

/-- R154: the fingerprint depends on the source bytes alone. -/
def Obligations.FingerprintDependsOnTextOnly : Prop :=
  ∀ s s' t t' : State, Loaded .hashkey s → Loaded .hashkey s' → sourceBytes s = sourceBytes s' →
    exec .hashkey s = .next t → exec .hashkey s' = .next t' → t.errcode = .ok → t'.errcode = .ok →
    t.h1 = t'.h1 ∧ t.h2 = t'.h2 ∧
    bytesFrom t s.latch.dst.toNat 8 = bytesFrom t' s'.latch.dst.toNat 8

/-- R155: H1 and H2 written to KEY0 and KEY1 make the fingerprint bytes the key bytes. -/
def Obligations.FingerprintIsAKey : Prop :=
  ∀ (text : List Byte) (j : Nat), j < 8 →
    (keyBytes (fingerprint text).1 (fingerprint text).2).get j = (fingerprintBytes text).getD j 0

/-- R203: a refused destination write ends HASHKEY with E_BUS and leaves exactly the writes before it; a refused
source read leaves memory alone. -/
def Obligations.HashkeyBusErrorKeepsEarlierWrites : Prop :=
  ∀ s : State, RangesOk s.latch → 8 ≤ s.latch.dstcap.toNat →
    (∀ k, k < 8 → Allows s s.latch.source .read → Allows s ⟨s.latch.dst.toNat, k⟩ .write →
      s.refuses (s.latch.dst.toNat + k) .write = true →
      ∃ t, exec .hashkey s = .next t ∧ CompletedWith .bus 0 t ∧ HashRegsSame s t ∧
        Holds t s.latch.dst.toNat ((fingerprintBytes (sourceBytes s)).take k) ∧
        MemorySameOutside ⟨s.latch.dst.toNat, k⟩ s t) ∧
    (∀ a, s.latch.source.contains a = true → s.refuses a .read = true →
      ∃ t, exec .hashkey s = .next t ∧ CompletedWith .bus 0 t ∧ HashRegsSame s t ∧ t.mem = s.mem)

/-! ### HEX_ENC and HEX_DEC -/

/-- R164: the digits, which bytes are digits, their values, and the round trip of one byte; uppercase is
rejected. -/
def Obligations.HexDigitsSpellTheByte : Prop :=
  (∀ d : BitVec 4, (hexDigit d).toNat = [0x30, 0x31, 0x32, 0x33, 0x34, 0x35, 0x36, 0x37, 0x38, 0x39, 0x61,
    0x62, 0x63, 0x64, 0x65, 0x66].getD d.toNat 0) ∧
  (∀ x : Byte, (0x30 ≤ x.toNat → x.toNat ≤ 0x39 → (nibble x).toNat = x.toNat - 0x30) ∧
    (0x61 ≤ x.toNat → x.toNat ≤ 0x66 → (nibble x).toNat = x.toNat - 0x61 + 10)) ∧
  ∀ c : Byte,
    isHex (hexDigit (highNibble c)) = true ∧ isHex (hexDigit (lowNibble c)) = true ∧
    pairByte (hexDigit (highNibble c)) (hexDigit (lowNibble c)) = c ∧
    (isHex c = true ↔ (0x30 ≤ c.toNat ∧ c.toNat ≤ 0x39) ∨ (0x61 ≤ c.toNat ∧ c.toNat ≤ 0x66)) ∧
    (0x41 ≤ c.toNat → c.toNat ≤ 0x46 → isHex c = false)

/-- R165: where HEX_ENC completes on either path, what it writes, and its frame. On the heap path each byte of the used
heap region is a free value afterwards (R120). -/
def Obligations.HexEncWritesText : Prop :=
  ∀ s : State, let n := 2 * s.latch.srclen.toNat
    Loaded .hexEnc s → RangesOk s.latch → n ≤ s.latch.dstcap.toNat → BufferOk s n →
    Allows s s.latch.source .read → Allows s ⟨s.latch.dst.toNat, n⟩ .write →
    ∃ t, exec .hexEnc s = .next t ∧ CompletedWith .ok n t ∧
      t.path = decide (s.cfg.scratchCap < n) ∧ HashRegsSame s t ∧
      Holds t s.latch.dst.toNat (hexText (sourceBytes s)) ∧
      MemorySameOutsideTwo ⟨s.latch.dst.toNat, n⟩ (usedHeap s n) s t ∧ HeapFree s n t ∧ HostSideSame s t

/-- R166: after success the length is twice the source length and every output byte is a lowercase digit. -/
def Obligations.HexEncOutputLaws : Prop :=
  ∀ s t : State, Loaded .hexEnc s → exec .hexEnc s = .next t → t.errcode = .ok →
    t.resLen.toNat = 2 * s.latch.srclen.toNat ∧
    ∀ x ∈ bytesFrom t s.latch.dst.toNat t.resLen.toNat,
      isHex x = true ∧ ¬ (0x41 ≤ x.toNat ∧ x.toNat ≤ 0x5A)

/-- R168: where HEX_DEC completes on either path, what it writes, and its frame. On the heap path each byte of the used
heap region is a free value afterwards (R120). -/
def Obligations.HexDecWritesBytes : Prop :=
  ∀ s : State, let n := s.latch.srclen.toNat / 2
    Loaded .hexDec s → RangesOk s.latch → s.latch.srclen.toNat % 2 = 0 → AllHex (sourceBytes s) →
    n ≤ s.latch.dstcap.toNat → BufferOk s n →
    Allows s s.latch.source .read → Allows s ⟨s.latch.dst.toNat, n⟩ .write →
    ∃ t, exec .hexDec s = .next t ∧ CompletedWith .ok n t ∧
      t.path = decide (s.cfg.scratchCap < n) ∧ HashRegsSame s t ∧
      Holds t s.latch.dst.toNat (spelled (sourceBytes s)) ∧
      MemorySameOutsideTwo ⟨s.latch.dst.toNat, n⟩ (usedHeap s n) s t ∧ HeapFree s n t ∧ HostSideSame s t

/-- R161: on the heap path a heap window that is too short fails with E_ALLOC, a used heap region that leaves the DMA
space with E_RANGE, and one that overlaps the source or the destination range with E_OVERLAP, each with PATH = 1
(V18, V19). H1 and H2 keep their values (R207). By R120 the used heap region then holds free values, but for the bytes
it shares with the source or the destination range, which R71 and R119 keep: that reading is the model's (log 21). -/
def Obligations.ShortHeapWindowFailsWithAlloc : Prop :=
  ∀ (s : State) (i : Instr) (n : Nat), hexOutputLength s.latch i = some n → RangesOk s.latch →
    n ≤ s.latch.dstcap.toNat → s.cfg.scratchCap < n →
    let failsWith := fun e : ErrCode => ∃ t, exec i s = .next t ∧ CompletedWith e 0 t ∧ t.path = true ∧
      HashRegsSame s t ∧ HostSideSame s t ∧ HeapFree s n t ∧
      ∀ a, s.latch.source.contains a = true ∨ s.latch.dest.contains a = true ∨ (usedHeap s n).contains a = false →
        t.byteAt a = s.byteAt a
    (s.latch.heaplen.toNat < n → failsWith .alloc) ∧
    (n ≤ s.latch.heaplen.toNat → 2 ^ 32 < s.latch.heap.toNat + n → failsWith .range) ∧
    (n ≤ s.latch.heaplen.toNat → s.latch.heap.toNat + n ≤ 2 ^ 32 →
      (s.latch.heapRegion n).overlaps s.latch.source = true ∨
        (s.latch.heapRegion n).overlaps s.latch.dest = true → failsWith .overlap)

/-- R163: the path changes no result: the same command under two sizes of the scratch region. -/
def Obligations.PathChangesNoResult : Prop :=
  ∀ (s : State) (cap : Nat) (i : Instr) (t t' : State), usesHeapWindow i = true → Loaded i s →
    exec i s = .next t → exec i { s with cfg := { s.cfg with scratchCap := cap } } = .next t' →
    t.errcode = .ok → t'.errcode = .ok →
    t.resLen = t'.resLen ∧ t.h1 = t'.h1 ∧ t.h2 = t'.h2 ∧
    ∀ a, s.latch.dest.contains a = true → t.byteAt a = t'.byteAt a

/-- R169: HEX_DEC of what HEX_ENC wrote gives the bytes back. -/
def Obligations.HexRoundTrip : Prop :=
  ∀ s t u : State, let n := s.latch.srclen.toNat
    Loaded .hexEnc s → exec .hexEnc s = .next t → t.errcode = .ok →
    Loaded .hexDec u → u.latch.src = s.latch.dst → u.latch.srclen = t.resLen →
    (∀ a, u.latch.source.contains a = true → u.byteAt a = t.byteAt a) →
    RangesOk u.latch → n ≤ u.latch.dstcap.toNat → BufferOk u n →
    Allows u u.latch.source .read → Allows u ⟨u.latch.dst.toNat, n⟩ .write →
    ∃ v, exec .hexDec u = .next v ∧ CompletedWith .ok n v ∧
      Holds v u.latch.dst.toNat (sourceBytes s)

/-! ### DES_ENC and DES_DEC -/

/-- R180, item 2: deciphering undoes enciphering, for the default DES and for every external unit. -/
def Obligations.CipherInverseLaw : Prop :=
  ∀ (p : Primitive) (k b : Block), blk .dec (ksetup p k) (blk .enc (ksetup p k) b) = b

/-- R182 to R185: where DES_ENC completes, what it writes, and its frame. -/
def Obligations.DesEncWritesFramedCiphertext : Prop :=
  ∀ s : State, let n := s.latch.srclen.toNat
    let nb := (n + 7) / 8
    Loaded .desEnc s → RangesOk s.latch → 8 ≤ s.latch.keylen.toNat →
    8 * nb + 1 ≤ s.latch.dstcap.toNat →
    Allows s s.latch.source .read → Allows s ⟨s.latch.dst.toNat, 8 * nb + 1⟩ .write →
    ∃ t, exec .desEnc s = .next t ∧ CompletedWith .ok (8 * nb + 1) t ∧ t.path = s.pathsel ∧
      HashRegsSame s t ∧
      (∀ k j, k < nb → j < 8 →
        t.byteAt (s.latch.dst.toNat + 8 * k + j) = (transform s .enc (plainBlock s k)).get j) ∧
      (t.byteAt (s.latch.dst.toNat + 8 * nb)).toNat = (8 - n % 8) % 8 ∧
      MemorySameOutside ⟨s.latch.dst.toNat, 8 * nb + 1⟩ s t ∧ HostSideSame s t

/-- R186: the output laws of DES_ENC. -/
def Obligations.DesEncOutputLaws : Prop :=
  ∀ s t : State, Loaded .desEnc s → exec .desEnc s = .next t → t.errcode = .ok →
    let n := t.resLen.toNat
    let tr := (t.byteAt (s.latch.dst.toNat + (n - 1))).toNat
    n = 8 * ((s.latch.srclen.toNat + 7) / 8) + 1 ∧ (n - 1) % 8 = 0 ∧ tr ≤ 7 ∧
    tr ≤ n - 1 ∧ n - 1 - tr = s.latch.srclen.toNat

/-- R187 to R190: where DES_DEC completes, what it writes, and its frame. -/
def Obligations.DesDecWritesPlaintext : Prop :=
  ∀ s : State, let body := s.latch.srclen.toNat - 1
    let n := body - trailer s
    Loaded .desDec s → RangesOk s.latch → 8 ≤ s.latch.keylen.toNat →
    s.latch.srclen.toNat % 8 = 1 → trailer s ≤ body →
    (s.cfg.trailerStrict = true → trailer s < 8) → n ≤ s.latch.dstcap.toNat →
    Allows s s.latch.source .read → Allows s ⟨s.latch.dst.toNat, n⟩ .write →
    ∃ t, exec .desDec s = .next t ∧ CompletedWith .ok n t ∧ t.path = s.pathsel ∧
      HashRegsSame s t ∧
      (∀ m, m < n → t.byteAt (s.latch.dst.toNat + m) =
        (transform s .dec (cipherBlock s (m / 8))).get (m % 8)) ∧
      MemorySameOutside ⟨s.latch.dst.toNat, n⟩ s t ∧ HostSideSame s t

/-- R191: DES_DEC of what DES_ENC wrote under the same key gives the plaintext back, for both values of
TRAILER_STRICT and for every primitive. -/
def Obligations.DesRoundTrip : Prop :=
  ∀ s t u : State, let n := s.latch.srclen.toNat
    Loaded .desEnc s → exec .desEnc s = .next t → t.errcode = .ok →
    Loaded .desDec u → u.latch.key = s.latch.key → u.cfg.primitive = s.cfg.primitive →
    8 ≤ u.latch.keylen.toNat → u.latch.src = s.latch.dst → u.latch.srclen = t.resLen →
    (∀ a, u.latch.source.contains a = true → u.byteAt a = t.byteAt a) →
    RangesOk u.latch → n ≤ u.latch.dstcap.toNat →
    Allows u u.latch.source .read → Allows u ⟨u.latch.dst.toNat, n⟩ .write →
    ∃ v, exec .desDec u = .next v ∧ CompletedWith .ok n v ∧
      Holds v u.latch.dst.toNat (sourceBytes s)

/-! ### All commands -/

/-- R205: on a platform that refuses no access, each command reports the first error of its order. -/
def Obligations.ErrorsFollowPriority : Prop :=
  ∀ (i : Instr) (s : State), s.cfg.refused = [] →
    ∃ t, exec i s = .next t ∧ t.errcode = firstError (checksInOrder i s)

/-- R200: the number each completion code reads as. -/
def Obligations.ErrorCodeNumbers : Prop :=
  ∀ (e : ErrCode) (s : State), s.errcode = e →
    (regRead .errcode s).toNat = match e with
      | .ok => 0
      | .opcode => 1
      | .range => 2
      | .overlap => 3
      | .key => 4
      | .input => 5
      | .malformed => 6
      | .dstcap => 7
      | .alloc => 8
      | .bus => 9

/-- R202, R207: what a command that fails records. -/
def Obligations.FailureRecords : Prop :=
  ∀ (i : Instr) (s t : State), exec i s = .next t → t.errcode ≠ .ok →
    t.err = true ∧ t.done = true ∧ t.resLen = 0 ∧ t.engine = .idle ∧ t.ks = none ∧ HashRegsSame s t

/-- R119: a command that fails with any code but E_BUS has left its destination range as it was. -/
def Obligations.NoPartialResults : Prop :=
  ∀ (i : Instr) (s t : State), exec i s = .next t → t.errcode ≠ .ok → t.errcode ≠ .bus →
    ∀ a, s.latch.dest.contains a = true → t.byteAt a = s.byteAt a

/-- R71: the block never writes a byte of a command's source range. -/
def Obligations.SourceRangeIsNeverWritten : Prop :=
  ∀ s t : State, engineTurn s = .next t →
    ∀ a, s.latch.source.contains a = true → t.byteAt a = s.byteAt a

/-- R130: a command changes memory only in its destination range and, on the heap path, in its used heap
region. -/
def Obligations.CommandWritesOnlyItsRanges : Prop :=
  ∀ (i : Instr) (s t : State), exec i s = .next t →
    ∀ a, s.latch.dest.contains a = false →
      (∀ n, hexOutputLength s.latch i = some n → (usedHeap s n).contains a = false) →
      t.byteAt a = s.byteAt a

/-- R121, R38, R193: the frame of every command, however it ends. -/
def Obligations.CommandFrame : Prop :=
  ∀ (i : Instr) (s t : State), exec i s = .next t →
    HostSideSame s t ∧ t.engine = .idle ∧ t.done = true ∧ t.ks = none ∧ t.path = t.pathsel ∧
    (Loaded i s → i ≠ .hashkey → HashRegsSame s t) ∧
    (usesHeapWindow i = false → t.path = s.pathsel)

/-- R95: each command reads its own fields of L and no others. -/
def Obligations.UnreadOperandsDoNotMatter : Prop :=
  ∀ (s : State) (kl h hl : Word) (k : Block),
    exec .hashkey { s with latch := { s.latch with keylen := kl, key := k, heap := h, heaplen := hl } } =
      exec .hashkey s ∧
    exec .hexEnc { s with latch := { s.latch with keylen := kl, key := k } } = exec .hexEnc s ∧
    exec .hexDec { s with latch := { s.latch with keylen := kl, key := k } } = exec .hexDec s ∧
    exec .desEnc { s with latch := { s.latch with heap := h, heaplen := hl } } = exec .desEnc s ∧
    exec .desDec { s with latch := { s.latch with heap := h, heaplen := hl } } = exec .desDec s

/-- R42 to R45, R193, U13: what the hidden registers held before a command matters to nothing. -/
def Obligations.HiddenRegistersAreSetBeforeUse : Prop :=
  ∀ (i : Instr) (s : State) (a1 a2 : Word) (k : Option Sched) (b : Block) (m : List Host.Cell),
    Loaded i s →
    exec i { s with acc1 := a1, acc2 := a2, ks := k, blkbuf := b, scratch := m } = exec i s

/-! ### The whole machine -/

/-- The invariant holds right after reset. -/
def Obligations.InvariantHoldsAtReset : Prop := Inv State.reset

/-- The invariant of `Safety.Inv` (R27, R28, R30, R34, R43, R45, R47, R80, R112, R230, R240, R241) is kept by every
step from every state that has it. -/
def Obligations.StepKeepsInvariant : Prop :=
  ∀ s t : State, Inv s → step s = .next t → Inv t

/-- R48, R38, R226: only the completion of a command raises DONE, and only accept, a W1C write of its bit, and reset
lower it; ERR changes only by accept, completion, a W1C write of its bit, and reset; PATH, ERRCODE and RES_LEN only by
accept, completion and reset; the CMD read value only by accept and reset; H1 and H2 only by a successful HASHKEY and
reset. -/
def Obligations.OnlyCompletionRaisesDone : Prop :=
  ∀ s t : State, step s = .next t →
    let accepted := ∃ agent w, s.inputs.head? = some (.write agent 4 0x08 w) ∧ s.engine = .idle ∧ t.engine = .busy
    let completed := s.engine = .busy ∧ t.engine = .idle ∧ t.done = true
    let cleared := fun k => ∃ agent v, s.inputs.head? = some (.write agent 4 0x04 v) ∧ v.getLsbD k = true
    let reset := s.inputs.head? = some .resetAssert ∨ (s.inputs.head? = some .resetRelease ∧ s.resetActive = true)
    (s.done = false → t.done = true → s.engine = .busy ∧ t.engine = .idle) ∧
    (s.done = true → t.done = false → accepted ∨ cleared 1 ∨ reset) ∧
    (t.err ≠ s.err → accepted ∨ completed ∨ (t.err = false ∧ cleared 2) ∨ reset) ∧
    (t.path ≠ s.path ∨ t.errcode ≠ s.errcode ∨ t.resLen ≠ s.resLen → accepted ∨ completed ∨ reset) ∧
    (t.cmd ≠ s.cmd → accepted ∨ reset) ∧
    (t.h1 ≠ s.h1 ∨ t.h2 ≠ s.h2 →
      (completed ∧ opc s.latch.w = 0x01 ∧ t.errcode = .ok) ∨ reset)

/-- R67, R71, R110: a byte of host memory changes only by the host's own store to it, or by the engine or its
abort in the destination range or heap window of the command in flight. -/
def Obligations.MemoryChangesOnlyByStoreOrCommand : Prop :=
  ∀ (s t : State) (a : Nat), step s = .next t → t.byteAt a ≠ s.byteAt a →
    (∃ agent v w, s.inputs.head? = some (.store agent w v) ∧ w.toNat = a) ∨
    (s.engine = .busy ∧
      (s.latch.dest.contains a = true ∨ s.latch.heapWindow.contains a = true))

/-! ### Refused accesses and accesses that are none to host memory -/

/-- R203: a refused access ends HEX_ENC or HEX_DEC with E_BUS. With the buffer allocated: one refused before the
copy-out (a source read, a heap write) leaves the destination range as it was; one refused in the copy of byte `k` leaves
exactly the first `k` result bytes. HEX_DEC gets to an access only past the digits before it (R168, R205). On the heap
path the used heap region holds free values afterwards (R120). -/
def Obligations.HexBusErrorKeepsEarlierWrites : Prop :=
  ∀ (s : State) (i : Instr) (n : Nat), hexOutputLength s.latch i = some n → RangesOk s.latch →
    n ≤ s.latch.dstcap.toNat → AllocOk s n →
    let digits := fun m => i = .hexDec → AllHex ((sourceBytes s).take m)
    let stands := fun k => ∃ t, exec i s = .next t ∧ CompletedWith .bus 0 t ∧
      t.path = decide (s.cfg.scratchCap < n) ∧ HashRegsSame s t ∧
      Holds t s.latch.dst.toNat ((hexOutput i s).take k) ∧
      MemorySameOutsideTwo ⟨s.latch.dst.toNat, k⟩ (usedHeap s n) s t ∧ HeapFree s n t ∧ HostSideSame s t
    (∀ j, j < s.latch.srclen.toNat → s.refuses (s.latch.srcAt j) .read = true → digits (2 * (j / 2)) → stands 0) ∧
    (∀ k, k < n → s.cfg.scratchCap < n → s.refuses (s.latch.heapAt k) .write = true → digits (2 * k + 2) →
      stands 0) ∧
    (∀ k, k < n → digits s.latch.srclen.toNat → Allows s s.latch.source .read → WritesAllowed s k →
      (s.cfg.scratchCap < n → Allows s (s.latch.heapRegion n) .write ∧
        ∀ j, j < k → s.refuses (s.latch.heapAt j) .read = false) →
      (s.cfg.scratchCap < n ∧ s.refuses (s.latch.heapAt k) .read = true) ∨
        s.refuses (s.latch.dstAt k) .write = true → stands k)

/-- R203: a refused access ends DES_ENC with E_BUS, and exactly the writes before it stand: those of the blocks before
the one whose read is refused, or the result bytes before the refused one. -/
def Obligations.DesEncBusErrorKeepsEarlierWrites : Prop :=
  ∀ s : State, let n := s.latch.srclen.toNat
    let nb := (n + 7) / 8
    RangesOk s.latch → 8 ≤ s.latch.keylen.toNat → 8 * nb + 1 ≤ s.latch.dstcap.toNat →
    let stands := fun k => ∃ t, exec .desEnc s = .next t ∧ CompletedWith .bus 0 t ∧ t.path = s.pathsel ∧
      HashRegsSame s t ∧
      (∀ m, m < k → t.byteAt (s.latch.dst.toNat + m) = (transform s .enc (plainBlock s (m / 8))).get (m % 8)) ∧
      MemorySameOutside ⟨s.latch.dst.toNat, k⟩ s t ∧ HostSideSame s t
    (∀ i, i < n → ReadsAllowed s i → s.refuses (s.latch.srcAt i) .read = true → WritesAllowed s (8 * (i / 8)) →
      stands (8 * (i / 8))) ∧
    (∀ m, m < 8 * nb + 1 → WritesAllowed s m → s.refuses (s.latch.dstAt m) .write = true →
      ReadsAllowed s (min n (8 * (m / 8) + 8)) → stands m)

/-- R203: a refused access ends DES_DEC with E_BUS, and exactly the writes before it stand: none where the read of the
trailer is refused; those of the blocks before the one whose read is refused; or the plaintext bytes before the refused
one. -/
def Obligations.DesDecBusErrorKeepsEarlierWrites : Prop :=
  ∀ s : State, let body := s.latch.srclen.toNat - 1
    let n := body - trailer s
    RangesOk s.latch → 8 ≤ s.latch.keylen.toNat → s.latch.srclen.toNat % 8 = 1 →
    let stands := fun k => ∃ t, exec .desDec s = .next t ∧ CompletedWith .bus 0 t ∧ t.path = s.pathsel ∧
      HashRegsSame s t ∧
      (∀ m, m < k → t.byteAt (s.latch.dst.toNat + m) = (transform s .dec (cipherBlock s (m / 8))).get (m % 8)) ∧
      MemorySameOutside ⟨s.latch.dst.toNat, k⟩ s t ∧ HostSideSame s t
    (s.refuses (s.latch.srcAt body) .read = true → stands 0) ∧
    (s.refuses (s.latch.srcAt body) .read = false → trailer s ≤ body →
      (s.cfg.trailerStrict = true → trailer s < 8) → n ≤ s.latch.dstcap.toNat →
      (∀ i, i < body → ReadsAllowed s i → s.refuses (s.latch.srcAt i) .read = true →
        WritesAllowed s (min n (8 * (i / 8))) → stands (min n (8 * (i / 8)))) ∧
      (∀ m, m < n → WritesAllowed s m → s.refuses (s.latch.dstAt m) .write = true →
        ReadsAllowed s (min body (8 * (m / 8) + 8)) → stands m))

/-- R60, R22: a host access of one byte in the register window is a register-port access that is not 32 bits wide: it is
refused, and during reset it is not answered (R232; log 9, log 10). One at a device outside the window has no meaning in
this model (log 16). -/
def Obligations.OutsideMemoryAccesses : Prop :=
  ∀ (s : State) (a : Nat) (v : Byte),
    (s.cfg.base ≤ a → a < s.cfg.base + 0x100 →
      (s.resetActive = true →
        hostStore a v s = .fault .stuckInReset ∧ hostLoad a s = .fault .stuckInReset) ∧
      (s.resetActive = false →
        hostStore a v s = .refused (.portAccess (a - s.cfg.base) 1) ∧
        hostLoad a s = .refused (.portAccess (a - s.cfg.base) 1))) ∧
    (∀ d ∈ s.cfg.devices, d.contains a = true → a < s.cfg.base ∨ s.cfg.base + 0x100 ≤ a →
      hostStore a v s = .refused (.deviceAccess a) ∧ hostLoad a s = .refused (.deviceAccess a))
end

