-- ==== Sys2Proof/Laws/Memory.lean ====
section
/-! SUPPORT. The laws of the sparse stores and of host memory: a read after a write or a draw, other addresses
left alone, and the canonical form kept by both. -/

namespace Sys2Proof.Laws

open Sys2Proof Sys2Proof.Machine

variable {β : Type}

/-! ### Sparse stores -/

@[simp] theorem lookupCell_nil (a : Nat) : lookupCell ([] : List (Nat × β)) a = none := rfl

theorem lookupCell_cons (b : Nat) (v : β) (m : List (Nat × β)) (a : Nat) :
    lookupCell ((b, v) :: m) a = if b = a then some v else lookupCell m a := rfl

@[simp] theorem lookupCell_eraseCell_same (m : List (Nat × β)) (a : Nat) :
    lookupCell (eraseCell m a) a = none := by
  induction m with
  | nil => rfl
  | cons c m ih =>
    obtain ⟨b, v⟩ := c
    by_cases h : b = a
    · simpa [eraseCell, h] using ih
    · simpa [eraseCell, h, lookupCell_cons] using ih

theorem lookupCell_eraseCell_other (m : List (Nat × β)) {a b : Nat} (h : b ≠ a) :
    lookupCell (eraseCell m a) b = lookupCell m b := by
  induction m with
  | nil => rfl
  | cons c m ih =>
    obtain ⟨x, v⟩ := c
    by_cases hx : x = a
    · have hxb : x ≠ b := fun e => h (e ▸ hx)
      simpa [eraseCell, hx, lookupCell_cons, (hx ▸ hxb : a ≠ b)] using ih
    · have ih' : lookupCell (List.filter (fun c => c.1 != a) m) b = lookupCell m b := ih
      simp [eraseCell, hx, lookupCell_cons, ih']

theorem lookupCell_insertCell_same {m : List (Nat × β)} {a : Nat} (v : β)
    (h : lookupCell m a = none) : lookupCell (insertCell a v m) a = some v := by
  induction m with
  | nil => simp [insertCell, lookupCell_cons]
  | cons c m ih =>
    obtain ⟨b, u⟩ := c
    rw [lookupCell_cons] at h
    by_cases hb : b = a
    · simp [hb] at h
    · rw [if_neg hb] at h
      by_cases hl : a < b
      · simp [insertCell, hl, lookupCell_cons]
      · simp [insertCell, hl, lookupCell_cons, hb, ih h]

theorem lookupCell_insertCell_other (m : List (Nat × β)) {a b : Nat} (v : β) (h : b ≠ a) :
    lookupCell (insertCell a v m) b = lookupCell m b := by
  induction m with
  | nil => simp [insertCell, lookupCell_cons, h.symm]
  | cons c m ih =>
    obtain ⟨x, u⟩ := c
    by_cases hl : a < x
    · simp [insertCell, hl, lookupCell_cons, h.symm]
    · simp [insertCell, hl, lookupCell_cons, ih]

theorem mem_eraseCell {m : List (Nat × β)} {a : Nat} {c : Nat × β} :
    c ∈ eraseCell m a ↔ c ∈ m ∧ c.1 ≠ a := by simp [eraseCell]

theorem eraseCell_sorted {m : List (Nat × β)} (a : Nat)
    (h : m.Pairwise fun c d => c.1 < d.1) : (eraseCell m a).Pairwise fun c d => c.1 < d.1 :=
  h.sublist List.filter_sublist

theorem mem_insertCell {m : List (Nat × β)} {a : Nat} {v : β} {c : Nat × β} :
    c ∈ insertCell a v m ↔ c = (a, v) ∨ c ∈ m := by
  induction m with
  | nil => simp [insertCell]
  | cons x m ih =>
    obtain ⟨b, u⟩ := x
    by_cases hl : a < b
    · simp [insertCell, hl]
    · simp only [insertCell, hl, if_false, List.mem_cons, ih]
      tauto

theorem insertCell_sorted {m : List (Nat × β)} {a : Nat} (v : β)
    (h : m.Pairwise fun c d => c.1 < d.1) (hn : ∀ c ∈ m, c.1 ≠ a) :
    (insertCell a v m).Pairwise fun c d => c.1 < d.1 := by
  induction m with
  | nil => simp [insertCell]
  | cons x m ih =>
    obtain ⟨b, u⟩ := x
    rw [List.pairwise_cons] at h
    have hba : b ≠ a := hn (b, u) (by simp)
    by_cases hl : a < b
    · simp only [insertCell, hl, if_true, List.pairwise_cons]
      refine ⟨fun c hc => ?_, h.1, h.2⟩
      rcases List.mem_cons.1 hc with rfl | hc
      · exact hl
      · exact lt_trans hl (h.1 c hc)
    · simp only [insertCell, hl, if_false, List.pairwise_cons]
      refine ⟨fun c hc => ?_, ih h.2 fun c hc => hn c (by simp [hc])⟩
      rcases mem_insertCell.1 hc with rfl | hc
      · show b < a; omega
      · exact h.1 c hc

/-- Putting an entry in the place of the one at its address keeps the order. -/
theorem replaceCell_sorted {m : List (Nat × β)} (a : Nat) (v : β)
    (h : m.Pairwise fun c d => c.1 < d.1) :
    (insertCell a v (eraseCell m a)).Pairwise fun c d => c.1 < d.1 :=
  insertCell_sorted v (eraseCell_sorted a h) fun _ hc => (mem_eraseCell.1 hc).2

/-! ### Host memory -/

theorem read_write (m : Memory) (a b : Nat) (v : Byte) :
    (m.write a v).read b = if b = a then v else m.read b := by
  by_cases h : b = a
  · subst h
    by_cases hv : v = Config.unwrittenByte
    · simp [Memory.read, Memory.write, hv]
    · simp [Memory.read, Memory.write, hv, lookupCell_insertCell_same]
  · by_cases hv : v = Config.unwrittenByte
    · simp [Memory.read, Memory.write, hv, h, lookupCell_eraseCell_other _ h]
    · simp [Memory.read, Memory.write, hv, h, lookupCell_eraseCell_other _ h,
        lookupCell_insertCell_other _ v h]

theorem read_draw (m : Memory) (a b k : Nat) :
    (m.draw a k).read b = if b = a then Config.freeByte k else m.read b := by
  by_cases h : b = a
  · subst h
    simp [Memory.read, Memory.draw, lookupCell_insertCell_same]
  · simp [Memory.read, Memory.draw, h, lookupCell_eraseCell_other _ h, lookupCell_insertCell_other _ k h]

/-! ### The canonical form -/

theorem wf_iff (m : Memory) :
    m.wf = true ↔ (m.cells.Pairwise fun c d => c.1 < d.1) ∧ (m.draws.Pairwise fun c d => c.1 < d.1) ∧
      (∀ c ∈ m.cells, c.1 < 2 ^ 32 ∧ c.2 ≠ Config.unwrittenByte ∧ lookupCell m.draws c.1 = none) ∧
      ∀ c ∈ m.draws, c.1 < 2 ^ 32 := by
  simp [Memory.wf, and_assoc]

/-- Every write inside the DMA space keeps the canonical form. -/
theorem wf_write {m : Memory} {a : Nat} (v : Byte) (h : m.wf = true) (ha : a < 2 ^ 32) :
    (m.write a v).wf = true := by
  rw [wf_iff] at h ⊢
  obtain ⟨h1, h2, h3, h4⟩ := h
  have kept : ∀ c ∈ eraseCell m.cells a, c.1 < 2 ^ 32 ∧ c.2 ≠ Config.unwrittenByte ∧
      lookupCell (eraseCell m.draws a) c.1 = none := fun c hc => by
    obtain ⟨hm, hne⟩ := mem_eraseCell.1 hc
    have := h3 c hm
    exact ⟨this.1, this.2.1, by rw [lookupCell_eraseCell_other _ hne]; exact this.2.2⟩
  refine ⟨?_, eraseCell_sorted a h2, fun c hc => ?_, fun c hc => h4 c (mem_eraseCell.1 hc).1⟩
  · by_cases hv : v = Config.unwrittenByte
    · simpa only [Memory.write, hv, if_true] using eraseCell_sorted a h1
    · simpa only [Memory.write, hv, if_false] using replaceCell_sorted a v h1
  · by_cases hv : v = Config.unwrittenByte
    · simp only [Memory.write, hv, if_true] at hc
      exact kept c hc
    · simp only [Memory.write, hv, if_false] at hc
      rcases mem_insertCell.1 hc with rfl | hc
      · exact ⟨ha, hv, lookupCell_eraseCell_same _ _⟩
      · exact kept c hc

/-- Every draw inside the DMA space keeps the canonical form. -/
theorem wf_draw {m : Memory} {a : Nat} (k : Nat) (h : m.wf = true) (ha : a < 2 ^ 32) :
    (m.draw a k).wf = true := by
  rw [wf_iff] at h ⊢
  obtain ⟨h1, h2, h3, h4⟩ := h
  refine ⟨eraseCell_sorted a h1, replaceCell_sorted a k h2, fun c hc => ?_, fun c hc => ?_⟩
  · obtain ⟨hm, hne⟩ := mem_eraseCell.1 hc
    have := h3 c hm
    refine ⟨this.1, this.2.1, ?_⟩
    show lookupCell (insertCell a k (eraseCell m.draws a)) c.1 = none
    rw [lookupCell_insertCell_other _ k hne, lookupCell_eraseCell_other _ hne]
    exact this.2.2
  · rcases mem_insertCell.1 hc with rfl | hc
    · exact ha
    · exact h4 c (mem_eraseCell.1 hc).1

@[simp] theorem wf_empty : Memory.wf ⟨[], []⟩ = true := by decide

/-! ### The state's memory -/

theorem byteAt_putByte (s : State) (a b : Nat) (v : Byte) :
    (s.putByte a v).byteAt b = if b = a then v else s.byteAt b := read_write s.mem a b v

@[simp] theorem byteAt_putByte_same (s : State) (a : Nat) (v : Byte) :
    (s.putByte a v).byteAt a = v := by rw [byteAt_putByte, if_pos rfl]

theorem byteAt_putByte_other (s : State) {a b : Nat} (v : Byte) (h : b ≠ a) :
    (s.putByte a v).byteAt b = s.byteAt b := by rw [byteAt_putByte, if_neg h]

theorem byteAt_drawByte (s : State) (a b : Nat) :
    (drawByte a s).byteAt b = if b = a then Config.freeByte s.draws else s.byteAt b :=
  read_draw s.mem a b s.draws

theorem byteAt_drawByte_other (s : State) {a b : Nat} (h : b ≠ a) :
    (drawByte a s).byteAt b = s.byteAt b := by rw [byteAt_drawByte, if_neg h]

end Sys2Proof.Laws
end

