-- ==== Sys2Proof/Laws/Commands.lean ====
section
/-! SUPPORT. The laws of the engine's commands: what must hold before a command so that a property holds
however it ends (`wp`), one rule per operation, and the rule of the loop. Later proofs cite these and do
not unfold the operations. -/

namespace Sys2Proof.Laws

open Sys2Proof Sys2Proof.Machine

/-- `Q` holds of the result and state if the command returns from `s`, `E` of the code and state if it
raises. -/
def wp {α : Type} (c : Cmd α) (Q : α → State → Prop) (E : ErrCode → State → Prop) (s : State) : Prop :=
  match c s with
  | .ok a t => Q a t
  | .error e t => E e t

variable {α β : Type} {Q : α → State → Prop} {E : ErrCode → State → Prop} {s : State}

@[simp] theorem wp_pure (a : α) : wp (pure a : Cmd α) Q E s ↔ Q a s := Iff.rfl

@[simp] theorem wp_get {Q : State → State → Prop} : wp (get : Cmd State) Q E s ↔ Q s s := Iff.rfl

@[simp] theorem wp_bind (x : Cmd β) (f : β → Cmd α) :
    wp (x >>= f) Q E s ↔ wp x (fun b t => wp (f b) Q E t) E s := by
  show (match (EStateM.bind x f) s with | .ok a t => Q a t | .error e t => E e t) ↔ _
  unfold EStateM.bind wp
  cases x s <;> exact Iff.rfl

@[simp] theorem wp_map (x : Cmd β) (f : β → α) :
    wp (f <$> x) Q E s ↔ wp x (fun b t => Q (f b) t) E s := by
  show (match (EStateM.map f x s) with | .ok a t => Q a t | .error e t => E e t) ↔ _
  unfold EStateM.map wp
  cases x s <;> exact Iff.rfl

@[simp] theorem wp_raiseWhen {Q : Unit → State → Prop} (c : Bool) (e : ErrCode) :
    wp (raiseWhen c e) Q E s ↔ (c = true → E e s) ∧ (c = false → Q () s) := by
  cases c <;> simp [wp, raiseWhen]

@[simp] theorem wp_dmaRead {Q : Byte → State → Prop} (a : Nat) :
    wp (dmaRead a) Q E s ↔
      (s.refuses a .read = true → E .bus s) ∧ (s.refuses a .read = false → Q (s.byteAt a) s) := by
  cases h : s.refuses a .read <;> simp [wp, dmaRead, h]

@[simp] theorem wp_dmaWrite {Q : Unit → State → Prop} (a : Nat) (v : Byte) :
    wp (dmaWrite a v) Q E s ↔
      (s.refuses a .write = true → E .bus s) ∧ (s.refuses a .write = false → Q () (s.putByte a v)) := by
  cases h : s.refuses a .write <;> simp [wp, dmaWrite, h]

@[simp] theorem wp_loadSeeds {Q : Unit → State → Prop} :
    wp loadSeeds Q E s ↔ Q () { s with acc1 := h1Seed, acc2 := h2Seed } := Iff.rfl

@[simp] theorem wp_absorbByte {Q : Unit → State → Prop} (c : Byte) :
    wp (absorbByte c) Q E s ↔
      Q () { s with acc1 := (fpStep (s.acc1, s.acc2) c).1, acc2 := (fpStep (s.acc1, s.acc2) c).2 } :=
  Iff.rfl

@[simp] theorem wp_setPathsel {Q : Unit → State → Prop} (b : Bool) :
    wp (setPathsel b) Q E s ↔ Q () { s with pathsel := b } := Iff.rfl

@[simp] theorem wp_scratchWrite {Q : Unit → State → Prop} (k : Nat) (v : Byte) :
    wp (scratchWrite k v) Q E s ↔
      Q () { s with scratch := insertCell k v (eraseCell s.scratch k) } := Iff.rfl

@[simp] theorem wp_scratchRead {Q : Byte → State → Prop} (k : Nat) :
    wp (scratchRead k) Q E s ↔
      Q ((lookupCell s.scratch k).getD (Config.freeScratch (s.draws + k))) s := Iff.rfl

@[simp] theorem wp_setupKey {Q : Unit → State → Prop} (L : Latched) :
    wp (setupKey L) Q E s ↔ Q () { s with ks := some (ksetup s.cfg.primitive L.key) } := Iff.rfl

@[simp] theorem wp_setBlkbuf {Q : Unit → State → Prop} (j : Nat) (v : Byte) :
    wp (setBlkbuf j v) Q E s ↔ Q () { s with blkbuf := s.blkbuf.set j v } := Iff.rfl

theorem wp_transformBlkbuf {Q : Unit → State → Prop} (dir : CipherDir) {ks : Sched}
    (h : s.ks = some ks) :
    wp (transformBlkbuf dir) Q E s ↔ Q () { s with blkbuf := blk dir ks s.blkbuf } := by
  simp [wp, transformBlkbuf, h]

@[simp] theorem wp_withBuffer {Q : Unit → State → Prop} (L : Latched) (n : Nat) (work : Backing → Cmd Unit) :
    wp (withBuffer L n work) Q E s ↔
      wp (alloc L n >>= work)
        (fun _ t => Q () (releaseBuffer L (decide (s.cfg.scratchCap < n)) n t))
        (fun e t => E e (releaseBuffer L (decide (s.cfg.scratchCap < n)) n t)) s := by
  unfold wp withBuffer
  cases (alloc L n >>= work) s <;> simp only

theorem wp_mono {Q' : α → State → Prop} {E' : ErrCode → State → Prop} {c : Cmd α}
    (h : wp c Q E s) (hq : ∀ a t, Q a t → Q' a t) (he : ∀ e t, E e t → E' e t) :
    wp c Q' E' s := by
  unfold wp at *
  cases hc : c s <;> simp only [hc] at h ⊢
  · exact hq _ _ h
  · exact he _ _ h

/-- The rule of the loop: an invariant of the index that every turn keeps holds at the end, and the codes
raised are those the turns raise. -/
theorem wp_loop {Q : Unit → State → Prop} {body : Nat → Cmd Unit} (I : Nat → State → Prop)
    {i n : Nat} (h0 : I i s)
    (hstep : ∀ j t, i ≤ j → j < i + n → I j t → wp (body j) (fun _ u => I (j + 1) u) E t)
    (hpost : ∀ t, I (i + n) t → Q () t) : wp (loop body i n) Q E s := by
  induction n generalizing i s with
  | zero => simpa [loop] using hpost s h0
  | succ n ih =>
    rw [loop, wp_bind]
    refine wp_mono (hstep i s le_rfl (by omega) h0) (fun _ t ht => ?_) (fun _ _ h => h)
    exact ih ht (fun j u hj hj' => hstep j u (by omega) (by omega))
      (fun u hu => hpost u (by rwa [show i + (n + 1) = i + 1 + n by omega]))

/-- Every property that `runCommand` is to have follows from the two ends of the common sequence. -/
theorem runCommand_of_wp {P : State → Prop} {body : Latched → Cmd Nat}
    (h : wp (do checkRanges s.latch; checkOverlap s.latch; body s.latch : Cmd Nat)
      (fun n t => P (complete .ok n t)) (fun e t => P (complete e 0 t)) s) :
    P (runCommand body s) := by
  unfold wp at h
  show P (match (do checkRanges s.latch; checkOverlap s.latch; body s.latch : Cmd Nat) s with
    | .ok n t => complete .ok n t
    | .error e t => complete e 0 t)
  cases hc : (do checkRanges s.latch; checkOverlap s.latch; body s.latch : Cmd Nat) s <;>
    simpa only [hc] using h

/-- A command that passes the checks of R116 and R117 runs its body. -/
theorem runCommand_of_body {P : State → Prop} {body : Latched → Cmd Nat}
    (hr : s.latch.source.valid = true ∧ s.latch.dest.valid = true)
    (ho : s.latch.source.overlaps s.latch.dest = false)
    (h : wp (body s.latch) (fun n t => P (complete .ok n t)) (fun e t => P (complete e 0 t)) s) :
    P (runCommand body s) := by
  apply runCommand_of_wp
  simp [checkRanges, checkOverlap, hr.1, hr.2, ho, h]

/-! ### What no command touches -/

/-- Everything of the state but what a running command may write: the hidden registers, PATHSEL, host memory
and the draws. -/
def SameOutside (s t : State) : Prop :=
  t = { s with
        acc1 := t.acc1, acc2 := t.acc2, ks := t.ks, blkbuf := t.blkbuf, scratch := t.scratch
        pathsel := t.pathsel, mem := t.mem, draws := t.draws }

theorem SameOutside.refl (s : State) : SameOutside s s := rfl

theorem SameOutside.trans {s t u : State} (h : SameOutside s t) (h' : SameOutside t u) :
    SameOutside s u := by
  unfold SameOutside at *
  rw [h', h]

/-- The codes and the states a command can end in all satisfy a relation to the state it starts in. -/
def Keeps (R : State → State → Prop) (c : Cmd α) : Prop :=
  ∀ s, wp c (fun _ t => R s t) (fun _ t => R s t) s

section keeps

variable {R : State → State → Prop}

theorem keeps_bind (ht : ∀ a b c, R a b → R b c → R a c) {x : Cmd β} {f : β → Cmd α}
    (hx : Keeps R x) (hf : ∀ b, Keeps R (f b)) : Keeps R (x >>= f) := by
  intro s
  rw [wp_bind]
  exact wp_mono (hx s)
    (fun b t h => wp_mono (hf b t) (fun _ _ h' => ht _ _ _ h h') (fun _ _ h' => ht _ _ _ h h')) (fun _ _ h => h)

theorem keeps_loop (hr : ∀ a, R a a) (ht : ∀ a b c, R a b → R b c → R a c)
    {body : Nat → Cmd Unit} {i n : Nat} (hb : ∀ j, i ≤ j → j < i + n → Keeps R (body j)) :
    Keeps R (loop body i n) := by
  intro s
  refine wp_loop (fun _ t => R s t) (hr s) (fun j t hj hj' h => ?_) (fun t h => h)
  exact wp_mono (hb j hj hj' t) (fun _ _ h' => ht _ _ _ h h') (fun _ _ h' => ht _ _ _ h h')

theorem keeps_pure (hr : ∀ a, R a a) (a : α) : Keeps R (pure a : Cmd α) := fun s => hr s

theorem keeps_raiseWhen (hr : ∀ a, R a a) (c : Bool) (e : ErrCode) : Keeps R (raiseWhen c e) := by
  intro s; simp [hr]

theorem keeps_dmaRead (hr : ∀ a, R a a) (a : Nat) : Keeps R (dmaRead a) := by
  intro s; simp [hr]

theorem keeps_get (hr : ∀ a, R a a) : Keeps R (get : Cmd State) := fun s => hr s

end keeps

end Sys2Proof.Laws
end

