-- ==== Sys2Proof/Laws/Frame.lean ====
section
/-! SUPPORT. What a command can touch, said once: a relation that holds of every single thing the engine
does (`EngineRel`) holds from the start of a body to its end. The frames, the confinement of writes and the
canonical memory follow by choosing the relation. -/

namespace Sys2Proof.Laws

open Sys2Proof Sys2Proof.Machine

/-- A relation kept by everything the engine does in a body whose writes to host memory stay in `W`; PATHSEL
changes only where `H` holds (R46). -/
structure EngineRel (W : Nat → Prop) (H : Prop) (R : State → State → Prop) : Prop where
  refl : ∀ s, R s s
  trans : ∀ s t u, R s t → R t u → R s u
  acc : ∀ (s : State) x y, R s { s with acc1 := x, acc2 := y }
  pathsel : H → ∀ (s : State) b, R s { s with pathsel := b }
  scratch : ∀ (s : State) m, R s { s with scratch := m }
  ks : ∀ (s : State) k, R s { s with ks := k }
  blkbuf : ∀ (s : State) b, R s { s with blkbuf := b }
  put : ∀ (s : State) a v, W a → R s (s.putByte a v)
  draw : ∀ (s : State) a, W a → a < 2 ^ 32 → R s (drawByte a s)

variable {W : Nat → Prop} {H : Prop} {R : State → State → Prop} {L : Latched}

theorem contains_iff (r : Range) (a : Nat) :
    r.contains a = true ↔ r.base ≤ a ∧ a < r.base + r.len := by simp [Range.contains]

theorem contains_false_iff (r : Range) (a : Nat) :
    r.contains a = false ↔ ¬ (r.base ≤ a ∧ a < r.base + r.len) := by
  rw [← contains_iff]; simp

theorem keeps_dmaWrite (h : EngineRel W H R) {a : Nat} (v : Byte) (ha : W a) : Keeps R (dmaWrite a v) := by
  intro s
  simp [h.refl, h.put s a v ha]

theorem keeps_write_loop (h : EngineRel W H R) {g : Nat → Nat} {f : Nat → Byte} {i n : Nat}
    (hg : ∀ j, i ≤ j → j < i + n → W (g j)) : Keeps R (loop (fun j => dmaWrite (g j) (f j)) i n) :=
  keeps_loop h.refl h.trans fun j hj hj' => keeps_dmaWrite h _ (hg j hj hj')

theorem keeps_bind_get (h : EngineRel W H R) {α : Type} {f : State → Cmd α} (hf : ∀ s, Keeps R (f s)) :
    Keeps R (get >>= f) :=
  keeps_bind h.trans (keeps_get h.refl) hf

/-- A check before the rest: the rest may assume that its condition does not hold. -/
theorem keeps_check (h : EngineRel W H R) {α : Type} {c : Bool} {e : ErrCode} {x : Cmd α}
    (hx : c = false → Keeps R x) : Keeps R (raiseWhen c e >>= fun _ => x) := by
  intro s
  rw [wp_bind, wp_raiseWhen]
  exact ⟨fun _ => h.refl s, fun hc => hx hc s⟩

theorem keeps_hashkeyBody (h : EngineRel W H R) (hW : ∀ a, L.dest.contains a = true → W a) :
    Keeps R (hashkeyBody L) := by
  refine keeps_check h fun hc => ?_
  have hcap : 8 ≤ L.dstcap.toNat := by simpa using hc
  have hw : ∀ j, j < 8 → W (L.dstAt j) := fun j hj =>
    hW _ ((contains_iff _ _).2 ⟨by simp [Latched.dest, Latched.dstAt], by
      simp only [Latched.dest, Latched.dstAt]; omega⟩)
  refine keeps_bind h.trans (fun s => h.acc s _ _) fun _ => ?_
  refine keeps_bind h.trans (keeps_loop h.refl h.trans fun j _ _ => ?_) fun _ => ?_
  · exact keeps_bind h.trans (keeps_dmaRead h.refl _) fun c s => h.acc s _ _
  refine keeps_bind_get h fun s => ?_
  refine keeps_bind h.trans (keeps_write_loop h fun j _ hj => hw j (by omega)) fun _ => ?_
  refine keeps_bind h.trans (keeps_write_loop h fun j _ hj => hw (4 + j) (by omega)) fun _ => ?_
  exact keeps_pure h.refl _

/-! ### The hex commands -/

theorem keeps_drawRange (h : EngineRel W H R) (keep : Nat → Bool) {a n : Nat}
    (hw : ∀ b, a ≤ b → b < a + n → keep b = false → b < 2 ^ 32 → W b) (s : State) :
    R s (drawRange keep a n s) := by
  induction n generalizing a s with
  | zero => exact h.refl s
  | succ n ih =>
    rw [drawRange]
    refine h.trans _ _ _ ?_ (ih (fun b hb hb' => hw b (by omega) (by omega)) _)
    split
    · exact h.refl s
    · rename_i hc
      simp only [Bool.or_eq_true, decide_eq_true_eq, not_or, Bool.not_eq_true, not_le] at hc
      exact h.draw s a (hw a le_rfl (by omega) hc.1 hc.2) hc.2

/-- A hex command's allocation: the scratch path, or the heap path with the heap checks passed. -/
theorem wp_alloc {Q : Backing → State → Prop} {E : ErrCode → State → Prop} (n : Nat) (s : State) :
    wp (alloc L n) Q E s ↔
      (n ≤ s.cfg.scratchCap → Q .scratch { s with pathsel := false }) ∧
      (s.cfg.scratchCap < n →
        (L.heaplen.toNat < n → E .alloc { s with pathsel := true }) ∧
        (n ≤ L.heaplen.toNat →
          ((L.heapRegion n).valid = false → E .range { s with pathsel := true }) ∧
          ((L.heapRegion n).valid = true →
            (((L.heapRegion n).overlaps L.source || (L.heapRegion n).overlaps L.dest) = true →
              E .overlap { s with pathsel := true }) ∧
            (((L.heapRegion n).overlaps L.source || (L.heapRegion n).overlaps L.dest) = false →
              Q .heap { s with pathsel := true })))) := by
  unfold alloc
  by_cases hn : n ≤ s.cfg.scratchCap
  · simp [hn, Nat.not_lt.2 hn]
  · simp [hn, Nat.lt_of_not_le hn]

/-- The bytes the engine may write in a hex command with output length `n`. -/
def HexWrites (L : Latched) (cap n : Nat) (a : Nat) : Prop :=
  L.dest.contains a = true ∨
    (cap < n ∧ a < 2 ^ 32 ∧ L.source.contains a = false ∧ (L.usedHeap n).contains a = true)

theorem keeps_bufWrite (h : EngineRel W H R) {buf : Backing} {k : Nat} (v : Byte)
    (hw : buf = .heap → W (L.heapAt k)) : Keeps R (bufWrite L buf k v) := by
  cases buf with
  | scratch => exact fun s => h.scratch s _
  | heap => exact keeps_dmaWrite h v (hw rfl)

theorem keeps_bufRead (h : EngineRel W H R) (buf : Backing) (k : Nat) : Keeps R (bufRead L buf k) := by
  cases buf with
  | scratch => exact fun s => h.refl s
  | heap => exact keeps_dmaRead h.refl _

theorem keeps_copyout (h : EngineRel W H R) (buf : Backing) {n : Nat} (hw : ∀ j, j < n → W (L.dstAt j)) :
    Keeps R (copyout L buf n) :=
  keeps_loop h.refl h.trans fun j _ hj =>
    keeps_bind h.trans (keeps_bufRead h buf j) fun v => keeps_dmaWrite h v (hw j (by omega))

/-- The part of a hex command from the allocation on. -/
theorem keeps_withBuffer (h : EngineRel W H R) (hH : H) {n : Nat} {work : Backing → Cmd Unit} (s : State)
    (hW : ∀ a, HexWrites L s.cfg.scratchCap n a → W a)
    (hwork : ∀ buf, (buf = .heap → ∀ j, j < n → W (L.heapAt j)) → Keeps R (work buf)) :
    wp (withBuffer L n work) (fun _ t => R s t) (fun _ t => R s t) s := by
  have rel : ∀ t, R s t → R s (releaseBuffer L (decide (s.cfg.scratchCap < n)) n t) := fun t ht => by
    unfold releaseBuffer
    split
    · rename_i hh
      refine h.trans _ _ _ ht (keeps_drawRange h _ (fun b hb hb' hk hlt => hW b (.inr ?_)) t)
      rw [Bool.or_eq_false_iff] at hk
      exact ⟨of_decide_eq_true hh, hlt, hk.1, (contains_iff _ _).2 ⟨hb, hb'⟩⟩
    · exact ht
  have run : ∀ buf b, (buf = .heap → ∀ j, j < n → W (L.heapAt j)) →
      wp (work buf) (fun _ t => R s (releaseBuffer L (decide (s.cfg.scratchCap < n)) n t))
        (fun _ t => R s (releaseBuffer L (decide (s.cfg.scratchCap < n)) n t)) { s with pathsel := b } :=
    fun buf b hb => wp_mono (hwork buf hb _) (fun _ _ ht => rel _ (h.trans _ _ _ (h.pathsel hH s b) ht))
      (fun _ _ ht => rel _ (h.trans _ _ _ (h.pathsel hH s b) ht))
  rw [wp_withBuffer, wp_bind, wp_alloc]
  refine ⟨fun _ => run .scratch false (fun hb => by cases hb), fun hn => ⟨fun _ => rel _ (h.pathsel hH s _),
    fun hl => ⟨fun _ => rel _ (h.pathsel hH s _), fun hv => ⟨fun _ => rel _ (h.pathsel hH s _), fun ho =>
      run .heap true fun _ j hj => hW _ (.inr ⟨hn, ?_, ?_, ?_⟩)⟩⟩⟩⟩
  · rw [Range.valid, decide_eq_true_eq] at hv
    simp only [Latched.heapRegion, Latched.heapAt] at hv ⊢
    omega
  · rw [Bool.or_eq_false_iff] at ho
    have := ho.1
    simp only [Range.overlaps, Bool.and_eq_false_iff, decide_eq_false_iff_not, not_lt] at this
    rw [contains_false_iff]
    simp only [Latched.heapRegion, Latched.heapAt] at this ⊢
    omega
  · rw [contains_iff]
    simp only [Latched.usedHeap, Latched.heapAt]
    omega

/-- A buffer's bytes are written and copied out (R162). -/
theorem keeps_hexTail (h : EngineRel W H R) (hH : H) {n : Nat} {work : Backing → Cmd Unit}
    (hcap : n ≤ L.dstcap.toNat) (s : State)
    (hW : ∀ a, HexWrites L s.cfg.scratchCap n a → W a)
    (hwork : ∀ buf, (buf = .heap → ∀ j, j < n → W (L.heapAt j)) → Keeps R (work buf)) :
    wp (do
        withBuffer L n fun buf => do
          work buf
          copyout L buf n
        return n : Cmd Nat) (fun _ t => R s t) (fun _ t => R s t) s := by
  have hd : ∀ j, j < n → W (L.dstAt j) := fun j hj =>
    hW _ (.inl ((contains_iff _ _).2 ⟨by simp [Latched.dest, Latched.dstAt], by
      simp only [Latched.dest, Latched.dstAt]; omega⟩))
  rw [wp_bind]
  refine wp_mono (keeps_withBuffer h hH s hW fun buf hb =>
    keeps_bind h.trans (hwork buf hb) fun _ => keeps_copyout h buf hd) (fun _ _ ht => ht) (fun _ _ ht => ht)

theorem keeps_hexEncBody (h : EngineRel W H R) (hH : H) (s : State)
    (hW : ∀ a, HexWrites L s.cfg.scratchCap (2 * L.srclen.toNat) a → W a) :
    wp (hexEncBody L) (fun _ t => R s t) (fun _ t => R s t) s := by
  unfold hexEncBody
  rw [wp_bind, wp_raiseWhen]
  refine ⟨fun _ => h.refl s, fun hc => ?_⟩
  refine keeps_hexTail h hH (work := fun buf => loop (encodeByte L buf) 0 L.srclen.toNat)
    (by simpa using hc) s hW fun buf hb => ?_
  refine keeps_loop h.refl h.trans fun j _ hj => ?_
  refine keeps_bind h.trans (keeps_dmaRead h.refl _) fun c => ?_
  exact keeps_bind h.trans (keeps_bufWrite h _ fun e => hb e _ (by omega)) fun _ =>
    keeps_bufWrite h _ fun e => hb e _ (by omega)

theorem keeps_hexDecBody (h : EngineRel W H R) (hH : H) (s : State)
    (hW : ∀ a, HexWrites L s.cfg.scratchCap (L.srclen.toNat / 2) a → W a) :
    wp (hexDecBody L) (fun _ t => R s t) (fun _ t => R s t) s := by
  unfold hexDecBody
  rw [wp_bind, wp_raiseWhen]
  refine ⟨fun _ => h.refl s, fun _ => ?_⟩
  rw [wp_bind, wp_raiseWhen]
  refine ⟨fun _ => h.refl s, fun hc => ?_⟩
  refine keeps_hexTail h hH (work := fun buf => loop (decodePair L buf) 0 (L.srclen.toNat / 2))
    (by simpa using hc) s hW fun buf hb => ?_
  refine keeps_loop h.refl h.trans fun j _ hj => ?_
  refine keeps_bind h.trans (keeps_dmaRead h.refl _) fun a => ?_
  refine keeps_bind h.trans (keeps_dmaRead h.refl _) fun b => ?_
  exact keeps_check h fun _ => keeps_bufWrite h _ fun e => hb e _ (by omega)

/-! ### The DES commands -/

theorem keeps_setBlkbuf (h : EngineRel W H R) (j : Nat) (v : Byte) : Keeps R (setBlkbuf j v) :=
  fun s => h.blkbuf s _

theorem keeps_readBlock (h : EngineRel W H R) {g : Nat → Nat} {i n : Nat} :
    Keeps R (loop (fun j => do setBlkbuf j (← dmaRead (g j))) i n) :=
  keeps_loop h.refl h.trans fun j _ _ =>
    keeps_bind h.trans (keeps_dmaRead h.refl _) fun v => keeps_setBlkbuf h j v

theorem keeps_encryptBlock (h : EngineRel W H R) {k : Nat}
    (hw : ∀ j, j < 8 → W (L.dstAt (8 * k + j))) : Keeps R (encryptBlock L k) := by
  refine keeps_bind h.trans (keeps_readBlock h) fun _ => ?_
  refine keeps_bind h.trans (keeps_loop h.refl h.trans fun j _ _ => keeps_setBlkbuf h j _) fun _ => ?_
  refine keeps_bind h.trans (fun s => h.blkbuf s _) fun _ => ?_
  exact keeps_bind_get h fun s => keeps_write_loop h fun j _ hj => hw j (by omega)

theorem keeps_desEncBody (h : EngineRel W H R) (hW : ∀ a, L.dest.contains a = true → W a) :
    Keeps R (desEncBody L) := by
  refine keeps_check h fun _ => keeps_check h fun hc => ?_
  have hcap : 8 * blockCount L.srclen.toNat + 1 ≤ L.dstcap.toNat := by simpa using hc
  have hw : ∀ j, j < 8 * blockCount L.srclen.toNat + 1 → W (L.dstAt j) := fun j hj =>
    hW _ ((contains_iff _ _).2 ⟨by simp [Latched.dest, Latched.dstAt], by
      simp only [Latched.dest, Latched.dstAt]; omega⟩)
  refine keeps_bind h.trans (fun s => h.ks s _) fun _ => ?_
  refine keeps_bind h.trans (keeps_loop h.refl h.trans fun k _ hk =>
    keeps_encryptBlock h fun j hj => hw _ (by omega)) fun _ => ?_
  exact keeps_bind h.trans (keeps_dmaWrite h _ (hw _ (by omega))) fun _ => keeps_pure h.refl _

theorem keeps_decryptBlock (h : EngineRel W H R) {n k : Nat}
    (hw : ∀ j, j < n → W (L.dstAt j)) : Keeps R (decryptBlock L n k) := by
  refine keeps_bind h.trans (keeps_readBlock h) fun _ => ?_
  refine keeps_bind h.trans (fun s => h.blkbuf s _) fun _ => ?_
  refine keeps_bind_get h fun s => keeps_loop h.refl h.trans fun j _ _ => ?_
  unfold writeRecovered
  split
  · exact keeps_dmaWrite h _ (hw _ ‹_›)
  · exact keeps_pure h.refl _

theorem keeps_desDecBody (h : EngineRel W H R) (hW : ∀ a, L.dest.contains a = true → W a) :
    Keeps R (desDecBody L) := by
  refine keeps_check h fun _ => keeps_check h fun _ => ?_
  refine keeps_bind h.trans (keeps_dmaRead h.refl _) fun p => keeps_check h fun _ => ?_
  refine keeps_bind_get h fun s => keeps_check h fun _ => keeps_check h fun hc => ?_
  have hcap : L.srclen.toNat - 1 - p.toNat ≤ L.dstcap.toNat := by simpa using hc
  refine keeps_bind h.trans (fun s => h.ks s _) fun _ => ?_
  refine keeps_bind h.trans (keeps_loop h.refl h.trans fun k _ _ =>
    keeps_decryptBlock h fun j hj => hW _ ((contains_iff _ _).2 ?_)) fun _ => keeps_pure h.refl _
  simp only [Latched.dest, Latched.dstAt]
  omega

/-! ### A whole command -/

/-- The bytes the engine may write when it runs command `i` (R118, R130). -/
def MayWrite (i : Instr) (s : State) (a : Nat) : Prop :=
  s.latch.source.valid = true ∧ s.latch.dest.valid = true ∧
  s.latch.source.overlaps s.latch.dest = false ∧
  match hexOutputLength s.latch i with
  | some n => HexWrites s.latch s.cfg.scratchCap n a
  | none => s.latch.dest.contains a = true

/-- Whatever a command does, it ends in one completion, of a state that the engine has reached from the start
by its own single actions (R114, R121, R122). -/
theorem exec_completes (i : Instr) (s : State) :
    ∃ code n u, exec i s = .next (complete code n u) ∧
      ∀ {W : Nat → Prop} {R : State → State → Prop}, EngineRel W (usesHeapWindow i = true) R → (∀ a, MayWrite i s a → W a) →
        R s u := by
  have run : ∀ body : Latched → Cmd Nat,
      (∀ {W : Nat → Prop} {R : State → State → Prop}, EngineRel W (usesHeapWindow i = true) R → (∀ a, MayWrite i s a → W a) →
        s.latch.source.valid = true → s.latch.dest.valid = true →
        s.latch.source.overlaps s.latch.dest = false →
        wp (body s.latch) (fun _ t => R s t) (fun _ t => R s t) s) →
      ∃ code n u, runCommand body s = complete code n u ∧
        ∀ {W : Nat → Prop} {R : State → State → Prop}, EngineRel W (usesHeapWindow i = true) R → (∀ a, MayWrite i s a → W a) →
          R s u := by
    intro body hb
    have key : ∀ {W : Nat → Prop} {R : State → State → Prop}, EngineRel W (usesHeapWindow i = true) R →
        (∀ a, MayWrite i s a → W a) →
        wp (do checkRanges s.latch; checkOverlap s.latch; body s.latch : Cmd Nat)
          (fun _ t => R s t) (fun _ t => R s t) s := by
      intro W R h hW
      simp only [checkRanges, checkOverlap, wp_bind, wp_raiseWhen]
      refine ⟨fun _ => h.refl s, fun hv => ⟨fun _ => h.refl s, fun ho => ?_⟩⟩
      simp only [Bool.not_eq_false', Bool.and_eq_true] at hv
      exact hb h hW hv.1 hv.2 ho
    cases hc : (do checkRanges s.latch; checkOverlap s.latch; body s.latch : Cmd Nat) s with
    | ok n u =>
      refine ⟨.ok, n, u, by unfold runCommand; simp only [hc], fun h hW => ?_⟩
      simpa only [wp, hc] using key h hW
    | error e u =>
      refine ⟨e, 0, u, by unfold runCommand; simp only [hc], fun h hW => ?_⟩
      simpa only [wp, hc] using key h hW
  have wrap : ∀ {body}, exec i s = .next (runCommand body s) →
      (∃ code n u, runCommand body s = complete code n u ∧
        ∀ {W : Nat → Prop} {R : State → State → Prop}, EngineRel W (usesHeapWindow i = true) R → (∀ a, MayWrite i s a → W a) →
          R s u) →
      ∃ code n u, exec i s = .next (complete code n u) ∧
        ∀ {W : Nat → Prop} {R : State → State → Prop}, EngineRel W (usesHeapWindow i = true) R → (∀ a, MayWrite i s a → W a) →
          R s u := by
    rintro body he ⟨code, n, u, hu, hR⟩
    exact ⟨code, n, u, by rw [he, hu], hR⟩
  cases i with
  | hashkey =>
    exact wrap rfl (run hashkeyBody fun h hW hs hd ho =>
      keeps_hashkeyBody h (fun a ha => hW a ⟨hs, hd, ho, ha⟩) s)
  | hexEnc =>
    exact wrap rfl (run hexEncBody fun h hW hs hd ho =>
      keeps_hexEncBody h rfl s fun a ha => hW a ⟨hs, hd, ho, ha⟩)
  | hexDec =>
    refine wrap rfl (run hexDecBody fun h hW hs hd ho => ?_)
    by_cases he : s.latch.srclen.toNat % 2 = 0
    · refine keeps_hexDecBody h rfl s fun a ha => hW a ⟨hs, hd, ho, ?_⟩
      simpa [hexOutputLength, he] using ha
    · simp [hexDecBody, he, h.refl]
  | desEnc =>
    exact wrap rfl (run desEncBody fun h hW hs hd ho =>
      keeps_desEncBody h (fun a ha => hW a ⟨hs, hd, ho, ha⟩) s)
  | desDec =>
    exact wrap rfl (run desDecBody fun h hW hs hd ho =>
      keeps_desDecBody h (fun a ha => hW a ⟨hs, hd, ho, ha⟩) s)

/-! ### The relations the frames need -/

/-- Nothing changes but the hidden registers, PATHSEL, host memory and the draws. -/
theorem engineRel_sameOutside (W : Nat → Prop) (H : Prop) : EngineRel W H SameOutside :=
  ⟨SameOutside.refl, fun _ _ _ => SameOutside.trans, fun _ _ _ => rfl, fun _ _ _ => rfl, fun _ _ => rfl,
    fun _ _ => rfl, fun _ _ => rfl, fun _ _ _ _ => rfl, fun _ _ _ _ => rfl⟩

/-- Every byte outside `W` reads as before. -/
theorem engineRel_memory (W : Nat → Prop) (H : Prop) :
    EngineRel W H fun s t => ∀ a, ¬ W a → t.byteAt a = s.byteAt a :=
  ⟨fun _ _ _ => rfl, fun _ _ _ h h' a ha => (h' a ha).trans (h a ha), fun _ _ _ _ _ => rfl,
    fun _ _ _ _ _ => rfl, fun _ _ _ _ => rfl, fun _ _ _ _ => rfl, fun _ _ _ _ => rfl,
    fun s _ v hw _ ha => byteAt_putByte_other s v fun e => ha (e ▸ hw),
    fun s _ hw _ _ ha => byteAt_drawByte_other s fun e => ha (e ▸ hw)⟩

/-- The canonical form of memory is kept by writes inside the DMA space. -/
theorem engineRel_wf {W : Nat → Prop} (H : Prop) (hW : ∀ a, W a → a < 2 ^ 32) :
    EngineRel W H fun s t => Memory.wf s.mem = true → Memory.wf t.mem = true :=
  ⟨fun _ => id, fun _ _ _ h h' hs => h' (h hs), fun _ _ _ => id, fun _ _ _ => id, fun _ _ => id,
    fun _ _ => id, fun _ _ => id, fun _ _ v hw h => wf_write v h (hW _ hw),
    fun s _ _ hlt h => wf_draw s.draws h hlt⟩

/-- PATHSEL keeps its value where no heap window is used. -/
theorem engineRel_pathsel (W : Nat → Prop) {H : Prop} (hH : ¬ H) :
    EngineRel W H fun s t => t.pathsel = s.pathsel :=
  ⟨fun _ => rfl, fun _ _ _ h h' => h'.trans h, fun _ _ _ => rfl, fun h => absurd h hH, fun _ _ => rfl,
    fun _ _ => rfl, fun _ _ => rfl, fun _ _ _ _ => rfl, fun _ _ _ _ => rfl⟩

/-- What a command may write lies in its destination range or its heap window, and in the DMA space. -/
theorem mayWrite_ranges {i : Instr} {s : State} {a : Nat} (h : MayWrite i s a) :
    a < 2 ^ 32 ∧ (s.latch.dest.contains a = true ∨
      (usesHeapWindow i = true ∧ s.latch.heapWindow.contains a = true)) := by
  obtain ⟨-, hd, -, h⟩ := h
  have dest : s.latch.dest.contains a = true → a < 2 ^ 32 := fun hc => by
    rw [contains_iff] at hc
    rw [Range.valid, decide_eq_true_eq] at hd
    omega
  have hex : ∀ n, HexWrites s.latch s.cfg.scratchCap n a → a < 2 ^ 32 ∧
      (s.latch.dest.contains a = true ∨ s.latch.heapWindow.contains a = true) := by
    rintro n (hc | ⟨-, hlt, -, hc⟩)
    · exact ⟨dest hc, .inl hc⟩
    · rw [contains_iff] at hc
      refine ⟨hlt, .inr ((contains_iff _ _).2 ⟨hc.1, ?_⟩)⟩
      simp only [Latched.usedHeap, Latched.heapWindow] at hc ⊢
      omega
  cases i with
  | hashkey => exact ⟨dest h, .inl h⟩
  | desEnc => exact ⟨dest h, .inl h⟩
  | desDec => exact ⟨dest h, .inl h⟩
  | hexEnc => exact (hex _ h).imp_right (Or.imp_right fun h => ⟨rfl, h⟩)
  | hexDec =>
    simp only [hexOutputLength] at h
    split at h
    · rename_i n _
      exact (hex _ h).imp_right (Or.imp_right fun h => ⟨rfl, h⟩)
    · exact ⟨dest h, .inl h⟩

/-- What a command may write is no byte of its source range. -/
theorem mayWrite_not_source {i : Instr} {s : State} {a : Nat} (h : MayWrite i s a) :
    s.latch.source.contains a = false := by
  obtain ⟨-, -, ho, h⟩ := h
  have dis : ∀ {r : Range}, s.latch.source.overlaps r = false → r.contains a = true →
      s.latch.source.contains a = false := fun {r} hr hc => by
    rw [contains_iff] at hc
    rw [contains_false_iff]
    simp only [Range.overlaps, Bool.and_eq_false_iff, decide_eq_false_iff_not, not_lt] at hr
    omega
  have hex : ∀ n, HexWrites s.latch s.cfg.scratchCap n a → s.latch.source.contains a = false := by
    rintro n (hc | ⟨-, -, hs, -⟩)
    · exact dis ho hc
    · exact hs
  cases i with
  | hashkey => exact dis ho h
  | desEnc => exact dis ho h
  | desDec => exact dis ho h
  | hexEnc => exact hex _ h
  | hexDec =>
    simp only [hexOutputLength] at h
    split at h
    · exact hex _ h
    · exact dis ho h

end Sys2Proof.Laws
end

