-- ==== Sys2Proof/Laws/State.lean ====
section
/-! SUPPORT. One lemma per field per update of the state, each true by unfolding the update once, so that no
later proof unfolds a record update. -/

namespace Sys2Proof.Laws

open Sys2Proof Sys2Proof.Machine

/-! ### putByte: one byte of host memory -/

@[simp] theorem putByte_cfg (s : State) (a : Nat) (v : Byte) :
    (s.putByte a v).cfg = s.cfg := rfl
@[simp] theorem putByte_ie (s : State) (a : Nat) (v : Byte) :
    (s.putByte a v).ie = s.ie := rfl
@[simp] theorem putByte_done (s : State) (a : Nat) (v : Byte) :
    (s.putByte a v).done = s.done := rfl
@[simp] theorem putByte_err (s : State) (a : Nat) (v : Byte) :
    (s.putByte a v).err = s.err := rfl
@[simp] theorem putByte_path (s : State) (a : Nat) (v : Byte) :
    (s.putByte a v).path = s.path := rfl
@[simp] theorem putByte_cmd (s : State) (a : Nat) (v : Byte) :
    (s.putByte a v).cmd = s.cmd := rfl
@[simp] theorem putByte_errcode (s : State) (a : Nat) (v : Byte) :
    (s.putByte a v).errcode = s.errcode := rfl
@[simp] theorem putByte_srcAddr (s : State) (a : Nat) (v : Byte) :
    (s.putByte a v).srcAddr = s.srcAddr := rfl
@[simp] theorem putByte_srcLen (s : State) (a : Nat) (v : Byte) :
    (s.putByte a v).srcLen = s.srcLen := rfl
@[simp] theorem putByte_dstAddr (s : State) (a : Nat) (v : Byte) :
    (s.putByte a v).dstAddr = s.dstAddr := rfl
@[simp] theorem putByte_dstCap (s : State) (a : Nat) (v : Byte) :
    (s.putByte a v).dstCap = s.dstCap := rfl
@[simp] theorem putByte_resLen (s : State) (a : Nat) (v : Byte) :
    (s.putByte a v).resLen = s.resLen := rfl
@[simp] theorem putByte_keyLen (s : State) (a : Nat) (v : Byte) :
    (s.putByte a v).keyLen = s.keyLen := rfl
@[simp] theorem putByte_key0 (s : State) (a : Nat) (v : Byte) :
    (s.putByte a v).key0 = s.key0 := rfl
@[simp] theorem putByte_key1 (s : State) (a : Nat) (v : Byte) :
    (s.putByte a v).key1 = s.key1 := rfl
@[simp] theorem putByte_heapAddr (s : State) (a : Nat) (v : Byte) :
    (s.putByte a v).heapAddr = s.heapAddr := rfl
@[simp] theorem putByte_heapLen (s : State) (a : Nat) (v : Byte) :
    (s.putByte a v).heapLen = s.heapLen := rfl
@[simp] theorem putByte_h1 (s : State) (a : Nat) (v : Byte) :
    (s.putByte a v).h1 = s.h1 := rfl
@[simp] theorem putByte_h2 (s : State) (a : Nat) (v : Byte) :
    (s.putByte a v).h2 = s.h2 := rfl
@[simp] theorem putByte_engine (s : State) (a : Nat) (v : Byte) :
    (s.putByte a v).engine = s.engine := rfl
@[simp] theorem putByte_latch (s : State) (a : Nat) (v : Byte) :
    (s.putByte a v).latch = s.latch := rfl
@[simp] theorem putByte_acc1 (s : State) (a : Nat) (v : Byte) :
    (s.putByte a v).acc1 = s.acc1 := rfl
@[simp] theorem putByte_acc2 (s : State) (a : Nat) (v : Byte) :
    (s.putByte a v).acc2 = s.acc2 := rfl
@[simp] theorem putByte_ks (s : State) (a : Nat) (v : Byte) :
    (s.putByte a v).ks = s.ks := rfl
@[simp] theorem putByte_blkbuf (s : State) (a : Nat) (v : Byte) :
    (s.putByte a v).blkbuf = s.blkbuf := rfl
@[simp] theorem putByte_scratch (s : State) (a : Nat) (v : Byte) :
    (s.putByte a v).scratch = s.scratch := rfl
@[simp] theorem putByte_pathsel (s : State) (a : Nat) (v : Byte) :
    (s.putByte a v).pathsel = s.pathsel := rfl
@[simp] theorem putByte_mem (s : State) (a : Nat) (v : Byte) :
    (s.putByte a v).mem = Memory.write s.mem a v := rfl
@[simp] theorem putByte_resetActive (s : State) (a : Nat) (v : Byte) :
    (s.putByte a v).resetActive = s.resetActive := rfl
@[simp] theorem putByte_inputs (s : State) (a : Nat) (v : Byte) :
    (s.putByte a v).inputs = s.inputs := rfl
@[simp] theorem putByte_response (s : State) (a : Nat) (v : Byte) :
    (s.putByte a v).response = s.response := rfl
@[simp] theorem putByte_unseen (s : State) (a : Nat) (v : Byte) :
    (s.putByte a v).unseen = s.unseen := rfl
@[simp] theorem putByte_owner (s : State) (a : Nat) (v : Byte) :
    (s.putByte a v).owner = s.owner := rfl
@[simp] theorem putByte_hostDirty (s : State) (a : Nat) (v : Byte) :
    (s.putByte a v).hostDirty = s.hostDirty := rfl
@[simp] theorem putByte_dmaDirty (s : State) (a : Nat) (v : Byte) :
    (s.putByte a v).dmaDirty = s.dmaDirty := rfl
@[simp] theorem putByte_draws (s : State) (a : Nat) (v : Byte) :
    (s.putByte a v).draws = s.draws := rfl

/-! ### drawByte: one byte drawn -/

@[simp] theorem drawByte_cfg (s : State) (a : Nat) :
    (drawByte a s).cfg = s.cfg := rfl
@[simp] theorem drawByte_ie (s : State) (a : Nat) :
    (drawByte a s).ie = s.ie := rfl
@[simp] theorem drawByte_done (s : State) (a : Nat) :
    (drawByte a s).done = s.done := rfl
@[simp] theorem drawByte_err (s : State) (a : Nat) :
    (drawByte a s).err = s.err := rfl
@[simp] theorem drawByte_path (s : State) (a : Nat) :
    (drawByte a s).path = s.path := rfl
@[simp] theorem drawByte_cmd (s : State) (a : Nat) :
    (drawByte a s).cmd = s.cmd := rfl
@[simp] theorem drawByte_errcode (s : State) (a : Nat) :
    (drawByte a s).errcode = s.errcode := rfl
@[simp] theorem drawByte_srcAddr (s : State) (a : Nat) :
    (drawByte a s).srcAddr = s.srcAddr := rfl
@[simp] theorem drawByte_srcLen (s : State) (a : Nat) :
    (drawByte a s).srcLen = s.srcLen := rfl
@[simp] theorem drawByte_dstAddr (s : State) (a : Nat) :
    (drawByte a s).dstAddr = s.dstAddr := rfl
@[simp] theorem drawByte_dstCap (s : State) (a : Nat) :
    (drawByte a s).dstCap = s.dstCap := rfl
@[simp] theorem drawByte_resLen (s : State) (a : Nat) :
    (drawByte a s).resLen = s.resLen := rfl
@[simp] theorem drawByte_keyLen (s : State) (a : Nat) :
    (drawByte a s).keyLen = s.keyLen := rfl
@[simp] theorem drawByte_key0 (s : State) (a : Nat) :
    (drawByte a s).key0 = s.key0 := rfl
@[simp] theorem drawByte_key1 (s : State) (a : Nat) :
    (drawByte a s).key1 = s.key1 := rfl
@[simp] theorem drawByte_heapAddr (s : State) (a : Nat) :
    (drawByte a s).heapAddr = s.heapAddr := rfl
@[simp] theorem drawByte_heapLen (s : State) (a : Nat) :
    (drawByte a s).heapLen = s.heapLen := rfl
@[simp] theorem drawByte_h1 (s : State) (a : Nat) :
    (drawByte a s).h1 = s.h1 := rfl
@[simp] theorem drawByte_h2 (s : State) (a : Nat) :
    (drawByte a s).h2 = s.h2 := rfl
@[simp] theorem drawByte_engine (s : State) (a : Nat) :
    (drawByte a s).engine = s.engine := rfl
@[simp] theorem drawByte_latch (s : State) (a : Nat) :
    (drawByte a s).latch = s.latch := rfl
@[simp] theorem drawByte_acc1 (s : State) (a : Nat) :
    (drawByte a s).acc1 = s.acc1 := rfl
@[simp] theorem drawByte_acc2 (s : State) (a : Nat) :
    (drawByte a s).acc2 = s.acc2 := rfl
@[simp] theorem drawByte_ks (s : State) (a : Nat) :
    (drawByte a s).ks = s.ks := rfl
@[simp] theorem drawByte_blkbuf (s : State) (a : Nat) :
    (drawByte a s).blkbuf = s.blkbuf := rfl
@[simp] theorem drawByte_scratch (s : State) (a : Nat) :
    (drawByte a s).scratch = s.scratch := rfl
@[simp] theorem drawByte_pathsel (s : State) (a : Nat) :
    (drawByte a s).pathsel = s.pathsel := rfl
@[simp] theorem drawByte_mem (s : State) (a : Nat) :
    (drawByte a s).mem = s.mem.draw a s.draws := rfl
@[simp] theorem drawByte_resetActive (s : State) (a : Nat) :
    (drawByte a s).resetActive = s.resetActive := rfl
@[simp] theorem drawByte_inputs (s : State) (a : Nat) :
    (drawByte a s).inputs = s.inputs := rfl
@[simp] theorem drawByte_response (s : State) (a : Nat) :
    (drawByte a s).response = s.response := rfl
@[simp] theorem drawByte_unseen (s : State) (a : Nat) :
    (drawByte a s).unseen = s.unseen := rfl
@[simp] theorem drawByte_owner (s : State) (a : Nat) :
    (drawByte a s).owner = s.owner := rfl
@[simp] theorem drawByte_hostDirty (s : State) (a : Nat) :
    (drawByte a s).hostDirty = s.hostDirty := rfl
@[simp] theorem drawByte_dmaDirty (s : State) (a : Nat) :
    (drawByte a s).dmaDirty = s.dmaDirty := rfl
@[simp] theorem drawByte_draws (s : State) (a : Nat) :
    (drawByte a s).draws = s.draws + 1 := rfl

/-! ### forgetHidden: the hidden registers once Idle (log 3) -/

@[simp] theorem forgetHidden_cfg (s : State) :
    (forgetHidden s).cfg = s.cfg := rfl
@[simp] theorem forgetHidden_ie (s : State) :
    (forgetHidden s).ie = s.ie := rfl
@[simp] theorem forgetHidden_done (s : State) :
    (forgetHidden s).done = s.done := rfl
@[simp] theorem forgetHidden_err (s : State) :
    (forgetHidden s).err = s.err := rfl
@[simp] theorem forgetHidden_path (s : State) :
    (forgetHidden s).path = s.path := rfl
@[simp] theorem forgetHidden_cmd (s : State) :
    (forgetHidden s).cmd = s.cmd := rfl
@[simp] theorem forgetHidden_errcode (s : State) :
    (forgetHidden s).errcode = s.errcode := rfl
@[simp] theorem forgetHidden_srcAddr (s : State) :
    (forgetHidden s).srcAddr = s.srcAddr := rfl
@[simp] theorem forgetHidden_srcLen (s : State) :
    (forgetHidden s).srcLen = s.srcLen := rfl
@[simp] theorem forgetHidden_dstAddr (s : State) :
    (forgetHidden s).dstAddr = s.dstAddr := rfl
@[simp] theorem forgetHidden_dstCap (s : State) :
    (forgetHidden s).dstCap = s.dstCap := rfl
@[simp] theorem forgetHidden_resLen (s : State) :
    (forgetHidden s).resLen = s.resLen := rfl
@[simp] theorem forgetHidden_keyLen (s : State) :
    (forgetHidden s).keyLen = s.keyLen := rfl
@[simp] theorem forgetHidden_key0 (s : State) :
    (forgetHidden s).key0 = s.key0 := rfl
@[simp] theorem forgetHidden_key1 (s : State) :
    (forgetHidden s).key1 = s.key1 := rfl
@[simp] theorem forgetHidden_heapAddr (s : State) :
    (forgetHidden s).heapAddr = s.heapAddr := rfl
@[simp] theorem forgetHidden_heapLen (s : State) :
    (forgetHidden s).heapLen = s.heapLen := rfl
@[simp] theorem forgetHidden_h1 (s : State) :
    (forgetHidden s).h1 = s.h1 := rfl
@[simp] theorem forgetHidden_h2 (s : State) :
    (forgetHidden s).h2 = s.h2 := rfl
@[simp] theorem forgetHidden_engine (s : State) :
    (forgetHidden s).engine = s.engine := rfl
@[simp] theorem forgetHidden_latch (s : State) :
    (forgetHidden s).latch = Config.freeLatched s.draws := rfl
@[simp] theorem forgetHidden_acc1 (s : State) :
    (forgetHidden s).acc1 = (Config.freeAccumulators s.draws).1 := rfl
@[simp] theorem forgetHidden_acc2 (s : State) :
    (forgetHidden s).acc2 = (Config.freeAccumulators s.draws).2 := rfl
@[simp] theorem forgetHidden_ks (s : State) :
    (forgetHidden s).ks = s.ks := rfl
@[simp] theorem forgetHidden_blkbuf (s : State) :
    (forgetHidden s).blkbuf = Config.freeBlock s.draws := rfl
@[simp] theorem forgetHidden_scratch (s : State) :
    (forgetHidden s).scratch = [] := rfl
@[simp] theorem forgetHidden_pathsel (s : State) :
    (forgetHidden s).pathsel = s.pathsel := rfl
@[simp] theorem forgetHidden_mem (s : State) :
    (forgetHidden s).mem = s.mem := rfl
@[simp] theorem forgetHidden_resetActive (s : State) :
    (forgetHidden s).resetActive = s.resetActive := rfl
@[simp] theorem forgetHidden_inputs (s : State) :
    (forgetHidden s).inputs = s.inputs := rfl
@[simp] theorem forgetHidden_response (s : State) :
    (forgetHidden s).response = s.response := rfl
@[simp] theorem forgetHidden_unseen (s : State) :
    (forgetHidden s).unseen = s.unseen := rfl
@[simp] theorem forgetHidden_owner (s : State) :
    (forgetHidden s).owner = s.owner := rfl
@[simp] theorem forgetHidden_hostDirty (s : State) :
    (forgetHidden s).hostDirty = s.hostDirty := rfl
@[simp] theorem forgetHidden_dmaDirty (s : State) :
    (forgetHidden s).dmaDirty = s.dmaDirty := rfl
@[simp] theorem forgetHidden_draws (s : State) :
    (forgetHidden s).draws = s.draws + 1 := rfl

/-! ### accept: accept (R112) -/

@[simp] theorem accept_cfg (w : Word) (s : State) :
    (accept w s).cfg = s.cfg := rfl
@[simp] theorem accept_ie (w : Word) (s : State) :
    (accept w s).ie = s.ie := rfl
@[simp] theorem accept_done (w : Word) (s : State) :
    (accept w s).done = false := rfl
@[simp] theorem accept_err (w : Word) (s : State) :
    (accept w s).err = false := rfl
@[simp] theorem accept_path (w : Word) (s : State) :
    (accept w s).path = false := rfl
@[simp] theorem accept_cmd (w : Word) (s : State) :
    (accept w s).cmd = w := rfl
@[simp] theorem accept_errcode (w : Word) (s : State) :
    (accept w s).errcode = .ok := rfl
@[simp] theorem accept_srcAddr (w : Word) (s : State) :
    (accept w s).srcAddr = s.srcAddr := rfl
@[simp] theorem accept_srcLen (w : Word) (s : State) :
    (accept w s).srcLen = s.srcLen := rfl
@[simp] theorem accept_dstAddr (w : Word) (s : State) :
    (accept w s).dstAddr = s.dstAddr := rfl
@[simp] theorem accept_dstCap (w : Word) (s : State) :
    (accept w s).dstCap = s.dstCap := rfl
@[simp] theorem accept_resLen (w : Word) (s : State) :
    (accept w s).resLen = 0 := rfl
@[simp] theorem accept_keyLen (w : Word) (s : State) :
    (accept w s).keyLen = s.keyLen := rfl
@[simp] theorem accept_key0 (w : Word) (s : State) :
    (accept w s).key0 = s.key0 := rfl
@[simp] theorem accept_key1 (w : Word) (s : State) :
    (accept w s).key1 = s.key1 := rfl
@[simp] theorem accept_heapAddr (w : Word) (s : State) :
    (accept w s).heapAddr = s.heapAddr := rfl
@[simp] theorem accept_heapLen (w : Word) (s : State) :
    (accept w s).heapLen = s.heapLen := rfl
@[simp] theorem accept_h1 (w : Word) (s : State) :
    (accept w s).h1 = s.h1 := rfl
@[simp] theorem accept_h2 (w : Word) (s : State) :
    (accept w s).h2 = s.h2 := rfl
@[simp] theorem accept_engine (w : Word) (s : State) :
    (accept w s).engine = .busy := rfl
@[simp] theorem accept_latch (w : Word) (s : State) :
    (accept w s).latch = s.capture w := rfl
@[simp] theorem accept_acc1 (w : Word) (s : State) :
    (accept w s).acc1 = s.acc1 := rfl
@[simp] theorem accept_acc2 (w : Word) (s : State) :
    (accept w s).acc2 = s.acc2 := rfl
@[simp] theorem accept_ks (w : Word) (s : State) :
    (accept w s).ks = s.ks := rfl
@[simp] theorem accept_blkbuf (w : Word) (s : State) :
    (accept w s).blkbuf = s.blkbuf := rfl
@[simp] theorem accept_scratch (w : Word) (s : State) :
    (accept w s).scratch = s.scratch := rfl
@[simp] theorem accept_pathsel (w : Word) (s : State) :
    (accept w s).pathsel = false := rfl
@[simp] theorem accept_mem (w : Word) (s : State) :
    (accept w s).mem = s.mem := rfl
@[simp] theorem accept_resetActive (w : Word) (s : State) :
    (accept w s).resetActive = s.resetActive := rfl
@[simp] theorem accept_inputs (w : Word) (s : State) :
    (accept w s).inputs = s.inputs := rfl
@[simp] theorem accept_response (w : Word) (s : State) :
    (accept w s).response = s.response := rfl
@[simp] theorem accept_unseen (w : Word) (s : State) :
    (accept w s).unseen = s.unseen := rfl
@[simp] theorem accept_owner (w : Word) (s : State) :
    (accept w s).owner = s.owner := rfl
@[simp] theorem accept_hostDirty (w : Word) (s : State) :
    (accept w s).hostDirty = s.hostDirty := rfl
@[simp] theorem accept_dmaDirty (w : Word) (s : State) :
    (accept w s).dmaDirty = s.dmaDirty := rfl
@[simp] theorem accept_draws (w : Word) (s : State) :
    (accept w s).draws = s.draws := rfl

/-! ### complete: completion (R121) -/

@[simp] theorem complete_cfg (e : ErrCode) (n : Nat) (s : State) :
    (complete e n s).cfg = s.cfg := rfl
@[simp] theorem complete_ie (e : ErrCode) (n : Nat) (s : State) :
    (complete e n s).ie = s.ie := rfl
@[simp] theorem complete_done (e : ErrCode) (n : Nat) (s : State) :
    (complete e n s).done = true := rfl
@[simp] theorem complete_err (e : ErrCode) (n : Nat) (s : State) :
    (complete e n s).err = (e != .ok) := rfl
@[simp] theorem complete_path (e : ErrCode) (n : Nat) (s : State) :
    (complete e n s).path = s.pathsel := rfl
@[simp] theorem complete_cmd (e : ErrCode) (n : Nat) (s : State) :
    (complete e n s).cmd = s.cmd := rfl
@[simp] theorem complete_errcode (e : ErrCode) (n : Nat) (s : State) :
    (complete e n s).errcode = e := rfl
@[simp] theorem complete_srcAddr (e : ErrCode) (n : Nat) (s : State) :
    (complete e n s).srcAddr = s.srcAddr := rfl
@[simp] theorem complete_srcLen (e : ErrCode) (n : Nat) (s : State) :
    (complete e n s).srcLen = s.srcLen := rfl
@[simp] theorem complete_dstAddr (e : ErrCode) (n : Nat) (s : State) :
    (complete e n s).dstAddr = s.dstAddr := rfl
@[simp] theorem complete_dstCap (e : ErrCode) (n : Nat) (s : State) :
    (complete e n s).dstCap = s.dstCap := rfl
@[simp] theorem complete_resLen (e : ErrCode) (n : Nat) (s : State) :
    (complete e n s).resLen = if e = .ok then BitVec.ofNat 32 n else 0 := rfl
@[simp] theorem complete_keyLen (e : ErrCode) (n : Nat) (s : State) :
    (complete e n s).keyLen = s.keyLen := rfl
@[simp] theorem complete_key0 (e : ErrCode) (n : Nat) (s : State) :
    (complete e n s).key0 = s.key0 := rfl
@[simp] theorem complete_key1 (e : ErrCode) (n : Nat) (s : State) :
    (complete e n s).key1 = s.key1 := rfl
@[simp] theorem complete_heapAddr (e : ErrCode) (n : Nat) (s : State) :
    (complete e n s).heapAddr = s.heapAddr := rfl
@[simp] theorem complete_heapLen (e : ErrCode) (n : Nat) (s : State) :
    (complete e n s).heapLen = s.heapLen := rfl
@[simp] theorem complete_h1 (e : ErrCode) (n : Nat) (s : State) :
    (complete e n s).h1 = if e = .ok ∧ opc s.latch.w = 0x01 then s.acc1 else s.h1 := rfl
@[simp] theorem complete_h2 (e : ErrCode) (n : Nat) (s : State) :
    (complete e n s).h2 = if e = .ok ∧ opc s.latch.w = 0x01 then s.acc2 else s.h2 := rfl
@[simp] theorem complete_engine (e : ErrCode) (n : Nat) (s : State) :
    (complete e n s).engine = .idle := rfl
@[simp] theorem complete_latch (e : ErrCode) (n : Nat) (s : State) :
    (complete e n s).latch = Config.freeLatched s.draws := rfl
@[simp] theorem complete_acc1 (e : ErrCode) (n : Nat) (s : State) :
    (complete e n s).acc1 = (Config.freeAccumulators s.draws).1 := rfl
@[simp] theorem complete_acc2 (e : ErrCode) (n : Nat) (s : State) :
    (complete e n s).acc2 = (Config.freeAccumulators s.draws).2 := rfl
@[simp] theorem complete_ks (e : ErrCode) (n : Nat) (s : State) :
    (complete e n s).ks = none := rfl
@[simp] theorem complete_blkbuf (e : ErrCode) (n : Nat) (s : State) :
    (complete e n s).blkbuf = Config.freeBlock s.draws := rfl
@[simp] theorem complete_scratch (e : ErrCode) (n : Nat) (s : State) :
    (complete e n s).scratch = [] := rfl
@[simp] theorem complete_pathsel (e : ErrCode) (n : Nat) (s : State) :
    (complete e n s).pathsel = s.pathsel := rfl
@[simp] theorem complete_mem (e : ErrCode) (n : Nat) (s : State) :
    (complete e n s).mem = s.mem := rfl
@[simp] theorem complete_resetActive (e : ErrCode) (n : Nat) (s : State) :
    (complete e n s).resetActive = s.resetActive := rfl
@[simp] theorem complete_inputs (e : ErrCode) (n : Nat) (s : State) :
    (complete e n s).inputs = s.inputs := rfl
@[simp] theorem complete_response (e : ErrCode) (n : Nat) (s : State) :
    (complete e n s).response = s.response := rfl
@[simp] theorem complete_unseen (e : ErrCode) (n : Nat) (s : State) :
    (complete e n s).unseen = s.unseen := rfl
@[simp] theorem complete_owner (e : ErrCode) (n : Nat) (s : State) :
    (complete e n s).owner = s.owner := rfl
@[simp] theorem complete_hostDirty (e : ErrCode) (n : Nat) (s : State) :
    (complete e n s).hostDirty = s.hostDirty := rfl
@[simp] theorem complete_dmaDirty (e : ErrCode) (n : Nat) (s : State) :
    (complete e n s).dmaDirty = s.dmaDirty := rfl
@[simp] theorem complete_draws (e : ErrCode) (n : Nat) (s : State) :
    (complete e n s).draws = s.draws + 1 := rfl

/-! ### acknowledge: the acknowledgement (R26, R27) -/

@[simp] theorem acknowledge_cfg (v : Word) (s : State) :
    (acknowledge v s).cfg = s.cfg := rfl
@[simp] theorem acknowledge_ie (v : Word) (s : State) :
    (acknowledge v s).ie = s.ie := rfl
@[simp] theorem acknowledge_done (v : Word) (s : State) :
    (acknowledge v s).done = (s.done && !v.getLsbD 1) := rfl
@[simp] theorem acknowledge_err (v : Word) (s : State) :
    (acknowledge v s).err = (s.err && !v.getLsbD 2) := rfl
@[simp] theorem acknowledge_path (v : Word) (s : State) :
    (acknowledge v s).path = s.path := rfl
@[simp] theorem acknowledge_cmd (v : Word) (s : State) :
    (acknowledge v s).cmd = s.cmd := rfl
@[simp] theorem acknowledge_errcode (v : Word) (s : State) :
    (acknowledge v s).errcode = s.errcode := rfl
@[simp] theorem acknowledge_srcAddr (v : Word) (s : State) :
    (acknowledge v s).srcAddr = s.srcAddr := rfl
@[simp] theorem acknowledge_srcLen (v : Word) (s : State) :
    (acknowledge v s).srcLen = s.srcLen := rfl
@[simp] theorem acknowledge_dstAddr (v : Word) (s : State) :
    (acknowledge v s).dstAddr = s.dstAddr := rfl
@[simp] theorem acknowledge_dstCap (v : Word) (s : State) :
    (acknowledge v s).dstCap = s.dstCap := rfl
@[simp] theorem acknowledge_resLen (v : Word) (s : State) :
    (acknowledge v s).resLen = s.resLen := rfl
@[simp] theorem acknowledge_keyLen (v : Word) (s : State) :
    (acknowledge v s).keyLen = s.keyLen := rfl
@[simp] theorem acknowledge_key0 (v : Word) (s : State) :
    (acknowledge v s).key0 = s.key0 := rfl
@[simp] theorem acknowledge_key1 (v : Word) (s : State) :
    (acknowledge v s).key1 = s.key1 := rfl
@[simp] theorem acknowledge_heapAddr (v : Word) (s : State) :
    (acknowledge v s).heapAddr = s.heapAddr := rfl
@[simp] theorem acknowledge_heapLen (v : Word) (s : State) :
    (acknowledge v s).heapLen = s.heapLen := rfl
@[simp] theorem acknowledge_h1 (v : Word) (s : State) :
    (acknowledge v s).h1 = s.h1 := rfl
@[simp] theorem acknowledge_h2 (v : Word) (s : State) :
    (acknowledge v s).h2 = s.h2 := rfl
@[simp] theorem acknowledge_engine (v : Word) (s : State) :
    (acknowledge v s).engine = s.engine := rfl
@[simp] theorem acknowledge_latch (v : Word) (s : State) :
    (acknowledge v s).latch = s.latch := rfl
@[simp] theorem acknowledge_acc1 (v : Word) (s : State) :
    (acknowledge v s).acc1 = s.acc1 := rfl
@[simp] theorem acknowledge_acc2 (v : Word) (s : State) :
    (acknowledge v s).acc2 = s.acc2 := rfl
@[simp] theorem acknowledge_ks (v : Word) (s : State) :
    (acknowledge v s).ks = s.ks := rfl
@[simp] theorem acknowledge_blkbuf (v : Word) (s : State) :
    (acknowledge v s).blkbuf = s.blkbuf := rfl
@[simp] theorem acknowledge_scratch (v : Word) (s : State) :
    (acknowledge v s).scratch = s.scratch := rfl
@[simp] theorem acknowledge_pathsel (v : Word) (s : State) :
    (acknowledge v s).pathsel = s.pathsel := rfl
@[simp] theorem acknowledge_mem (v : Word) (s : State) :
    (acknowledge v s).mem = s.mem := rfl
@[simp] theorem acknowledge_resetActive (v : Word) (s : State) :
    (acknowledge v s).resetActive = s.resetActive := rfl
@[simp] theorem acknowledge_inputs (v : Word) (s : State) :
    (acknowledge v s).inputs = s.inputs := rfl
@[simp] theorem acknowledge_response (v : Word) (s : State) :
    (acknowledge v s).response = s.response := rfl
@[simp] theorem acknowledge_unseen (v : Word) (s : State) :
    (acknowledge v s).unseen = s.unseen := rfl
@[simp] theorem acknowledge_owner (v : Word) (s : State) :
    (acknowledge v s).owner = s.owner := rfl
@[simp] theorem acknowledge_hostDirty (v : Word) (s : State) :
    (acknowledge v s).hostDirty = s.hostDirty := rfl
@[simp] theorem acknowledge_dmaDirty (v : Word) (s : State) :
    (acknowledge v s).dmaDirty = s.dmaDirty := rfl
@[simp] theorem acknowledge_draws (v : Word) (s : State) :
    (acknowledge v s).draws = s.draws := rfl

/-! ### noteWrite: the open command sequence (R243) -/

@[simp] theorem noteWrite_cfg (agent : Nat) (r : Reg) (s : State) :
    (noteWrite agent r s).cfg = s.cfg := rfl
@[simp] theorem noteWrite_ie (agent : Nat) (r : Reg) (s : State) :
    (noteWrite agent r s).ie = s.ie := rfl
@[simp] theorem noteWrite_done (agent : Nat) (r : Reg) (s : State) :
    (noteWrite agent r s).done = s.done := rfl
@[simp] theorem noteWrite_err (agent : Nat) (r : Reg) (s : State) :
    (noteWrite agent r s).err = s.err := rfl
@[simp] theorem noteWrite_path (agent : Nat) (r : Reg) (s : State) :
    (noteWrite agent r s).path = s.path := rfl
@[simp] theorem noteWrite_cmd (agent : Nat) (r : Reg) (s : State) :
    (noteWrite agent r s).cmd = s.cmd := rfl
@[simp] theorem noteWrite_errcode (agent : Nat) (r : Reg) (s : State) :
    (noteWrite agent r s).errcode = s.errcode := rfl
@[simp] theorem noteWrite_srcAddr (agent : Nat) (r : Reg) (s : State) :
    (noteWrite agent r s).srcAddr = s.srcAddr := rfl
@[simp] theorem noteWrite_srcLen (agent : Nat) (r : Reg) (s : State) :
    (noteWrite agent r s).srcLen = s.srcLen := rfl
@[simp] theorem noteWrite_dstAddr (agent : Nat) (r : Reg) (s : State) :
    (noteWrite agent r s).dstAddr = s.dstAddr := rfl
@[simp] theorem noteWrite_dstCap (agent : Nat) (r : Reg) (s : State) :
    (noteWrite agent r s).dstCap = s.dstCap := rfl
@[simp] theorem noteWrite_resLen (agent : Nat) (r : Reg) (s : State) :
    (noteWrite agent r s).resLen = s.resLen := rfl
@[simp] theorem noteWrite_keyLen (agent : Nat) (r : Reg) (s : State) :
    (noteWrite agent r s).keyLen = s.keyLen := rfl
@[simp] theorem noteWrite_key0 (agent : Nat) (r : Reg) (s : State) :
    (noteWrite agent r s).key0 = s.key0 := rfl
@[simp] theorem noteWrite_key1 (agent : Nat) (r : Reg) (s : State) :
    (noteWrite agent r s).key1 = s.key1 := rfl
@[simp] theorem noteWrite_heapAddr (agent : Nat) (r : Reg) (s : State) :
    (noteWrite agent r s).heapAddr = s.heapAddr := rfl
@[simp] theorem noteWrite_heapLen (agent : Nat) (r : Reg) (s : State) :
    (noteWrite agent r s).heapLen = s.heapLen := rfl
@[simp] theorem noteWrite_h1 (agent : Nat) (r : Reg) (s : State) :
    (noteWrite agent r s).h1 = s.h1 := rfl
@[simp] theorem noteWrite_h2 (agent : Nat) (r : Reg) (s : State) :
    (noteWrite agent r s).h2 = s.h2 := rfl
@[simp] theorem noteWrite_engine (agent : Nat) (r : Reg) (s : State) :
    (noteWrite agent r s).engine = s.engine := rfl
@[simp] theorem noteWrite_latch (agent : Nat) (r : Reg) (s : State) :
    (noteWrite agent r s).latch = s.latch := rfl
@[simp] theorem noteWrite_acc1 (agent : Nat) (r : Reg) (s : State) :
    (noteWrite agent r s).acc1 = s.acc1 := rfl
@[simp] theorem noteWrite_acc2 (agent : Nat) (r : Reg) (s : State) :
    (noteWrite agent r s).acc2 = s.acc2 := rfl
@[simp] theorem noteWrite_ks (agent : Nat) (r : Reg) (s : State) :
    (noteWrite agent r s).ks = s.ks := rfl
@[simp] theorem noteWrite_blkbuf (agent : Nat) (r : Reg) (s : State) :
    (noteWrite agent r s).blkbuf = s.blkbuf := rfl
@[simp] theorem noteWrite_scratch (agent : Nat) (r : Reg) (s : State) :
    (noteWrite agent r s).scratch = s.scratch := rfl
@[simp] theorem noteWrite_pathsel (agent : Nat) (r : Reg) (s : State) :
    (noteWrite agent r s).pathsel = s.pathsel := rfl
@[simp] theorem noteWrite_mem (agent : Nat) (r : Reg) (s : State) :
    (noteWrite agent r s).mem = s.mem := rfl
@[simp] theorem noteWrite_resetActive (agent : Nat) (r : Reg) (s : State) :
    (noteWrite agent r s).resetActive = s.resetActive := rfl
@[simp] theorem noteWrite_inputs (agent : Nat) (r : Reg) (s : State) :
    (noteWrite agent r s).inputs = s.inputs := rfl
@[simp] theorem noteWrite_response (agent : Nat) (r : Reg) (s : State) :
    (noteWrite agent r s).response = s.response := rfl
@[simp] theorem noteWrite_unseen (agent : Nat) (r : Reg) (s : State) :
    (noteWrite agent r s).unseen = s.unseen := rfl
@[simp] theorem noteWrite_owner (agent : Nat) (r : Reg) (s : State) :
    (noteWrite agent r s).owner = if opensSequence r s then some agent else s.owner := rfl
@[simp] theorem noteWrite_hostDirty (agent : Nat) (r : Reg) (s : State) :
    (noteWrite agent r s).hostDirty = s.hostDirty := rfl
@[simp] theorem noteWrite_dmaDirty (agent : Nat) (r : Reg) (s : State) :
    (noteWrite agent r s).dmaDirty = s.dmaDirty := rfl
@[simp] theorem noteWrite_draws (agent : Nat) (r : Reg) (s : State) :
    (noteWrite agent r s).draws = s.draws := rfl

end Sys2Proof.Laws
end

