-- ==== Sys2Proof/Laws/Bodies.lean ====
section
/-! SUPPORT. What the bodies compute: the loops of reads and writes, byte for byte, and how each body ends. The
rules are in terms of `wp`; their error branch says why a body could not succeed, so that one rule serves both
"it completes" and "if it completed, then". -/

namespace Sys2Proof.Laws

open Sys2Proof Sys2Proof.Machine Sys2Proof.Safety

/-! ### Small facts -/

theorem refuses_of_cfg {s t : State} (h : t.cfg = s.cfg) (a : Nat) (d : Dir) :
    t.refuses a d = s.refuses a d := by simp [State.refuses, h]

theorem bytesFrom_eq_iff (t : State) (a : Nat) (l : List Byte) :
    bytesFrom t a l.length = l ↔ ∀ j (h : j < l.length), t.byteAt (a + j) = l[j] := by
  constructor
  · intro h j hj
    have := congrArg (fun m : List Byte => m[j]?) h
    simpa [bytesFrom, hj] using this
  · intro h
    apply List.ext_getElem (by simp [bytesFrom])
    intro j hj hj'
    simpa [bytesFrom] using h j hj'

theorem holds_iff (t : State) (a : Nat) (l : List Byte) :
    Holds t a l ↔ ∀ j (h : j < l.length), t.byteAt (a + j) = l[j] := bytesFrom_eq_iff t a l

@[simp] theorem sourceBytes_length (s : State) : (sourceBytes s).length = s.latch.srclen.toNat := by
  simp [sourceBytes]

theorem sourceBytes_getElem (s : State) {i : Nat} (h : i < (sourceBytes s).length) :
    (sourceBytes s)[i] = s.byteAt (s.latch.srcAt i) := by simp [sourceBytes]

/-- Two ranges that do not overlap share no byte. -/
theorem not_contains_of_disjoint {r q : Range} (h : r.overlaps q = false) {a : Nat}
    (ha : r.contains a = true) : q.contains a = false := by
  rw [contains_iff] at ha
  rw [contains_false_iff]
  simp only [Range.overlaps, Bool.and_eq_false_iff, decide_eq_false_iff_not, not_lt] at h
  omega

theorem overlaps_comm (r q : Range) : r.overlaps q = q.overlaps r := by
  rw [Bool.eq_iff_iff]
  simp only [Range.overlaps, Bool.and_eq_true, decide_eq_true_eq]
  omega

/-- A command ends in E_RANGE or E_OVERLAP from the common checks, or as its body does (R114, R116, R117). -/
theorem runCommand_cases {P : State → Prop} {s : State} {body : Latched → Cmd Nat}
    (hr : (s.latch.source.valid && s.latch.dest.valid) = false → P (complete .range 0 s))
    (ho : (s.latch.source.valid && s.latch.dest.valid) = true →
      s.latch.source.overlaps s.latch.dest = true → P (complete .overlap 0 s))
    (hb : RangesOk s.latch →
      wp (body s.latch) (fun n t => P (complete .ok n t)) (fun e t => P (complete e 0 t)) s) :
    P (runCommand body s) := by
  apply runCommand_of_wp
  simp only [checkRanges, checkOverlap, wp_bind, wp_raiseWhen]
  refine ⟨fun h => hr (by simpa only [Bool.not_eq_true'] using h), fun h => ?_⟩
  replace h : (s.latch.source.valid && s.latch.dest.valid) = true := by
    simpa only [Bool.not_eq_false'] using h
  refine ⟨ho h, fun h' => hb ?_⟩
  rw [Bool.and_eq_true] at h
  exact ⟨h.1, h.2, h'⟩

/-- What holds of a body that the common checks let run. -/
theorem runCommand_runs {P : State → Prop} {s : State} {body : Latched → Cmd Nat} (h : RangesOk s.latch)
    (hb : wp (body s.latch) (fun n t => P (complete .ok n t)) (fun e t => P (complete e 0 t)) s) :
    P (runCommand body s) :=
  runCommand_of_body ⟨h.1, h.2.1⟩ h.2.2 hb

/-- The first error of a command whose ranges pass the common checks is that of its body. -/
theorem firstError_checksInOrder {i : Instr} {s : State} (h : RangesOk s.latch) :
    firstError (checksInOrder i s) = firstError (bodyChecks i s) := by
  obtain ⟨h1, h2, h3⟩ := h
  simp [checksInOrder, commonChecks, firstError, h1, h2, h3]

/-! ### A run of writes -/

/-- The state after bytes `f i, f (i+1), …` are written at `base + i, …`, up to index `j`. -/
def Wrote (base : Nat) (f : Nat → Byte) (i j : Nat) (s t : State) : Prop :=
  ∃ m, t = { s with mem := m } ∧
    ∀ a, t.byteAt a = if base + i ≤ a ∧ a < base + j then f (a - base) else s.byteAt a

theorem wrote_refl (base : Nat) (f : Nat → Byte) (i : Nat) (s : State) : Wrote base f i i s s :=
  ⟨s.mem, rfl, fun a => by rw [if_neg (by omega)]⟩

theorem wrote_succ {base : Nat} {f : Nat → Byte} {i j : Nat} {s t : State} (hij : i ≤ j)
    (h : Wrote base f i j s t) : Wrote base f i (j + 1) s (t.putByte (base + j) (f j)) := by
  obtain ⟨m, rfl, hm⟩ := h
  refine ⟨Memory.write m (base + j) (f j), rfl, fun a => ?_⟩
  rw [byteAt_putByte, hm]
  by_cases ha : a = base + j
  · subst ha
    rw [if_pos rfl, if_pos (by omega), Nat.add_sub_cancel_left]
  · rw [if_neg ha]
    by_cases hr : base + i ≤ a ∧ a < base + j
    · rw [if_pos hr, if_pos (by omega)]
    · rw [if_neg hr, if_neg (by omega)]

/-- A loop of DMA writes: it writes in ascending order, up to the first refused one. -/
theorem wp_write_loop {Q : Unit → State → Prop} {E : ErrCode → State → Prop} {s : State}
    {g : Nat → Nat} {f : Nat → Byte} {base i n : Nat} (hg : ∀ j, i ≤ j → j < i + n → g j = base + j)
    (hE : ∀ j t, i ≤ j → j < i + n → (∀ k, i ≤ k → k < j → s.refuses (base + k) .write = false) →
      s.refuses (base + j) .write = true → Wrote base f i j s t → E .bus t)
    (hQ : ∀ t, (∀ k, i ≤ k → k < i + n → s.refuses (base + k) .write = false) →
      Wrote base f i (i + n) s t → Q () t) :
    wp (loop (fun j => dmaWrite (g j) (f j)) i n) Q E s := by
  refine wp_loop (fun j t => (∀ k, i ≤ k → k < j → s.refuses (base + k) .write = false) ∧
      Wrote base f i j s t) ⟨fun _ _ _ => by omega, wrote_refl _ _ _ _⟩ (fun j t hj hj' h => ?_)
    (fun t h => hQ t h.1 h.2)
  have hc : t.cfg = s.cfg := by obtain ⟨-, m, rfl, -⟩ := h; rfl
  rw [hg j hj hj', wp_dmaWrite, refuses_of_cfg hc]
  refine ⟨fun hr => hE j t hj hj' h.1 hr h.2, fun hr => ⟨fun k hk hk' => ?_, wrote_succ hj h.2⟩⟩
  by_cases hkj : k = j
  · rw [hkj, hr]
  · exact h.1 k hk (by omega)

theorem Wrote.byteAt_in {base : Nat} {f : Nat → Byte} {i j : Nat} {s t : State} (h : Wrote base f i j s t)
    {k : Nat} (hi : i ≤ k) (hj : k < j) : t.byteAt (base + k) = f k := by
  obtain ⟨-, -, hm⟩ := h
  rw [hm, if_pos (by omega), Nat.add_sub_cancel_left]

theorem Wrote.byteAt_out {base : Nat} {f : Nat → Byte} {i j : Nat} {s t : State} (h : Wrote base f i j s t)
    {a : Nat} (ha : ¬ (base + i ≤ a ∧ a < base + j)) : t.byteAt a = s.byteAt a := by
  obtain ⟨-, -, hm⟩ := h
  rw [hm, if_neg ha]

/-- One run of writes after another. -/
theorem Wrote.append {base : Nat} {f g : Nat → Byte} {n j : Nat} {s t u : State}
    (h : Wrote base f 0 n s t) (h' : Wrote (base + n) g 0 j t u) :
    Wrote base (fun k => if k < n then f k else g (k - n)) 0 (n + j) s u := by
  obtain ⟨m, rfl, hm⟩ := h
  obtain ⟨m', rfl, hm'⟩ := h'
  refine ⟨m', rfl, fun a => ?_⟩
  rw [hm', hm]
  beta_reduce
  by_cases h1 : base ≤ a ∧ a < base + n
  · rw [if_neg (by omega), if_pos (by omega), if_pos (by omega), if_pos (by omega)]
  · by_cases h2 : base + n ≤ a ∧ a < base + n + j
    · rw [if_pos (by omega), if_pos (by omega), if_neg (by omega), Nat.sub_add_eq]
    · rw [if_neg (by omega), if_neg (by omega), if_neg (by omega)]

theorem Wrote.congr {base : Nat} {f g : Nat → Byte} {i j : Nat} {s t : State} (h : Wrote base f i j s t)
    (hfg : ∀ k, i ≤ k → k < j → f k = g k) : Wrote base g i j s t := by
  obtain ⟨m, rfl, hm⟩ := h
  refine ⟨m, rfl, fun a => ?_⟩
  rw [hm]
  by_cases ha : base + i ≤ a ∧ a < base + j
  · rw [if_pos ha, if_pos ha, hfg _ (by omega) (by omega)]
  · rw [if_neg ha, if_neg ha]

/-! ### Completion -/

theorem completedWith_complete {e : ErrCode} {n : Nat} {u : State} (hn : e = .ok → n < 2 ^ 32)
    (h0 : e ≠ .ok → n = 0) : CompletedWith e n (complete e n u) := by
  refine ⟨rfl, ?_, rfl, rfl, rfl, rfl⟩
  by_cases he : e = .ok
  · have := hn he
    simp [he]
    omega
  · simp [he, h0 he]

theorem hostSideSame_of_sameOutside {s u : State} {e : ErrCode} {n : Nat} (h : SameOutside s u) :
    HostSideSame s (complete e n u) := by
  unfold SameOutside at h
  constructor <;> simp only [complete_cfg, complete_ie, complete_cmd, complete_srcAddr, complete_srcLen,
    complete_dstAddr, complete_dstCap, complete_keyLen, complete_key0, complete_key1, complete_heapAddr,
    complete_heapLen, complete_resetActive, complete_inputs, complete_response, complete_unseen,
    complete_owner, complete_hostDirty, complete_dmaDirty] <;> rw [h]

@[simp] theorem byteAt_complete (e : ErrCode) (n : Nat) (u : State) (a : Nat) :
    (complete e n u).byteAt a = u.byteAt a := rfl

theorem hashRegs_of_opc {s u : State} {e : ErrCode} {n : Nat} (h1 : u.h1 = s.h1) (h2 : u.h2 = s.h2)
    (h : e = .ok → opc u.latch.w ≠ 0x01) : HashRegsSame s (complete e n u) := by
  constructor
  · rw [complete_h1, if_neg (fun hc => h hc.1 hc.2), h1]
  · rw [complete_h2, if_neg (fun hc => h hc.1 hc.2), h2]

theorem latch_lt (w : Word) : w.toNat < 2 ^ 32 := w.isLt

/-! ### HASHKEY -/

theorem foldl_take_succ {α β : Type} (f : β → α → β) (b : β) (l : List α) {j : Nat} (h : j < l.length) :
    (l.take (j + 1)).foldl f b = f ((l.take j).foldl f b) l[j] := by
  rw [List.take_succ_eq_append_getElem h, List.foldl_append]
  rfl

theorem fingerprintBytes_getElem (text : List Byte) {j : Nat} (h : j < (fingerprintBytes text).length) :
    (fingerprintBytes text)[j] =
      if j < 4 then byteLane (fingerprint text).1 j else byteLane (fingerprint text).2 (j - 4) := by
  have h8 : j < 8 := by simpa [fingerprintBytes, le32] using h
  interval_cases j <;> rfl

/-- The reading loop of HASHKEY: the accumulators hold the fingerprint of the bytes read so far. -/
theorem wp_hash_loop {Q : Unit → State → Prop} {E : ErrCode → State → Prop} (s : State)
    (hE : ∀ a t, s.latch.source.contains a = true → s.refuses a .read = true →
      t = { s with acc1 := t.acc1, acc2 := t.acc2 } → E .bus t)
    (hQ : Allows s s.latch.source .read →
      Q () { s with acc1 := (fingerprint (sourceBytes s)).1, acc2 := (fingerprint (sourceBytes s)).2 }) :
    wp (loop (fun i => do absorbByte (← dmaRead (s.latch.srcAt i))) 0 s.latch.srclen.toNat) Q E
      { s with acc1 := h1Seed, acc2 := h2Seed } := by
  refine wp_loop (fun j t => (∀ k, k < j → s.refuses (s.latch.srcAt k) .read = false) ∧ t = { s with
      acc1 := (((sourceBytes s).take j).foldl fpStep (h1Seed, h2Seed)).1
      acc2 := (((sourceBytes s).take j).foldl fpStep (h1Seed, h2Seed)).2 })
    ⟨fun k hk => absurd hk (Nat.not_lt_zero k), rfl⟩ (fun j t _ hj h => ?_) (fun t h => ?_)
  · have hlt : j < (sourceBytes s).length := by simpa using hj
    have hc : t.cfg = s.cfg := by rw [h.2]
    rw [wp_bind, wp_dmaRead, refuses_of_cfg hc]
    refine ⟨fun hr => hE (s.latch.srcAt j) t ?_ hr (by rw [h.2]), fun hr => ?_⟩
    · rw [contains_iff]
      simp only [Latched.source, Latched.srcAt]; omega
    · rw [wp_absorbByte, foldl_take_succ _ _ _ hlt, sourceBytes_getElem s hlt]
      refine ⟨fun k hk => ?_, by rw [h.2]; rfl⟩
      by_cases hkj : k = j
      · rw [hkj, hr]
      · exact h.1 k (by omega)
  · rw [h.2, List.take_of_length_le (by simp)]
    refine hQ fun a ha => ?_
    rw [contains_iff] at ha
    simp only [Latched.source] at ha
    have := h.1 (a - s.latch.src.toNat) (by omega)
    rwa [Latched.srcAt, show s.latch.src.toNat + (a - s.latch.src.toNat) = a by omega] at this

/-- The state after HASHKEY has read its text. -/
def hashed (s : State) : State :=
  { s with acc1 := (fingerprint (sourceBytes s)).1, acc2 := (fingerprint (sourceBytes s)).2 }

/-- Byte `j` of the fingerprint of the text. -/
def hashByte (s : State) (j : Nat) : Byte :=
  if j < 4 then byteLane (fingerprint (sourceBytes s)).1 j
  else byteLane (fingerprint (sourceBytes s)).2 (j - 4)

/-- R150: how HASHKEY's body ends. -/
theorem wp_hashkeyBody {Q : Nat → State → Prop} {E : ErrCode → State → Prop} (s : State)
    (hcap : s.latch.dstcap.toNat < 8 → E .dstcap s)
    (hread : 8 ≤ s.latch.dstcap.toNat → ∀ a t, s.latch.source.contains a = true →
      s.refuses a .read = true → t = { s with acc1 := t.acc1, acc2 := t.acc2 } → E .bus t)
    (hwrite : 8 ≤ s.latch.dstcap.toNat → Allows s s.latch.source .read → ∀ k t, k < 8 →
      (∀ j, j < k → s.refuses (s.latch.dst.toNat + j) .write = false) →
      s.refuses (s.latch.dst.toNat + k) .write = true →
      Wrote s.latch.dst.toNat (hashByte s) 0 k (hashed s) t → E .bus t)
    (hQ : 8 ≤ s.latch.dstcap.toNat → Allows s s.latch.source .read →
      (∀ j, j < 8 → s.refuses (s.latch.dst.toNat + j) .write = false) →
      ∀ t, Wrote s.latch.dst.toNat (hashByte s) 0 8 (hashed s) t → Q 8 t) :
    wp (hashkeyBody s.latch) Q E s := by
  unfold hashkeyBody
  rw [wp_bind, wp_raiseWhen]
  refine ⟨fun h => hcap (by simpa using h), fun h => ?_⟩
  replace h : 8 ≤ s.latch.dstcap.toNat := by simpa using h
  rw [wp_bind, wp_loadSeeds, wp_bind]
  refine wp_hash_loop s (hread h) fun hr => ?_
  rw [wp_bind, wp_get, wp_bind]
  refine wp_write_loop (base := s.latch.dst.toNat) (fun _ _ _ => rfl)
    (fun j t _ hj hp hw ht => hwrite h hr j t (by omega) (fun k hk => hp k (Nat.zero_le k) hk) hw
      (ht.congr fun k _ hk => by rw [hashByte, if_pos (by omega)])) fun t hp ht => ?_
  rw [wp_bind]
  have hc : t.cfg = s.cfg := by obtain ⟨m, rfl, -⟩ := ht; rfl
  have lane : ∀ k n, 4 + n ≤ 8 → k < 4 + n →
      (if k < 4 then byteLane (hashed s).acc1 k else byteLane (hashed s).acc2 (k - 4)) =
        hashByte s k := fun k n _ _ => rfl
  have both : ∀ n, (∀ k, 0 ≤ k → k < n → t.refuses (s.latch.dst.toNat + 4 + k) .write = false) →
      ∀ k, k < 4 + n → s.refuses (s.latch.dst.toNat + k) .write = false := fun n hq k hk => by
    by_cases h4 : k < 4
    · exact hp k (Nat.zero_le k) (by omega)
    · have := hq (k - 4) (Nat.zero_le _) (by omega)
      rwa [refuses_of_cfg hc, show s.latch.dst.toNat + 4 + (k - 4) = s.latch.dst.toNat + k by omega] at this
  refine wp_write_loop (base := s.latch.dst.toNat + 4) (fun j _ _ => by
      simp only [Latched.dstAt]; omega)
    (fun j u _ hj hq hw hu => ?_) fun u hq hu => ?_
  · refine hwrite h hr (4 + j) u (by omega) (both j hq) ?_
      ((ht.append hu).congr fun k _ hk => lane k j (by omega) hk)
    rwa [refuses_of_cfg hc, Nat.add_assoc] at hw
  · exact hQ h hr (both 4 hq) u ((ht.append hu).congr fun k _ hk => lane k 4 (by omega) hk)

end Sys2Proof.Laws
end

