-- ==== Sys2Proof/Laws/Cipher.lean ====
section
/-! SUPPORT. The parts of the default DES that its inverse is made of: selection by a table bit for bit, the two
permutations, the rounds run backwards, and the bytes and bits of a block. -/

namespace Sys2Proof.Laws

open Sys2Proof Sys2Proof.Machine

/-! ### Selection by a table -/

theorem testBit_pickNat {n : Nat} (v : BitVec n) (t : List Nat) (acc i : Nat) :
    (pickNat v t acc).testBit i =
      if i < t.length then v.getMsbD (t.getD (t.length - 1 - i) 0 - 1) else acc.testBit (i - t.length) := by
  induction t generalizing acc with
  | nil => simp [pickNat]
  | cons x t ih =>
    rw [pickNat, ih, List.length_cons]
    by_cases h : i < t.length
    · rw [if_pos h, if_pos (by omega), show t.length + 1 - 1 - i = (t.length - 1 - i) + 1 by omega,
        List.getD_cons_succ]
    · rw [if_neg h]
      by_cases he : i = t.length
      · rw [if_pos (by omega), he, Nat.sub_self, Nat.add_sub_cancel, Nat.sub_self, List.getD_cons_zero,
          Nat.testBit_zero]
        cases v.getMsbD (x - 1) <;> simp
      · rw [if_neg (by omega), show i - t.length = (i - (t.length + 1)) + 1 by omega, Nat.testBit_succ]
        congr 1
        cases v.getMsbD (x - 1) <;> simp; omega

/-- Bit `i` of a selection is the bit of the word that the table names. -/
theorem getMsbD_pick {n m : Nat} {t : List Nat} (v : BitVec n) (ht : t.length = m) {i : Nat} (h : i < m) :
    (pick m t v).getMsbD i = v.getMsbD (t.getD i 0 - 1) := by
  rw [pick, BitVec.getMsbD_eq_getLsbD, BitVec.getLsbD_ofNat, testBit_pickNat, ht, if_pos (by omega),
    show m - 1 - (m - 1 - i) = i by omega]
  simp [h, show m - 1 - i < m by omega]

/-- Two tables of which the second undoes the first. -/
theorem pick_pick_cancel {t u : List Nat} {v : BitVec 64} (ht : t.length = 64) (hu : u.length = 64)
    (h : ∀ i, i < 64 → u.getD i 0 - 1 < 64 ∧ t.getD (u.getD i 0 - 1) 0 - 1 = i) :
    pick 64 u (pick 64 t v) = v := by
  apply BitVec.eq_of_getMsbD_eq
  intro i hi
  rw [getMsbD_pick _ hu hi, getMsbD_pick _ ht (h i hi).1, (h i hi).2]

theorem fp_ip (v : BitVec 64) : pick 64 DesTable.fp (pick 64 DesTable.ip v) = v :=
  pick_pick_cancel rfl rfl (by decide +kernel)

theorem ip_fp (v : BitVec 64) : pick 64 DesTable.ip (pick 64 DesTable.fp v) = v :=
  pick_pick_cancel rfl rfl (by decide +kernel)

/-! ### Bytes and bits of a block -/

theorem extract_low {n m : Nat} (x : BitVec n) (y : BitVec m) : (x ++ y).extractLsb' 0 m = y := by
  ext i hi
  simp [BitVec.getLsbD_append, hi]

theorem extract_high {n m : Nat} (x : BitVec n) (y : BitVec m) (k l : Nat) :
    (x ++ y).extractLsb' (k + m) l = x.extractLsb' k l := by
  ext i hi
  rw [BitVec.getElem_extractLsb', BitVec.getElem_extractLsb', BitVec.getLsbD_append, if_neg (by omega),
    show k + m + i - m = k + i by omega]

theorem extract_all {n : Nat} (x : BitVec n) : x.extractLsb' 0 n = x := by simp

@[simp] theorem block_ofBits_toBits (b : Block) : Block.ofBits b.toBits = b := by
  obtain ⟨b0, b1, b2, b3, b4, b5, b6, b7⟩ := b
  have h {n : Nat} (x : BitVec n) (y : Byte) (k : Nat) := extract_high x y k 8
  have l {n : Nat} (x : BitVec n) (y : Byte) := extract_low x y
  simp only [Block.ofBits, Block.toBits, Block.mk.injEq]
  exact ⟨(h _ _ 48).trans <| (h _ _ 40).trans <| (h _ _ 32).trans <| (h _ _ 24).trans <|
      (h _ _ 16).trans <| (h _ _ 8).trans <| (h _ _ 0).trans <| extract_all _,
    (h _ _ 40).trans <| (h _ _ 32).trans <| (h _ _ 24).trans <| (h _ _ 16).trans <| (h _ _ 8).trans <|
      (h _ _ 0).trans <| l _ _,
    (h _ _ 32).trans <| (h _ _ 24).trans <| (h _ _ 16).trans <| (h _ _ 8).trans <| (h _ _ 0).trans <| l _ _,
    (h _ _ 24).trans <| (h _ _ 16).trans <| (h _ _ 8).trans <| (h _ _ 0).trans <| l _ _,
    (h _ _ 16).trans <| (h _ _ 8).trans <| (h _ _ 0).trans <| l _ _,
    (h _ _ 8).trans <| (h _ _ 0).trans <| l _ _, (h _ _ 0).trans <| l _ _, l _ _⟩

@[simp] theorem block_toBits_ofBits (v : BitVec 64) : (Block.ofBits v).toBits = v := by
  simp only [Block.ofBits, Block.toBits]
  ext i hi
  simp only [BitVec.getElem_append, BitVec.getElem_extractLsb']
  repeat' split
  all_goals (rw [← BitVec.getLsbD_eq_getElem]; congr 1; omega)

/-! ### The rounds -/

theorem desRounds_append (a b : List (BitVec 48)) (x : BitVec 32 × BitVec 32) :
    desRounds (a ++ b) x = desRounds b (desRounds a x) := by
  induction a generalizing x with
  | nil => rfl
  | cons k a ih => exact ih _

/-- The rounds run backwards on the exchanged halves give the exchanged start. -/
theorem desRounds_reverse (keys : List (BitVec 48)) (x : BitVec 32 × BitVec 32) :
    desRounds keys.reverse (desRounds keys x).swap = x.swap := by
  induction keys generalizing x with
  | nil => rfl
  | cons k keys ih =>
    rw [List.reverse_cons, desRounds_append, show desRounds (k :: keys) x =
      desRounds keys (x.2, x.1 ^^^ desF x.2 k) from rfl, ih]
    simp [desRounds, Prod.swap]

/-- The two permutations at the ends cancel, and leave the halves exchanged. -/
theorem desSplit_desJoin (x : BitVec 32 × BitVec 32) : desSplit (desJoin x) = x.swap := by
  simp only [desSplit, desJoin, block_toBits_ofBits, ip_fp, Prod.swap]
  exact Prod.ext ((extract_high x.2 x.1 0 32).trans (extract_all _)) (extract_low x.2 x.1)

theorem desJoin_swap_desSplit (b : Block) : desJoin (desSplit b).swap = b := by
  have : (pick 64 DesTable.ip b.toBits).extractLsb' 32 32 ++ (pick 64 DesTable.ip b.toBits).extractLsb' 0 32 =
      pick 64 DesTable.ip b.toBits := by
    ext i hi
    simp only [BitVec.getElem_append, BitVec.getElem_extractLsb']
    split
    all_goals (rw [← BitVec.getLsbD_eq_getElem]; congr 1; omega)
  simp only [desSplit, desJoin, Prod.swap, this, fp_ip, block_ofBits_toBits]

end Sys2Proof.Laws
end

