-- ==== Sys2Proof/Laws/HexBodies.lean ====
section
/-! SUPPORT. How the bodies of HEX_ENC and HEX_DEC end, on either path (spec 42_hex_codec.md R160 to R168). -/

namespace Sys2Proof.Laws

open Sys2Proof Sys2Proof.Machine Sys2Proof.Safety

variable {Q : Unit → State → Prop} {E : ErrCode → State → Prop} {L : Latched}

/-! ### The buffer -/

/-- Byte `k` of the ScratchBuffer is `v` (R162). -/
def BufByte (L : Latched) (buf : Backing) (t : State) (k : Nat) (v : Byte) : Prop :=
  match buf with
  | .scratch => lookupCell t.scratch k = some v
  | .heap => t.byteAt (L.heapAt k) = v

/-- The first `j` bytes of a buffer of length `n` have been written with `f`, and nothing else. -/
def Buffered (L : Latched) (buf : Backing) (n : Nat) (f : Nat → Byte) (j : Nat) (s t : State) : Prop :=
  ∃ sc m, t = { s with scratch := sc, mem := m } ∧ (∀ k, k < j → BufByte L buf t k (f k)) ∧
    (∀ a, (buf = .heap → (L.heapRegion n).contains a = false) → t.byteAt a = s.byteAt a)

theorem buffered_zero (buf : Backing) (n : Nat) (f : Nat → Byte) (s : State) :
    Buffered L buf n f 0 s s :=
  ⟨s.scratch, s.mem, rfl, fun _ h => absurd h (Nat.not_lt_zero _), fun _ _ => rfl⟩

theorem Buffered.cfg {buf : Backing} {n j : Nat} {f : Nat → Byte} {s t : State}
    (h : Buffered L buf n f j s t) : t.cfg = s.cfg := by
  obtain ⟨sc, m, rfl, -⟩ := h; rfl

/-- The heap region of `n` bytes holds its byte `k < n`. -/
theorem heapAt_contains {n k : Nat} (h : k < n) : (L.heapRegion n).contains (L.heapAt k) = true := by
  rw [contains_iff]; simp only [Latched.heapRegion, Latched.heapAt]; omega

theorem wp_bufWrite {buf : Backing} {n j : Nat} {f : Nat → Byte} {s t : State} (hj : j < n)
    (h : Buffered L buf n f j s t)
    (hE : buf = .heap → s.refuses (L.heapAt j) .write = true → E .bus t)
    (hQ : ∀ u, (buf = .heap → s.refuses (L.heapAt j) .write = false) → Buffered L buf n f (j + 1) s u → Q () u) :
    wp (bufWrite L buf j (f j)) Q E t := by
  have hc := h.cfg
  obtain ⟨sc, m, ht, hb, hm⟩ := h
  cases buf with
  | scratch =>
    rw [bufWrite, wp_scratchWrite]
    refine hQ _ (fun he => by cases he) ⟨_, _, by rw [ht], fun k hk => ?_, hm⟩
    by_cases hkj : k = j
    · subst hkj
      exact lookupCell_insertCell_same _ (lookupCell_eraseCell_same _ _)
    · show lookupCell (insertCell j (f j) (eraseCell t.scratch j)) k = some (f k)
      rw [lookupCell_insertCell_other _ _ hkj, lookupCell_eraseCell_other _ hkj]
      exact hb k (by omega)
  | heap =>
    rw [bufWrite, wp_dmaWrite, refuses_of_cfg hc]
    refine ⟨fun hr => hE rfl hr, fun hr => hQ _ (fun _ => hr) ⟨sc, Memory.write t.mem (L.heapAt j) (f j), ?_, fun k hk => ?_,
      fun a ha => ?_⟩⟩
    · rw [State.putByte, ht]
    · show (t.putByte (L.heapAt j) (f j)).byteAt (L.heapAt k) = f k
      rw [byteAt_putByte]
      by_cases hkj : k = j
      · rw [if_pos (by rw [hkj]), hkj]
      · rw [if_neg (by simp only [Latched.heapAt]; omega)]
        exact hb k (by omega)
    · have hne : a ≠ L.heapAt j := fun he => by
        have := ha rfl
        rw [he, heapAt_contains hj] at this
        cases this
      rw [byteAt_putByte_other _ _ hne]
      exact hm a ha

theorem wp_bufRead {Q : Byte → State → Prop} {buf : Backing} {k : Nat} {v : Byte} {t : State}
    (h : BufByte L buf t k v) (hE : buf = .heap → t.refuses (L.heapAt k) .read = true → E .bus t)
    (hQ : (buf = .heap → t.refuses (L.heapAt k) .read = false) → Q v t) : wp (bufRead L buf k) Q E t := by
  cases buf with
  | scratch =>
    rw [bufRead, wp_scratchRead, (h : lookupCell t.scratch k = some v)]
    exact hQ fun he => by cases he
  | heap =>
    rw [bufRead, wp_dmaRead, (h : t.byteAt (L.heapAt k) = v)]
    exact ⟨fun hr => hE rfl hr, fun hr => hQ fun _ => hr⟩

/-- R162: the copy-out of a full buffer, up to the first refused access. -/
theorem wp_copyout {buf : Backing} {n : Nat} {f : Nat → Byte} {t : State}
    (hb : ∀ k, k < n → BufByte L buf t k (f k))
    (hdis : buf = .heap → ∀ a, (L.heapRegion n).contains a = true →
      ¬ (L.dst.toNat ≤ a ∧ a < L.dst.toNat + n))
    (hE : ∀ k u, k < n → (∀ j, j < k → (buf = .heap → t.refuses (L.heapAt j) .read = false) ∧
        t.refuses (L.dstAt j) .write = false) →
      (buf = .heap ∧ t.refuses (L.heapAt k) .read = true) ∨ t.refuses (L.dstAt k) .write = true →
      Wrote L.dst.toNat f 0 k t u → E .bus u)
    (hQ : ∀ u, (∀ j, j < n → (buf = .heap → t.refuses (L.heapAt j) .read = false) ∧
        t.refuses (L.dstAt j) .write = false) → Wrote L.dst.toNat f 0 n t u → Q () u) :
    wp (copyout L buf n) Q E t := by
  unfold copyout
  refine wp_loop (fun j u => (∀ i, i < j → (buf = .heap → t.refuses (L.heapAt i) .read = false) ∧
      t.refuses (L.dstAt i) .write = false) ∧ Wrote L.dst.toNat f 0 j t u)
    ⟨fun i hi => absurd hi (Nat.not_lt_zero i), wrote_refl _ _ _ _⟩
    (fun j u _ hj h => ?_) (fun u h => hQ u (by simpa using h.1) (by simpa using h.2))
  have hj' : j < n := by omega
  have hc : u.cfg = t.cfg := by obtain ⟨-, m, rfl, -⟩ := h; rfl
  rw [wp_bind]
  refine wp_bufRead (v := f j) ?_
    (fun he hr => hE j u hj' h.1 (.inl ⟨he, by rwa [refuses_of_cfg hc] at hr⟩) h.2) fun hread => ?_
  · cases buf with
    | scratch =>
      obtain ⟨-, m, rfl, -⟩ := h
      exact hb j hj'
    | heap =>
      show u.byteAt (L.heapAt j) = f j
      rw [h.2.byteAt_out (fun hr => hdis rfl _ (heapAt_contains hj') (by omega))]
      exact hb j hj'
  · rw [wp_dmaWrite, refuses_of_cfg hc]
    refine ⟨fun hr => hE j u hj' h.1 (.inr hr) h.2, fun hr => ⟨fun i hi => ?_, wrote_succ (Nat.zero_le j) h.2⟩⟩
    by_cases hij : i = j
    · subst hij
      exact ⟨fun he => by rw [← refuses_of_cfg hc]; exact hread he, hr⟩
    · exact h.1 i (by omega)

/-! ### Draws and the release -/

theorem drawRange_frame (keep : Nat → Bool) (a n : Nat) (s : State) :
    ∃ m d, drawRange keep a n s = { s with mem := m, draws := d } := by
  induction n generalizing a s with
  | zero => exact ⟨s.mem, s.draws, rfl⟩
  | succ n ih =>
    rw [drawRange]
    obtain ⟨m, d, h⟩ := ih (a + 1) (if (keep a || decide (2 ^ 32 ≤ a)) then s else drawByte a s)
    rw [h]
    split
    · exact ⟨m, d, rfl⟩
    · exact ⟨m, d, rfl⟩

theorem byteAt_drawRange_out (keep : Nat → Bool) {a n b : Nat} (s : State)
    (h : ¬ (a ≤ b ∧ b < a + n) ∨ keep b = true) :
    (drawRange keep a n s).byteAt b = s.byteAt b := by
  induction n generalizing a s with
  | zero => rfl
  | succ n ih =>
    rw [drawRange, ih _ (h.imp (fun h => by omega) id)]
    split
    · rfl
    · rename_i hc
      rw [byteAt_drawByte, if_neg]
      rintro rfl
      rcases h with h | h
      · omega
      · simp [h] at hc

theorem byteAt_drawRange (keep : Nat → Bool) (a n b : Nat) (s : State) :
    (drawRange keep a n s).byteAt b = s.byteAt b ∨ ∃ k, (drawRange keep a n s).byteAt b = Config.freeByte k := by
  induction n generalizing a s with
  | zero => exact .inl rfl
  | succ n ih =>
    rw [drawRange]
    split
    · exact ih _ _
    · rcases ih (a + 1) (drawByte a s) with h | h
      · rw [h, byteAt_drawByte]
        split
        · exact .inr ⟨_, rfl⟩
        · exact .inl rfl
      · exact .inr h

theorem byteAt_drawRange_in (keep : Nat → Bool) {a n b : Nat} (s : State) (h : a ≤ b ∧ b < a + n)
    (hk : keep b = false) (hlt : b < 2 ^ 32) : ∃ k, (drawRange keep a n s).byteAt b = Config.freeByte k := by
  induction n generalizing a s with
  | zero => omega
  | succ n ih =>
    rw [drawRange]
    by_cases hb : b = a
    · subst hb
      rw [byteAt_drawRange_out _ _ (.inl (by omega)), if_neg (by simp [hk]; omega), byteAt_drawByte, if_pos rfl]
      exact ⟨_, rfl⟩
    · exact ih _ (by omega)

/-- The release leaves everything but memory and the counter alone. -/
theorem releaseBuffer_frame (L : Latched) (b : Bool) (n : Nat) (s : State) :
    ∃ m d, releaseBuffer L b n s = { s with mem := m, draws := d } := by
  unfold releaseBuffer
  split
  · exact drawRange_frame _ _ _ s
  · exact ⟨s.mem, s.draws, rfl⟩

/-- The release changes only bytes of the used heap region, and none of the source and the destination range. -/
theorem byteAt_releaseBuffer {L : Latched} {b : Bool} {n a : Nat} (s : State)
    (h : b = false ∨ (L.usedHeap n).contains a = false ∨ L.source.contains a = true ∨ L.dest.contains a = true) :
    (releaseBuffer L b n s).byteAt a = s.byteAt a := by
  unfold releaseBuffer
  split
  · rename_i hb
    refine byteAt_drawRange_out _ _ ?_
    rcases h with h | h | h | h
    · rw [h] at hb; cases hb
    · exact .inl ((contains_false_iff _ _).1 h)
    · exact .inr (by simp [h])
    · exact .inr (by simp [h])
  · rfl

theorem usedHeap_heap {s : State} {n : Nat} (h : s.cfg.scratchCap < n) : usedHeap s n = s.latch.usedHeap n := by
  rw [usedHeap, heapRegionUsed, if_neg (by omega)]

theorem usedHeap_scratch {s : State} {n : Nat} (h : n ≤ s.cfg.scratchCap) : usedHeap s n = ⟨0, 0⟩ := by
  rw [usedHeap, heapRegionUsed, if_pos h]

/-- After the release the used heap region holds free values (R120). -/
theorem heapFree_release (s : State) (n : Nat) (t : State) :
    HeapFree s n (releaseBuffer s.latch (decide (s.cfg.scratchCap < n)) n t) := by
  intro a ha hs hd hlt
  by_cases hn : s.cfg.scratchCap < n
  · rw [usedHeap_heap hn, contains_iff] at ha
    rw [releaseBuffer, if_pos (decide_eq_true hn)]
    exact byteAt_drawRange_in _ _ ha (by simp [hs, hd]) hlt
  · rw [usedHeap_scratch (by omega), contains_iff] at ha
    simp only at ha
    omega

/-! ### How a hex command ends -/

/-- What a hex command with output length `n` has left when it ends with the first `j` result bytes written: those
bytes, free values in the used heap region, and every other byte as before. -/
def HexAt (s : State) (n : Nat) (f : Nat → Byte) (j : Nat) (u : State) : Prop :=
  ∃ sc m d, u = { s with pathsel := decide (s.cfg.scratchCap < n), scratch := sc, mem := m, draws := d } ∧
    (∀ k, k < j → u.byteAt (s.latch.dst.toNat + k) = f k) ∧
    (∀ a, ¬ (s.latch.dst.toNat ≤ a ∧ a < s.latch.dst.toNat + j) →
      (usedHeap s n).contains a = false → u.byteAt a = s.byteAt a) ∧ HeapFree s n u

/-- No access is refused before the copy-out (R205). -/
def FillAllowed (s : State) (n : Nat) : Prop :=
  (∀ k, k < s.latch.srclen.toNat → s.refuses (s.latch.srcAt k) .read = false) ∧
  (s.cfg.scratchCap < n → ∀ k, k < n → s.refuses (s.latch.heapAt k) .write = false)

/-- An access before the copy-out is refused. -/
def FillRefused (s : State) (n : Nat) : Prop :=
  (∃ k, k < s.latch.srclen.toNat ∧ s.refuses (s.latch.srcAt k) .read = true) ∨
  (s.cfg.scratchCap < n ∧ ∃ k, k < n ∧ s.refuses (s.latch.heapAt k) .write = true)

/-- The first `k` bytes are copied out without a refusal. -/
def CopyAllowed (s : State) (n k : Nat) : Prop :=
  ∀ j, j < k → (s.cfg.scratchCap < n → s.refuses (s.latch.heapAt j) .read = false) ∧
    s.refuses (s.latch.dstAt j) .write = false

/-- An access of the copy of byte `k` is refused. -/
def CopyRefused (s : State) (n k : Nat) : Prop :=
  (s.cfg.scratchCap < n ∧ s.refuses (s.latch.heapAt k) .read = true) ∨ s.refuses (s.latch.dstAt k) .write = true

/-- How a hex command with output bytes `f` ends in E_BUS (R203). -/
def HexBus (s : State) (n : Nat) (f : Nat → Byte) (t : State) : Prop :=
  (FillRefused s n ∧ HexAt s n f 0 t) ∨
  (FillAllowed s n ∧ ∃ k, k < n ∧ CopyAllowed s n k ∧ CopyRefused s n k ∧ HexAt s n f k t)

/-- The destination range reads as it did. -/
def DestSame (s t : State) : Prop := ∀ a, s.latch.dest.contains a = true → t.byteAt a = s.byteAt a

theorem DestSame.refl (s : State) : DestSame s s := fun _ _ => rfl

/-- The state in which a failed allocation ends (R161, R120). -/
def allocFailed (s : State) (n : Nat) : State :=
  releaseBuffer s.latch (decide (s.cfg.scratchCap < n)) n { s with pathsel := decide (s.cfg.scratchCap < n) }

theorem destSame_allocFailed (s : State) (n : Nat) : DestSame s (allocFailed s n) :=
  fun _ ha => byteAt_releaseBuffer _ (.inr (.inr (.inr ha)))

theorem allocChecks_ok {s : State} {n : Nat} : firstError (allocChecks s n) = .ok ↔ AllocOk s n := by
  unfold AllocOk allocChecks
  by_cases h1 : s.cfg.scratchCap < n
  · by_cases h2 : s.latch.heaplen.toNat < n
    · simp [firstError, h1, h2, Nat.not_le.2 h2]
    · cases (s.latch.heapRegion n).valid <;>
        cases (s.latch.heapRegion n).overlaps s.latch.source <;>
        cases (s.latch.heapRegion n).overlaps s.latch.dest <;>
        simp [firstError, h1, h2, Nat.not_lt.1 h2]
  · simp [firstError, h1]

/-- With the buffer allocated, the used heap region is disjoint from the other two ranges. -/
theorem usedHeap_disjoint {s : State} {n a : Nat} (h : AllocOk s n) (ha : (usedHeap s n).contains a = true) :
    s.latch.source.contains a = false ∧ s.latch.dest.contains a = false ∧ a < 2 ^ 32 := by
  by_cases hn : s.cfg.scratchCap < n
  · obtain ⟨hl, hv, hs, hd⟩ := h hn
    rw [usedHeap_heap hn, Latched.usedHeap, Nat.min_eq_left hl] at ha
    have hc : (s.latch.heapRegion n).contains a = true := ha
    rw [contains_iff] at ha
    rw [Range.valid, decide_eq_true_eq] at hv
    simp only [Latched.heapRegion] at hv ha
    exact ⟨not_contains_of_disjoint hs hc, not_contains_of_disjoint hd hc, by omega⟩
  · rw [usedHeap_scratch (by omega), contains_iff] at ha
    simp only at ha
    omega

/-- Where the buffer was allocated and nothing is copied out, the destination range reads as it did. -/
theorem HexAt.destSame {s t : State} {n : Nat} {f : Nat → Byte} (h : HexAt s n f 0 t) (ho : AllocOk s n) :
    DestSame s t := by
  intro a ha
  obtain ⟨sc, m, d, -, -, hm, -⟩ := h
  refine hm a (by omega) ?_
  by_contra hc
  rw [(usedHeap_disjoint ho (by simpa using hc)).2.1] at ha
  cases ha

/-- The buffer has been filled in part, and `j` bytes copied out: the release then leaves `HexAt`. -/
theorem hexAt_release {s t u : State} {buf : Backing} {n i j : Nat} {f : Nat → Byte} (ho : AllocOk s n)
    (hn : n ≤ s.latch.dstcap.toNat) (hj : j ≤ n)
    (hb : buf = .heap → s.cfg.scratchCap < n)
    (h : Buffered s.latch buf n f i { s with pathsel := decide (s.cfg.scratchCap < n) } t)
    (hw : Wrote s.latch.dst.toNat f 0 j t u) :
    HexAt s n f j (releaseBuffer s.latch (decide (s.cfg.scratchCap < n)) n u) := by
  obtain ⟨m0, d0, hr⟩ := releaseBuffer_frame s.latch (decide (s.cfg.scratchCap < n)) n u
  have hfree := heapFree_release s n u
  have hout : ∀ a, (usedHeap s n).contains a = false →
      (releaseBuffer s.latch (decide (s.cfg.scratchCap < n)) n u).byteAt a = u.byteAt a := fun a ha => by
    refine byteAt_releaseBuffer u ?_
    by_cases hh : s.cfg.scratchCap < n
    · rw [usedHeap_heap hh] at ha
      exact .inr (.inl ha)
    · exact .inl (decide_eq_false hh)
  obtain ⟨sc, m, ht, -, hm⟩ := h
  obtain ⟨m', hu, -⟩ := id hw
  refine ⟨sc, m0, d0, ?_, fun k hk => ?_, fun a ha hs => ?_, hfree⟩
  · rw [hr, hu, ht]
  · have hd : s.latch.dest.contains (s.latch.dst.toNat + k) = true := by
      rw [contains_iff]; simp only [Latched.dest]; omega
    rw [byteAt_releaseBuffer u (.inr (.inr (.inr hd))), hw.byteAt_in (Nat.zero_le k) hk]
  · rw [hout a hs, hw.byteAt_out (by omega), hm a fun he => ?_]
    · rfl
    · have hh := hb he
      rwa [usedHeap_heap hh, Latched.usedHeap, Nat.min_eq_left (ho hh).1] at hs

/-- The part of a hex command from the allocation on (R160 to R162); `V` is what its filling loop finds out, and `WE`
says of a code the loop raises why it does. -/
theorem wp_hexTail {Q : Nat → State → Prop} (s : State) {n : Nat} {f : Nat → Byte} {V : Prop}
    {WE : ErrCode → Prop} {work : Backing → Cmd Unit} (hn : n ≤ s.latch.dstcap.toNat)
    (halloc : ∀ e, e ≠ .ok → e = firstError (allocChecks s n) → E e (allocFailed s n))
    (hfill : AllocOk s n → ∀ e t, WE e → HexAt s n f 0 t → E e t)
    (hcopy : AllocOk s n → V → ∀ k t, k < n → CopyAllowed s n k → CopyRefused s n k → HexAt s n f k t → E .bus t)
    (hwork : ∀ buf, AllocOk s n → (buf = .heap ↔ s.cfg.scratchCap < n) →
      wp (work buf)
        (fun _ t => Buffered s.latch buf n f n { s with pathsel := decide (s.cfg.scratchCap < n) } t ∧ V)
        (fun e t => (∃ j, Buffered s.latch buf n f j { s with pathsel := decide (s.cfg.scratchCap < n) } t) ∧ WE e)
        { s with pathsel := decide (s.cfg.scratchCap < n) })
    (hQ : AllocOk s n → V → CopyAllowed s n n → ∀ u, HexAt s n f n u → Q n u) :
    wp (do
        withBuffer s.latch n fun buf => do
          work buf
          copyout s.latch buf n
        return n : Cmd Nat) Q E s := by
  have run : ∀ buf, AllocOk s n → (buf = .heap ↔ s.cfg.scratchCap < n) →
      wp (do work buf; copyout s.latch buf n : Cmd Unit)
        (fun _ t => Q n (releaseBuffer s.latch (decide (s.cfg.scratchCap < n)) n t))
        (fun e t => E e (releaseBuffer s.latch (decide (s.cfg.scratchCap < n)) n t))
        { s with pathsel := decide (s.cfg.scratchCap < n) } := by
    intro buf hok hbuf
    have hdis : buf = .heap → ∀ a, (s.latch.heapRegion n).contains a = true →
        ¬ (s.latch.dst.toNat ≤ a ∧ a < s.latch.dst.toNat + n) := fun hb a ha hd => by
      have := not_contains_of_disjoint (hok (hbuf.1 hb)).2.2.2 ha
      rw [contains_false_iff] at this
      exact this ⟨hd.1, by simp only [Latched.dest]; omega⟩
    rw [wp_bind]
    refine wp_mono (hwork buf hok hbuf) (fun _ t ht => ?_) (fun e t ht => ?_)
    · obtain ⟨ht, hV⟩ := ht
      have hc : t.cfg = s.cfg := ht.cfg
      have hbytes := ht
      obtain ⟨-, -, -, hb, -⟩ := hbytes
      have hal : ∀ k, (∀ j, j < k → (buf = .heap → t.refuses (s.latch.heapAt j) .read = false) ∧
          t.refuses (s.latch.dstAt j) .write = false) → CopyAllowed s n k := fun k h j hj =>
        ⟨fun hh => by rw [← refuses_of_cfg hc]; exact (h j hj).1 (hbuf.2 hh), by
          rw [← refuses_of_cfg hc]; exact (h j hj).2⟩
      refine wp_copyout hb hdis (fun k u hk hall hr hu => ?_) (fun u hall hu => ?_)
      · refine hcopy hok hV k _ hk (hal k hall) ?_ (hexAt_release hok hn (by omega) hbuf.1 ht hu)
        rw [refuses_of_cfg hc, refuses_of_cfg hc] at hr
        exact hr.imp_left fun h => ⟨hbuf.1 h.1, h.2⟩
      · exact hQ hok hV (hal n hall) _ (hexAt_release hok hn le_rfl hbuf.1 ht hu)
    · obtain ⟨⟨j, ht⟩, hwe⟩ := ht
      exact hfill hok e _ hwe (hexAt_release hok hn (Nat.zero_le n) hbuf.1 ht (wrote_refl _ _ _ _))
  have fail : ∀ e, e ≠ .ok → e = firstError (allocChecks s n) → s.cfg.scratchCap < n →
      E e (releaseBuffer s.latch (decide (s.cfg.scratchCap < n)) n { s with pathsel := true }) := fun e he h hh => by
    have := halloc e he h
    rw [allocFailed] at this
    rwa [show ({ s with pathsel := true } : State) = { s with pathsel := decide (s.cfg.scratchCap < n) } by simp [hh]]
  rw [wp_bind, wp_withBuffer, wp_bind, wp_alloc]
  simp only [wp_pure]
  refine ⟨fun hs => ?_, fun hh => ⟨fun hl => ?_, fun hl => ⟨fun hv => ?_, fun hv => ⟨fun ho => ?_, fun ho => ?_⟩⟩⟩⟩
  · have := run .scratch (fun h => absurd h (by omega)) ⟨fun h => (by cases h), fun h => absurd h (by omega)⟩
    rwa [show decide (s.cfg.scratchCap < n) = false by simp [hs]] at this ⊢
  · exact fail _ (by decide) (by simp [allocChecks, firstError, hh, hl]) hh
  · exact fail _ (by decide) (by simp [allocChecks, firstError, hh, Nat.not_lt.2 hl, hv]) hh
  · exact fail _ (by decide) (by simp [allocChecks, firstError, hh, Nat.not_lt.2 hl, hv, ho]) hh
  · rw [Bool.or_eq_false_iff] at ho
    have := run .heap (fun _ => ⟨hl, hv, ho⟩) ⟨fun _ => hh, fun _ => rfl⟩
    rwa [show decide (s.cfg.scratchCap < n) = true by simp [hh]] at this ⊢

/-! ### Texts -/

@[simp] theorem hexText_length (l : List Byte) : (hexText l).length = 2 * l.length := by
  induction l with
  | nil => rfl
  | cons c l ih =>
    have : (hexText (c :: l)).length = (hexText l).length + 2 := by simp [hexText]
    rw [this, ih, List.length_cons]; omega

theorem hexText_getElem? (l : List Byte) (k : Nat) :
    (hexText l)[k]? =
      (l[k / 2]?).map fun c => if k % 2 = 0 then hexDigit (highNibble c) else hexDigit (lowNibble c) := by
  induction l generalizing k with
  | nil => simp [hexText]
  | cons c l ih =>
    have hc : hexText (c :: l) = hexDigit (highNibble c) :: hexDigit (lowNibble c) :: hexText l := rfl
    match k with
    | 0 => rfl
    | 1 => rfl
    | k + 2 =>
      rw [hc, List.getElem?_cons_succ, List.getElem?_cons_succ, ih, show (k + 2) / 2 = k / 2 + 1 by omega,
        List.getElem?_cons_succ, Nat.add_mod_right]

theorem spelled_length (l : List Byte) : (spelled l).length = l.length / 2 := by
  induction l using spelled.induct with
  | case1 a b l ih => rw [spelled, List.length_cons, ih, List.length_cons, List.length_cons]; omega
  | case2 l h =>
    match l with
    | [] => simp [spelled]
    | [_] => simp [spelled]
    | a :: b :: l => exact absurd rfl (h a b l)

theorem spelled_getElem (l : List Byte) {k : Nat} (h : k < (spelled l).length) :
    (spelled l)[k] = pairByte (l.getD (2 * k) 0) (l.getD (2 * k + 1) 0) := by
  induction l using spelled.induct generalizing k with
  | case1 a b l ih =>
    match k with
    | 0 => rfl
    | k + 1 =>
      have := ih (k := k) (by simpa [spelled] using h)
      simpa [spelled, Nat.mul_add] using this
  | case2 l hl =>
    match l with
    | [] => simp [spelled] at h
    | [_] => simp [spelled] at h
    | a :: b :: l => exact absurd rfl (hl a b l)

/-! ### Digits -/

theorem isHex_hexDigit (d : BitVec 4) : isHex (hexDigit d) = true := by revert d; decide

theorem nibble_hexDigit (d : BitVec 4) : nibble (hexDigit d) = d := by revert d; decide

/-- The two digits of a byte spell it. -/
theorem pairByte_hexDigit (c : Byte) :
    pairByte (hexDigit (highNibble c)) (hexDigit (lowNibble c)) = c := by
  rw [pairByte, nibble_hexDigit, nibble_hexDigit]
  apply BitVec.eq_of_toNat_eq
  simp only [highNibble, lowNibble, BitVec.toNat_append, BitVec.extractLsb'_toNat]
  rw [← Nat.shiftLeft_add_eq_or_of_lt (by omega), Nat.shiftLeft_eq, Nat.shiftRight_eq_div_pow]
  omega

theorem isHex_iff (x : Byte) :
    isHex x = true ↔ (0x30 ≤ x.toNat ∧ x.toNat ≤ 0x39) ∨ (0x61 ≤ x.toNat ∧ x.toNat ≤ 0x66) := by
  simp [isHex]

/-! ### The two bodies -/

/-- Byte `k` of the text HEX_ENC writes (R165). -/
def encodedByte (s : State) (k : Nat) : Byte :=
  let c := s.byteAt (s.latch.srcAt (k / 2))
  if k % 2 = 0 then hexDigit (highNibble c) else hexDigit (lowNibble c)

/-- Byte `k` that HEX_DEC writes (R168). -/
def decodedByte (s : State) (k : Nat) : Byte :=
  pairByte (s.byteAt (s.latch.srcAt (2 * k))) (s.byteAt (s.latch.srcAt (2 * k + 1)))

theorem srcAt_contains {k : Nat} (h : k < L.srclen.toNat) : L.source.contains (L.srcAt k) = true := by
  rw [contains_iff]; simp only [Latched.source, Latched.srcAt]; omega

/-- While the buffer is filled, a source byte reads as it did before. -/
theorem Buffered.source_same {s s1 t : State} {buf : Backing} {n j k : Nat} {f : Nat → Byte}
    (h : Buffered s.latch buf n f j s1 t) (hs : ∀ a, s1.byteAt a = s.byteAt a)
    (ho : AllocOk s n) (hb : buf = .heap → s.cfg.scratchCap < n) (hk : k < s.latch.srclen.toNat) : t.byteAt (s.latch.srcAt k) = s.byteAt (s.latch.srcAt k) := by
  obtain ⟨-, -, -, -, hm⟩ := h
  rw [hm _ fun he => not_contains_of_disjoint (by rw [overlaps_comm]; exact (ho (hb he)).2.2.1) (srcAt_contains hk),
    hs]

/-- The checks of HEX_ENC in one expression (R205). -/
theorem firstError_hexEnc (s : State) : firstError (bodyChecks .hexEnc s) =
    if s.latch.dstcap.toNat < 2 * s.latch.srclen.toNat then .dstcap
    else firstError (allocChecks s (2 * s.latch.srclen.toNat)) := by
  simp [bodyChecks, firstError]

/-- Why the filling loop of HEX_ENC stops. -/
def EncStop (s : State) (e : ErrCode) : Prop := e = .bus ∧ FillRefused s (2 * s.latch.srclen.toNat)

/-- R165: how HEX_ENC's body ends. -/
theorem wp_hexEncBody {Q : Nat → State → Prop} (s : State)
    (hpre : s.latch.dstcap.toNat < 2 * s.latch.srclen.toNat → firstError (bodyChecks .hexEnc s) = .dstcap →
      E .dstcap s)
    (halloc : ∀ e, e ≠ .ok → e = firstError (bodyChecks .hexEnc s) → ¬ AllocOk s (2 * s.latch.srclen.toNat) →
      E e (allocFailed s (2 * s.latch.srclen.toNat)))
    (hbus : AllocOk s (2 * s.latch.srclen.toNat) → ∀ t,
      HexBus s (2 * s.latch.srclen.toNat) (encodedByte s) t → E .bus t)
    (hQ : firstError (bodyChecks .hexEnc s) = .ok → AllocOk s (2 * s.latch.srclen.toNat) →
      FillAllowed s (2 * s.latch.srclen.toNat) →
      CopyAllowed s (2 * s.latch.srclen.toNat) (2 * s.latch.srclen.toNat) → ∀ u,
      HexAt s (2 * s.latch.srclen.toNat) (encodedByte s) (2 * s.latch.srclen.toNat) u →
      Q (2 * s.latch.srclen.toNat) u) :
    wp (hexEncBody s.latch) Q E s := by
  have hcons := firstError_hexEnc s
  unfold hexEncBody
  rw [wp_bind, wp_raiseWhen]
  refine ⟨fun h => hpre (of_decide_eq_true h) (by rw [hcons, if_pos (of_decide_eq_true h)]), fun h => ?_⟩
  replace h : ¬ s.latch.dstcap.toNat < 2 * s.latch.srclen.toNat := by simpa using h
  rw [if_neg h] at hcons
  refine wp_hexTail s (f := encodedByte s) (V := FillAllowed s (2 * s.latch.srclen.toNat)) (WE := EncStop s)
    (work := fun buf => loop (encodeByte s.latch buf) 0 s.latch.srclen.toNat) (Nat.not_lt.1 h)
    (fun e he h' => halloc e he (h'.trans hcons.symm) fun ho => he (h'.trans (allocChecks_ok.2 ho)))
    (fun ho e t he ht => by rw [he.1]; exact hbus ho t (.inl ⟨he.2, ht⟩))
    (fun ho hV k t hk h1 h2 ht => hbus ho t (.inr ⟨hV, k, hk, h1, h2, ht⟩)) ?_
    (fun ho => hQ (hcons.trans (allocChecks_ok.2 ho)) ho)
  intro buf ho hb
  refine wp_loop (fun i t => Buffered s.latch buf (2 * s.latch.srclen.toNat) (encodedByte s) (2 * i)
      { s with pathsel := decide (s.cfg.scratchCap < 2 * s.latch.srclen.toNat) } t ∧
      (∀ k, k < i → s.refuses (s.latch.srcAt k) .read = false) ∧
      (s.cfg.scratchCap < 2 * s.latch.srclen.toNat → ∀ k, k < 2 * i → s.refuses (s.latch.heapAt k) .write = false))
    ⟨buffered_zero _ _ _ _, fun k hk => absurd hk (Nat.not_lt_zero k), fun _ k hk => absurd hk (Nat.not_lt_zero k)⟩
    (fun i t _ hi ht => ?_) (fun t ht => by simpa [FillAllowed] using ht)
  obtain ⟨ht, hread, hwrite⟩ := ht
  have hi' : i < s.latch.srclen.toNat := by omega
  have hc : t.cfg = s.cfg := ht.cfg
  have hsrc := ht.source_same (fun _ => rfl) ho hb.1 hi'
  unfold encodeByte
  rw [wp_bind, wp_dmaRead, refuses_of_cfg hc]
  refine ⟨fun hr => ⟨⟨_, ht⟩, rfl, .inl ⟨i, hi', hr⟩⟩, fun hr => ?_⟩
  rw [wp_bind]
  have he : hexDigit (highNibble (t.byteAt (s.latch.srcAt i))) = encodedByte s (2 * i) := by
    simp [encodedByte, hsrc]
  have hodd : hexDigit (lowNibble (t.byteAt (s.latch.srcAt i))) = encodedByte s (2 * i + 1) := by
    have h1 : (2 * i + 1) / 2 = i := by omega
    have h2 : (2 * i + 1) % 2 = 1 := by omega
    simp [encodedByte, hsrc, h1, h2]
  rw [he, hodd]
  refine wp_bufWrite (by omega) ht (fun hh hr => ⟨⟨_, ht⟩, rfl, .inr ⟨hb.1 hh, 2 * i, by omega, hr⟩⟩) fun u h1 hu => ?_
  refine wp_bufWrite (by omega) hu (fun hh hr => ⟨⟨_, hu⟩, rfl, .inr ⟨hb.1 hh, 2 * i + 1, by omega, hr⟩⟩)
    fun v h2 hv => ⟨hv, fun k hk => ?_, fun hh k hk => ?_⟩
  · by_cases hk' : k = i
    · rw [hk']; exact hr
    · exact hread k (by omega)
  · by_cases hk1 : k = 2 * i
    · rw [hk1]; exact h1 (hb.2 hh)
    · by_cases hk2 : k = 2 * i + 1
      · rw [hk2]; exact h2 (hb.2 hh)
      · exact hwrite hh k (by omega)

theorem any_not_hex_iff (s : State) {n : Nat} (hn : s.latch.srclen.toNat = 2 * n) :
    ((sourceBytes s).any fun x => !isHex x) = true ↔
      ∃ i, i < n ∧ (isHex (s.byteAt (s.latch.srcAt (2 * i))) &&
        isHex (s.byteAt (s.latch.srcAt (2 * i + 1)))) = false := by
  rw [List.any_eq_true]
  constructor
  · rintro ⟨x, hx, hh⟩
    obtain ⟨k, hk, rfl⟩ := List.mem_map.1 hx
    rw [List.mem_range] at hk
    have hd : 2 * (k / 2) + k % 2 = k := Nat.div_add_mod k 2
    refine ⟨k / 2, by omega, ?_⟩
    rcases Nat.mod_two_eq_zero_or_one k with h0 | h1
    · rw [show 2 * (k / 2) = k by omega]
      simp at hh
      simp [hh]
    · rw [show 2 * (k / 2) + 1 = k by omega]
      simp at hh
      simp [hh]
  · rintro ⟨i, hi, hh⟩
    rw [Bool.and_eq_false_iff] at hh
    rcases hh with hh | hh
    · exact ⟨_, List.mem_map.2 ⟨2 * i, List.mem_range.2 (by omega), rfl⟩, by simp [hh]⟩
    · exact ⟨_, List.mem_map.2 ⟨2 * i + 1, List.mem_range.2 (by omega), rfl⟩, by simp [hh]⟩

theorem firstError_append (l m : List (Bool × ErrCode)) (hl : ∀ p ∈ l, p.2 ≠ .ok) :
    firstError (l ++ m) = if firstError l = .ok then firstError m else firstError l := by
  induction l with
  | nil => simp [firstError]
  | cons p l ih =>
    obtain ⟨c, e⟩ := p
    have he : e ≠ .ok := hl (c, e) (by simp)
    have := ih fun p hp => hl p (by simp [hp])
    cases c <;> simp [firstError, this, he]

/-- The checks of HEX_DEC in one expression (R205). -/
theorem firstError_hexDec (s : State) : firstError (bodyChecks .hexDec s) =
    if s.latch.srclen.toNat % 2 ≠ 0 then .input
    else if s.latch.dstcap.toNat < s.latch.srclen.toNat / 2 then .dstcap
    else if firstError (allocChecks s (s.latch.srclen.toNat / 2)) = .ok then
      (if ((sourceBytes s).any fun x => !isHex x) = true then .input else .ok)
    else firstError (allocChecks s (s.latch.srclen.toNat / 2)) := by
  simp only [bodyChecks, List.cons_append, List.nil_append, firstError, decide_eq_true_eq]
  rw [firstError_append _ _ (by simp [allocChecks])]
  simp only [firstError]

/-- The pair HEX_DEC reads for byte `i` is two digits. -/
def pairOk (s : State) (i : Nat) : Bool :=
  isHex (s.byteAt (s.latch.srcAt (2 * i))) && isHex (s.byteAt (s.latch.srcAt (2 * i + 1)))

/-- HEX_DEC stops at pair `i`, the first that is not two digits: nothing before it is refused. -/
def InputStop (s : State) : Prop :=
  ∃ i, i < s.latch.srclen.toNat / 2 ∧ pairOk s i = false ∧
    (∀ k, k < 2 * i + 2 → s.refuses (s.latch.srcAt k) .read = false) ∧
    (s.cfg.scratchCap < s.latch.srclen.toNat / 2 → ∀ k, k < i → s.refuses (s.latch.heapAt k) .write = false)

/-- Why the filling loop of HEX_DEC stops. -/
def DecStop (s : State) (e : ErrCode) : Prop :=
  (e = .bus ∧ FillRefused s (s.latch.srclen.toNat / 2)) ∨ (e = .input ∧ InputStop s)

/-- R168: how HEX_DEC's body ends. -/
theorem wp_hexDecBody {Q : Nat → State → Prop} (s : State)
    (hpre : ∀ e, e ≠ .ok → e = firstError (bodyChecks .hexDec s) →
      (s.latch.srclen.toNat % 2 ≠ 0 ∨ s.latch.dstcap.toNat < s.latch.srclen.toNat / 2) → E e s)
    (halloc : ∀ e, e ≠ .ok → e = firstError (bodyChecks .hexDec s) → ¬ AllocOk s (s.latch.srclen.toNat / 2) →
      E e (allocFailed s (s.latch.srclen.toNat / 2)))
    (hinput : AllocOk s (s.latch.srclen.toNat / 2) → firstError (bodyChecks .hexDec s) = .input → InputStop s → ∀ t,
      HexAt s (s.latch.srclen.toNat / 2) (decodedByte s) 0 t → E .input t)
    (hbus : AllocOk s (s.latch.srclen.toNat / 2) → ∀ t,
      HexBus s (s.latch.srclen.toNat / 2) (decodedByte s) t → E .bus t)
    (hQ : firstError (bodyChecks .hexDec s) = .ok → AllocOk s (s.latch.srclen.toNat / 2) →
      FillAllowed s (s.latch.srclen.toNat / 2) →
      CopyAllowed s (s.latch.srclen.toNat / 2) (s.latch.srclen.toNat / 2) → ∀ u,
      HexAt s (s.latch.srclen.toNat / 2) (decodedByte s) (s.latch.srclen.toNat / 2) u →
      Q (s.latch.srclen.toNat / 2) u) :
    wp (hexDecBody s.latch) Q E s := by
  have hcons := firstError_hexDec s
  unfold hexDecBody
  rw [wp_bind, wp_raiseWhen]
  refine ⟨fun h => hpre _ (by decide) ?_ (.inl (by simpa using h)), fun h => ?_⟩
  · rw [hcons, if_pos (by simpa using h)]
  replace h : s.latch.srclen.toNat % 2 = 0 := by simpa using h
  rw [if_neg (by simpa using h)] at hcons
  rw [wp_bind, wp_raiseWhen]
  refine ⟨fun h' => hpre _ (by decide) ?_ (.inr (of_decide_eq_true h')), fun h' => ?_⟩
  · rw [hcons, if_pos (by simpa using h')]
  replace h' : ¬ s.latch.dstcap.toNat < s.latch.srclen.toNat / 2 := by simpa using h'
  rw [if_neg h'] at hcons
  have hn : s.latch.srclen.toNat = 2 * (s.latch.srclen.toNat / 2) := by omega
  have hany := any_not_hex_iff s hn
  have hvalid : (∀ i, i < s.latch.srclen.toNat / 2 → pairOk s i = true) →
      ((sourceBytes s).any fun x => !isHex x) = false := fun hv => by
    rw [← Bool.not_eq_true, hany]
    rintro ⟨i, hi, hf⟩
    have := hv i hi
    rw [pairOk, hf] at this
    cases this
  refine wp_hexTail s (f := decodedByte s)
    (V := FillAllowed s (s.latch.srclen.toNat / 2) ∧ ((sourceBytes s).any fun x => !isHex x) = false)
    (WE := DecStop s)
    (work := fun buf => loop (decodePair s.latch buf) 0 (s.latch.srclen.toNat / 2)) (Nat.not_lt.1 h')
    (fun e he h'' => halloc e he (by rw [hcons, if_neg (by rw [← h'']; exact he), h''])
      fun ho => he (h''.trans (allocChecks_ok.2 ho)))
    (fun ho e t he ht => ?_)
    (fun ho hV k t hk h1 h2 ht => hbus ho t (.inr ⟨hV.1, k, hk, h1, h2, ht⟩)) ?_
    (fun ho hV => hQ (by rw [hcons, if_pos (allocChecks_ok.2 ho), if_neg (by rw [hV.2]; decide)]) ho hV.1)
  · rcases he with ⟨rfl, he⟩ | ⟨rfl, he⟩
    · exact hbus ho t (.inl ⟨he, ht⟩)
    · refine hinput ho ?_ he t ht
      obtain ⟨i, hi, hf, -, -⟩ := he
      rw [hcons, if_pos (allocChecks_ok.2 ho), if_pos (hany.2 ⟨i, hi, hf⟩)]
  intro buf ho hb
  refine wp_loop (fun i t => Buffered s.latch buf (s.latch.srclen.toNat / 2) (decodedByte s) i
      { s with pathsel := decide (s.cfg.scratchCap < s.latch.srclen.toNat / 2) } t ∧
      (∀ k, k < i → pairOk s k = true) ∧
      (∀ k, k < 2 * i → s.refuses (s.latch.srcAt k) .read = false) ∧
      (s.cfg.scratchCap < s.latch.srclen.toNat / 2 → ∀ k, k < i → s.refuses (s.latch.heapAt k) .write = false))
    ⟨buffered_zero _ _ _ _, fun k hk => absurd hk (Nat.not_lt_zero k), fun k hk => absurd hk (Nat.not_lt_zero k),
      fun _ k hk => absurd hk (Nat.not_lt_zero k)⟩ (fun i t _ hi ht => ?_)
    (fun t ht => ?_)
  · obtain ⟨ht, hpair, hread, hwrite⟩ := ht
    have hc : t.cfg = s.cfg := ht.cfg
    have hs1 := ht.source_same (k := 2 * i) (fun _ => rfl) ho hb.1 (by omega)
    have hs2 := ht.source_same (k := 2 * i + 1) (fun _ => rfl) ho hb.1 (by omega)
    unfold decodePair
    rw [wp_bind, wp_dmaRead, refuses_of_cfg hc]
    refine ⟨fun hr => ⟨⟨_, ht⟩, .inl ⟨rfl, .inl ⟨2 * i, by omega, hr⟩⟩⟩, fun hr1 => ?_⟩
    rw [wp_bind, wp_dmaRead, refuses_of_cfg hc]
    refine ⟨fun hr => ⟨⟨_, ht⟩, .inl ⟨rfl, .inl ⟨2 * i + 1, by omega, hr⟩⟩⟩, fun hr2 => ?_⟩
    have hread' : ∀ k, k < 2 * i + 2 → s.refuses (s.latch.srcAt k) .read = false := fun k hk => by
      by_cases h1 : k = 2 * i
      · rw [h1]; exact hr1
      · by_cases h2 : k = 2 * i + 1
        · rw [h2]; exact hr2
        · exact hread k (by omega)
    rw [wp_bind, wp_raiseWhen, hs1, hs2]
    refine ⟨fun hh => ⟨⟨_, ht⟩, .inr ⟨rfl, i, by omega, by rw [← Bool.not_eq_true']; exact hh, hread', hwrite⟩⟩,
      fun hh => ?_⟩
    refine wp_bufWrite (f := decodedByte s) (by omega) ht
      (fun he hr => ⟨⟨_, ht⟩, .inl ⟨rfl, .inr ⟨hb.1 he, i, by omega, hr⟩⟩⟩) fun u hw hu => ?_
    refine ⟨hu, fun k hk => ?_, fun k hk => hread' k (by omega), fun hcap k hk => ?_⟩
    · by_cases hki : k = i
      · rw [hki]; unfold pairOk; simpa only [Bool.not_eq_false'] using hh
      · exact hpair k (by omega)
    · by_cases hki : k = i
      · rw [hki]; exact hw (hb.2 hcap)
      · exact hwrite hcap k (by omega)
  · obtain ⟨ht, hpair, hread, hwrite⟩ := ht
    rw [Nat.zero_add] at ht hpair hread hwrite
    exact ⟨ht, ⟨fun k hk => hread k (by omega), hwrite⟩, hvalid hpair⟩

end Sys2Proof.Laws
end

