-- ==== Sys2Proof/Laws/DesBodies.lean ====
section
/-! SUPPORT. How the bodies of DES_ENC and DES_DEC end (spec 43_block_framer.md R181 to R190). -/

namespace Sys2Proof.Laws

open Sys2Proof Sys2Proof.Machine Sys2Proof.Safety

variable {E : ErrCode → State → Prop}

/-! ### Blocks -/

theorem block_get_set (b : Block) (v : Byte) {i j : Nat} (hi : i < 8) (hj : j < 8) :
    (b.set j v).get i = if i = j then v else b.get i := by
  interval_cases j <;> interval_cases i <;> rfl

theorem block_get_ofFn (f : Nat → Byte) {i : Nat} (hi : i < 8) : (Block.ofFn f).get i = f i := by
  interval_cases i <;> rfl

theorem block_ext {b c : Block} (h : ∀ i, i < 8 → b.get i = c.get i) : b = c := by
  have := h 0 (by decide); have := h 1 (by decide); have := h 2 (by decide); have := h 3 (by decide)
  have := h 4 (by decide); have := h 5 (by decide); have := h 6 (by decide); have := h 7 (by decide)
  cases b; cases c
  simp_all [Block.get]

/-! ### One block -/

/-- Reading a block, or the part of it that the source has, up to the first refused read. -/
theorem wp_readBlock {Q : Unit → State → Prop} {g : Nat → Nat} {n : Nat} {s : State} (hn : n ≤ 8)
    (hE : ∀ j b, j < n → (∀ i, i < j → s.refuses (g i) .read = false) → s.refuses (g j) .read = true →
      E .bus { s with blkbuf := b })
    (hQ : ∀ b, (∀ j, j < n → s.refuses (g j) .read = false) → (∀ j, j < n → b.get j = s.byteAt (g j)) →
      Q () { s with blkbuf := b }) :
    wp (loop (fun j => do setBlkbuf j (← dmaRead (g j))) 0 n) Q E s := by
  refine wp_loop (fun j t => ∃ b, t = { s with blkbuf := b } ∧
      (∀ i, i < j → s.refuses (g i) .read = false) ∧ ∀ i, i < j → b.get i = s.byteAt (g i))
    ⟨s.blkbuf, rfl, fun _ h => absurd h (Nat.not_lt_zero _), fun _ h => absurd h (Nat.not_lt_zero _)⟩
    (fun j t _ hj h => ?_) (fun t h => ?_)
  · obtain ⟨b, rfl, ha, hb⟩ := h
    rw [wp_bind, wp_dmaRead, wp_setBlkbuf]
    refine ⟨fun hr => hE j b (by omega) ha hr, fun hr => ⟨_, rfl, fun i hi => ?_, fun i hi => ?_⟩⟩
    · by_cases hij : i = j
      · rw [hij]; exact hr
      · exact ha i (by omega)
    · rw [block_get_set _ _ (by omega) (by omega)]
      split
      · rename_i hij; rw [hij]; rfl
      · exact hb i (by omega)
  · obtain ⟨b, rfl, ha, hb⟩ := h
    exact hQ b (fun j hj => ha j (by omega)) fun j hj => hb j (by omega)

/-- The zero fill of the last block (R183). -/
theorem wp_zeroFill {Q : Unit → State → Prop} {r : Nat} {s : State} (hr : r ≤ 8)
    (hQ : ∀ b : Block, (∀ j, j < r → b.get j = s.blkbuf.get j) → (∀ j, r ≤ j → j < 8 → b.get j = 0) →
      Q () { s with blkbuf := b }) :
    wp (loop (fun j => setBlkbuf j 0x00) r (8 - r)) Q E s := by
  refine wp_loop (fun j t => ∃ b : Block, t = { s with blkbuf := b } ∧
      (∀ i, i < r → b.get i = s.blkbuf.get i) ∧ ∀ i, r ≤ i → i < j → b.get i = 0)
    ⟨s.blkbuf, rfl, fun _ _ => rfl, fun i _ _ => by omega⟩ (fun j t hj hj' h => ?_) (fun t h => ?_)
  · obtain ⟨b, rfl, hb, hz⟩ := h
    rw [wp_setBlkbuf]
    refine ⟨_, rfl, fun i hi => ?_, fun i hi hi' => ?_⟩
    · rw [block_get_set _ _ (by omega) (by omega), if_neg (by omega)]
      exact hb i hi
    · rw [block_get_set _ _ (by omega) (by omega)]
      split
      · rfl
      · exact hz i hi (by omega)
  · obtain ⟨b, rfl, hb, hz⟩ := h
    exact hQ b hb fun j hj hj' => hz j hj (by omega)

/-! ### The output so far -/

/-- The first `j` output bytes `f 0, f 1, …` are written, the key schedule is set, and nothing else has changed
but BLKBUF. -/
def DesAt (s : State) (f : Nat → Byte) (j : Nat) (t : State) : Prop :=
  ∃ b m, t = { s with ks := some (ksetup s.cfg.primitive s.latch.key), blkbuf := b, mem := m } ∧
    ∀ a, t.byteAt a = if s.latch.dst.toNat ≤ a ∧ a < s.latch.dst.toNat + j then f (a - s.latch.dst.toNat)
      else s.byteAt a

variable {s t : State} {f : Nat → Byte} {j : Nat}

theorem desAt_zero (f : Nat → Byte) (s : State) :
    DesAt s f 0 { s with ks := some (ksetup s.cfg.primitive s.latch.key) } :=
  ⟨s.blkbuf, s.mem, rfl, fun a => by rw [if_neg (by omega)]; rfl⟩

theorem DesAt.cfg (h : DesAt s f j t) : t.cfg = s.cfg := by
  obtain ⟨_, _, rfl, -⟩ := h; rfl

theorem DesAt.ks (h : DesAt s f j t) : t.ks = some (ksetup s.cfg.primitive s.latch.key) := by
  obtain ⟨_, _, rfl, -⟩ := h; rfl

theorem DesAt.withBlock (h : DesAt s f j t) (b : Block) : DesAt s f j { t with blkbuf := b } := by
  obtain ⟨_, m, rfl, hm⟩ := h
  exact ⟨b, m, rfl, hm⟩

theorem DesAt.put (h : DesAt s f j t) : DesAt s f (j + 1) (t.putByte (s.latch.dst.toNat + j) (f j)) := by
  obtain ⟨b, m, rfl, hm⟩ := h
  refine ⟨b, _, rfl, fun a => ?_⟩
  rw [byteAt_putByte, hm]
  by_cases ha : a = s.latch.dst.toNat + j
  · rw [if_pos ha, if_pos (by omega), ha, Nat.add_sub_cancel_left]
  · rw [if_neg ha]
    by_cases hr : s.latch.dst.toNat ≤ a ∧ a < s.latch.dst.toNat + j
    · rw [if_pos hr, if_pos (by omega)]
    · rw [if_neg hr, if_neg (by omega)]

theorem DesAt.byteAt_dst (h : DesAt s f j t) {k : Nat} (hk : k < j) :
    t.byteAt (s.latch.dst.toNat + k) = f k := by
  obtain ⟨_, _, -, hm⟩ := h
  rw [hm, if_pos (by omega), Nat.add_sub_cancel_left]

theorem DesAt.byteAt_out (h : DesAt s f j t) {a : Nat}
    (ha : ¬ (s.latch.dst.toNat ≤ a ∧ a < s.latch.dst.toNat + j)) : t.byteAt a = s.byteAt a := by
  obtain ⟨_, _, -, hm⟩ := h
  rw [hm, if_neg ha]

theorem DesAt.source_same (h : DesAt s f j t) (hd : s.latch.source.overlaps s.latch.dest = false)
    (hj : j ≤ s.latch.dstcap.toNat) {k : Nat} (hk : k < s.latch.srclen.toNat) :
    t.byteAt (s.latch.srcAt k) = s.byteAt (s.latch.srcAt k) := by
  refine h.byteAt_out fun ha => ?_
  have := not_contains_of_disjoint hd (srcAt_contains hk)
  rw [contains_false_iff] at this
  exact this ⟨ha.1, by simp only [Latched.dest]; omega⟩

/-- How a DES command that reads `S` bytes block by block and writes the `n` bytes `f` stops at a refused access: the
writes of the blocks before it stand, and those of its own block before a refused write (R203). -/
def DesStop (s : State) (f : Nat → Byte) (S n : Nat) (t : State) : Prop :=
  (∃ i, i < S ∧ ReadsAllowed s i ∧ s.refuses (s.latch.srcAt i) .read = true ∧
    WritesAllowed s (min n (8 * (i / 8))) ∧ DesAt s f (min n (8 * (i / 8))) t) ∨
  ∃ m, m < n ∧ WritesAllowed s m ∧ s.refuses (s.latch.dstAt m) .write = true ∧
    ReadsAllowed s (min S (8 * (m / 8) + 8)) ∧ DesAt s f m t

theorem readsAllowed_mono {s : State} {j k : Nat} (h : ReadsAllowed s k) (hj : j ≤ k) : ReadsAllowed s j :=
  fun i hi => h i (by omega)

theorem writesAllowed_mono {s : State} {j k : Nat} (h : WritesAllowed s k) (hj : j ≤ k) : WritesAllowed s j :=
  fun i hi => h i (by omega)

theorem writesAllowed_succ {s : State} {k : Nat} (h : WritesAllowed s k)
    (hk : s.refuses (s.latch.dstAt k) .write = false) : WritesAllowed s (k + 1) := fun i hi => by
  by_cases hik : i = k
  · rw [hik]; exact hk
  · exact h i (by omega)

/-- The reads of a block extend those before it. -/
theorem readsAllowed_block {s : State} {k n : Nat} (h : ReadsAllowed s k)
    (hb : ∀ j, j < n → s.refuses (s.latch.srcAt (k + j)) .read = false) : ReadsAllowed s (k + n) := fun i hi => by
  by_cases hik : i < k
  · exact h i hik
  · have := hb (i - k) (by omega)
    rwa [show k + (i - k) = i by omega] at this

/-! ### DES_ENC -/

/-- Byte `m` of the ciphertext body (R182). -/
def cipherByte (s : State) (m : Nat) : Byte := (transform s .enc (plainBlock s (m / 8))).get (m % 8)

/-- Byte `m` of a framed ciphertext of `nb` blocks: body, then trailer (R184). -/
def framedByte (s : State) (m : Nat) : Byte :=
  if m < 8 * blockCount s.latch.srclen.toNat then cipherByte s m
  else BitVec.ofNat 8 (padCount s.latch.srclen.toNat)

theorem wp_encryptBlock {Q : Unit → State → Prop} {k : Nat}
    (hd : s.latch.source.overlaps s.latch.dest = false)
    (hk : k < blockCount s.latch.srclen.toNat)
    (hcap : 8 * blockCount s.latch.srclen.toNat + 1 ≤ s.latch.dstcap.toNat)
    (h : DesAt s (framedByte s) (8 * k) t) (hr : ReadsAllowed s (8 * k)) (hw : WritesAllowed s (8 * k))
    (hE : ∀ u, DesStop s (framedByte s) s.latch.srclen.toNat (8 * blockCount s.latch.srclen.toNat + 1) u → E .bus u)
    (hQ : ∀ u, DesAt s (framedByte s) (8 * (k + 1)) u → ReadsAllowed s (min s.latch.srclen.toNat (8 * (k + 1))) →
      WritesAllowed s (8 * (k + 1)) → Q () u) :
    wp (encryptBlock s.latch k) Q E t := by
  unfold encryptBlock
  rw [wp_bind]
  have hc : ∀ a d, t.refuses a d = s.refuses a d := refuses_of_cfg h.cfg
  refine wp_readBlock (by omega) (fun j b hj ha hj' => hE _ (.inl ⟨8 * k + j, by omega, ?_, ?_, ?_, ?_⟩))
    fun b ha hb => ?_
  · exact readsAllowed_block hr fun i hi => by rw [← hc]; exact ha i hi
  · rwa [hc] at hj'
  · rw [show min (8 * blockCount s.latch.srclen.toNat + 1) (8 * ((8 * k + j) / 8)) = 8 * k by omega]
    exact hw
  · rw [show min (8 * blockCount s.latch.srclen.toNat + 1) (8 * ((8 * k + j) / 8)) = 8 * k by omega]
    exact h.withBlock b
  have hread : ReadsAllowed s (min s.latch.srclen.toNat (8 * (k + 1))) :=
    readsAllowed_mono (readsAllowed_block (n := min 8 (s.latch.srclen.toNat - 8 * k)) hr fun i hi => by
      rw [← hc]; exact ha i hi) (by omega)
  rw [wp_bind]
  refine wp_zeroFill (by omega) fun b' hb' hz => ?_
  have hplain : b' = plainBlock s k := block_ext fun i hi => by
    rw [plainBlock, block_get_ofFn _ hi]
    by_cases hlt : 8 * k + i < s.latch.srclen.toNat
    · rw [if_pos hlt, hb' i (by omega), hb i (by omega), h.source_same hd (by omega) hlt]
    · rw [if_neg hlt, hz i (by omega) hi]
  rw [wp_bind]
  refine (wp_transformBlkbuf .enc (ks := ksetup s.cfg.primitive s.latch.key) (by exact h.ks)).2 ?_
  rw [wp_bind, wp_get]
  refine wp_loop (fun j u => DesAt s (framedByte s) (8 * k + j) u ∧ WritesAllowed s (8 * k + j))
    ⟨h.withBlock _, hw⟩ (fun j u _ hj hu => ?_)
    (fun u hu => by rw [show 8 * k + (0 + 8) = 8 * (k + 1) by omega] at hu; exact hQ u hu.1 hread hu.2)
  obtain ⟨hu, hwj⟩ := hu
  rw [wp_dmaWrite, refuses_of_cfg hu.cfg]
  refine ⟨fun hr => hE u (.inr ⟨8 * k + j, by omega, hwj, hr, readsAllowed_mono hread (by omega), hu⟩), fun hr => ⟨?_, writesAllowed_succ hwj hr⟩⟩
  have hv : (blk .enc (ksetup s.cfg.primitive s.latch.key) b').get j = framedByte s (8 * k + j) := by
    rw [framedByte, if_pos (by omega), cipherByte, show (8 * k + j) / 8 = k by omega,
      show (8 * k + j) % 8 = j by omega, ← hplain]
    rfl
  have := hu.put
  rw [← hv] at this
  exact this

/-- The checks of DES_ENC in one expression (R205). -/
theorem firstError_desEnc (s : State) : firstError (bodyChecks .desEnc s) =
    if s.latch.keylen.toNat < 8 then .key
    else if s.latch.dstcap.toNat < 8 * blockCount s.latch.srclen.toNat + 1 then .dstcap else .ok := by
  simp [bodyChecks, firstError, blockCount]

/-- R185: how DES_ENC's body ends. -/
theorem wp_desEncBody {Q : Nat → State → Prop} (s : State)
    (hd : s.latch.source.overlaps s.latch.dest = false)
    (hE : ∀ e, e ≠ .ok → e = firstError (bodyChecks .desEnc s) → E e s)
    (hbus : firstError (bodyChecks .desEnc s) = .ok → ∀ t,
      DesStop s (framedByte s) s.latch.srclen.toNat (8 * blockCount s.latch.srclen.toNat + 1) t → E .bus t)
    (hQ : firstError (bodyChecks .desEnc s) = .ok → ReadsAllowed s s.latch.srclen.toNat →
      WritesAllowed s (8 * blockCount s.latch.srclen.toNat + 1) → ∀ u,
      DesAt s (framedByte s) (8 * blockCount s.latch.srclen.toNat + 1) u →
        Q (8 * blockCount s.latch.srclen.toNat + 1) u) :
    wp (desEncBody s.latch) Q E s := by
  have hcons := firstError_desEnc s
  unfold desEncBody checkKeyLength
  rw [wp_bind, wp_raiseWhen]
  refine ⟨fun h => hE _ (by decide) (by rw [hcons, if_pos (of_decide_eq_true h)]), fun h1 => ?_⟩
  rw [decide_eq_false_iff_not] at h1
  rw [if_neg h1] at hcons
  dsimp only
  rw [wp_bind, wp_raiseWhen]
  refine ⟨fun h => hE _ (by decide) (by rw [hcons, if_pos (of_decide_eq_true h)]), fun h2 => ?_⟩
  rw [decide_eq_false_iff_not] at h2
  rw [if_neg h2] at hcons
  rw [wp_bind, wp_setupKey, wp_bind]
  have hS : s.latch.srclen.toNat ≤ 8 * blockCount s.latch.srclen.toNat := by unfold blockCount; omega
  refine wp_loop (fun k t => DesAt s (framedByte s) (8 * k) t ∧ ReadsAllowed s (min s.latch.srclen.toNat (8 * k)) ∧
      WritesAllowed s (8 * k))
    ⟨desAt_zero _ _, fun _ h => absurd h (by omega), fun _ h => absurd h (by omega)⟩ (fun k t _ hk ht => ?_)
    (fun t ht => ?_)
  · obtain ⟨ht, hr, hw⟩ := ht
    have hlt : 8 * k < s.latch.srclen.toNat := by unfold blockCount at hk; omega
    exact wp_encryptBlock hd (by omega) (by omega) ht (readsAllowed_mono hr (by omega)) hw (hbus hcons) fun u hu h1 h2 => ⟨hu, h1, h2⟩
  · rw [Nat.zero_add] at ht
    obtain ⟨ht, hr, hw⟩ := ht
    rw [wp_bind, wp_dmaWrite, refuses_of_cfg ht.cfg, wp_pure]
    refine ⟨fun h => hbus hcons t (.inr ⟨_, by omega, hw, h, readsAllowed_mono hr (by omega), ht⟩),
      fun h => hQ hcons (readsAllowed_mono hr (by omega)) (writesAllowed_succ hw h) _ ?_⟩
    have := ht.put
    rw [framedByte, if_neg (by omega)] at this
    exact this

/-! ### DES_DEC -/

/-- Byte `m` of the recovered plaintext (R187). -/
def plainByte (s : State) (m : Nat) : Byte := (transform s .dec (cipherBlock s (m / 8))).get (m % 8)

theorem wp_decryptBlock {Q : Unit → State → Prop} {k n : Nat}
    (hd : s.latch.source.overlaps s.latch.dest = false)
    {S : Nat} (hS : S ≤ s.latch.srclen.toNat) (hk : 8 * k + 8 ≤ S) (hcap : n ≤ s.latch.dstcap.toNat)
    (h : DesAt s (plainByte s) (min n (8 * k)) t) (hr : ReadsAllowed s (8 * k)) (hw : WritesAllowed s (min n (8 * k)))
    (hE : ∀ u, DesStop s (plainByte s) S n u → E .bus u)
    (hQ : ∀ u, DesAt s (plainByte s) (min n (8 * (k + 1))) u → ReadsAllowed s (8 * (k + 1)) →
      WritesAllowed s (min n (8 * (k + 1))) → Q () u) :
    wp (decryptBlock s.latch n k) Q E t := by
  unfold decryptBlock
  rw [wp_bind]
  have hc : ∀ a d, t.refuses a d = s.refuses a d := refuses_of_cfg h.cfg
  refine wp_readBlock (by omega) (fun j b hj ha hj' => hE _ (.inl ⟨8 * k + j, by omega, ?_, ?_, ?_, ?_⟩))
    fun b ha hb => ?_
  · exact readsAllowed_block hr fun i hi => by rw [← hc]; exact ha i hi
  · rwa [hc] at hj'
  · rwa [show 8 * ((8 * k + j) / 8) = 8 * k by omega]
  · rw [show 8 * ((8 * k + j) / 8) = 8 * k by omega]
    exact h.withBlock b
  have hread : ReadsAllowed s (8 * (k + 1)) := readsAllowed_block hr fun i hi => by rw [← hc]; exact ha i hi
  have hcipher : b = cipherBlock s k := block_ext fun i hi => by
    rw [cipherBlock, block_get_ofFn _ hi, hb i hi, h.source_same hd (by omega) (by omega)]
  rw [wp_bind]
  refine (wp_transformBlkbuf .dec (ks := ksetup s.cfg.primitive s.latch.key) (by exact h.ks)).2 ?_
  rw [wp_bind, wp_get]
  refine wp_loop (fun j u => DesAt s (plainByte s) (min n (8 * k + j)) u ∧ WritesAllowed s (min n (8 * k + j)))
    ⟨h.withBlock _, hw⟩ (fun j u _ hj hu => ?_)
    (fun u hu => by rw [show 8 * k + (0 + 8) = 8 * (k + 1) by omega] at hu; exact hQ u hu.1 hread hu.2)
  obtain ⟨hu, hwj⟩ := hu
  unfold writeRecovered
  by_cases hlt : 8 * k + j < n
  · rw [show min n (8 * k + j) = 8 * k + j by omega] at hu hwj
    rw [if_pos hlt, wp_dmaWrite, refuses_of_cfg hu.cfg]
    refine ⟨fun hr => hE u (.inr ⟨8 * k + j, hlt, hwj, hr, readsAllowed_mono hread (by omega), hu⟩), fun hr => ⟨?_, ?_⟩⟩
    rotate_left
    · rw [show min n (8 * k + (j + 1)) = 8 * k + j + 1 by omega]
      exact writesAllowed_succ hwj hr
    have hv : (blk .dec (ksetup s.cfg.primitive s.latch.key) b).get j = plainByte s (8 * k + j) := by
      rw [plainByte, show (8 * k + j) / 8 = k by omega, show (8 * k + j) % 8 = j by omega, ← hcipher]
      rfl
    have := hu.put
    rw [show min n (8 * k + (j + 1)) = 8 * k + j + 1 by omega]
    rw [← hv] at this
    exact this
  · rw [if_neg hlt, wp_pure]
    rw [show min n (8 * k + (j + 1)) = min n (8 * k + j) by omega]
    exact ⟨hu, hwj⟩

/-- The checks of DES_DEC in one expression (R205). -/
theorem firstError_desDec (s : State) : firstError (bodyChecks .desDec s) =
    if s.latch.keylen.toNat < 8 then .key
    else if (s.latch.srclen.toNat == 0 || (s.latch.srclen.toNat - 1) % 8 != 0) = true then .malformed
    else if s.latch.srclen.toNat - 1 < trailer s then .malformed
    else if (s.cfg.trailerStrict && decide (8 ≤ trailer s)) = true then .malformed
    else if s.latch.dstcap.toNat < s.latch.srclen.toNat - 1 - trailer s then .dstcap else .ok := by
  simp [bodyChecks, firstError]

/-- R190: how DES_DEC's body ends. -/
theorem wp_desDecBody {Q : Nat → State → Prop} (s : State)
    (hd : s.latch.source.overlaps s.latch.dest = false)
    (hE : ∀ e, e ≠ .ok → e = firstError (bodyChecks .desDec s) → E e s)
    (htrailer : s.refuses (s.latch.srcAt (s.latch.srclen.toNat - 1)) .read = true → E .bus s)
    (hbus : firstError (bodyChecks .desDec s) = .ok → ∀ t,
      DesStop s (plainByte s) (s.latch.srclen.toNat - 1) (s.latch.srclen.toNat - 1 - trailer s) t → E .bus t)
    (hQ : firstError (bodyChecks .desDec s) = .ok → ReadsAllowed s s.latch.srclen.toNat →
      WritesAllowed s (s.latch.srclen.toNat - 1 - trailer s) → ∀ u,
      DesAt s (plainByte s) (s.latch.srclen.toNat - 1 - trailer s) u →
        Q (s.latch.srclen.toNat - 1 - trailer s) u) :
    wp (desDecBody s.latch) Q E s := by
  have hcons := firstError_desDec s
  unfold desDecBody checkKeyLength
  rw [wp_bind, wp_raiseWhen]
  refine ⟨fun h => hE _ (by decide) (by rw [hcons, if_pos (of_decide_eq_true h)]), fun h1 => ?_⟩
  rw [decide_eq_false_iff_not] at h1
  rw [if_neg h1] at hcons
  rw [wp_bind, wp_raiseWhen]
  refine ⟨fun h => hE _ (by decide) (by rw [hcons, if_pos h]), fun h2 => ?_⟩
  rw [h2, if_neg (by decide)] at hcons
  rw [Bool.or_eq_false_iff, beq_eq_false_iff_ne, bne_eq_false_iff_eq] at h2
  dsimp only
  rw [wp_bind, wp_dmaRead]
  refine ⟨htrailer, fun hlast => ?_⟩
  have htr : (s.byteAt (s.latch.srcAt (s.latch.srclen.toNat - 1))).toNat = trailer s := rfl
  rw [htr, wp_bind, wp_raiseWhen]
  refine ⟨fun h => hE _ (by decide) (by rw [hcons, if_pos (of_decide_eq_true h)]), fun h3 => ?_⟩
  rw [decide_eq_false_iff_not] at h3
  rw [if_neg h3] at hcons
  rw [wp_bind, wp_get, wp_bind, wp_raiseWhen]
  refine ⟨fun h => hE _ (by decide) (by rw [hcons, if_pos h]), fun h4 => ?_⟩
  rw [h4, if_neg (by decide)] at hcons
  rw [wp_bind, wp_raiseWhen]
  refine ⟨fun h => hE _ (by decide) (by rw [hcons, if_pos (of_decide_eq_true h)]), fun h5 => ?_⟩
  rw [decide_eq_false_iff_not] at h5
  rw [if_neg h5] at hcons
  rw [wp_bind, wp_setupKey, wp_bind]
  refine wp_loop (fun k t => DesAt s (plainByte s) (min (s.latch.srclen.toNat - 1 - trailer s) (8 * k)) t ∧
      ReadsAllowed s (8 * k) ∧ WritesAllowed s (min (s.latch.srclen.toNat - 1 - trailer s) (8 * k)))
    ⟨by simpa using desAt_zero (plainByte s) s, fun _ h => absurd h (by omega), fun _ h => absurd h (by omega)⟩
    (fun k t _ hk ht => ?_) (fun t ht => ?_)
  · obtain ⟨ht, hr, hw⟩ := ht
    exact wp_decryptBlock hd (Nat.sub_le _ 1) (by omega) (by omega) ht hr hw (hbus hcons) fun u hu h1 h2 => ⟨hu, h1, h2⟩
  · obtain ⟨ht, hr, hw⟩ := ht
    rw [wp_pure]
    rw [show min (s.latch.srclen.toNat - 1 - trailer s) (8 * (0 + (s.latch.srclen.toNat - 1) / 8)) =
      s.latch.srclen.toNat - 1 - trailer s by omega] at ht hw
    refine hQ hcons (fun i hi => ?_) hw t ht
    by_cases hl : i = s.latch.srclen.toNat - 1
    · rw [hl]; exact hlast
    · exact hr i (by omega)

end Sys2Proof.Laws
end

