-- ==== Sys2Proof/Laws/PerInstr.lean ====
section
/-! SUPPORT. The per-instruction family `Encoding`: what holds of every instruction as syntax. -/

namespace Sys2Proof.Laws.Encoding

open Sys2Proof

/-- An instruction is well formed, its word is legal and is exactly its opcode, and the decoder reads it back
(R90 to R92, R96). -/
def Statement (i : Instr) : Prop :=
  i.wf = true ∧ legalWord (encode i) = true ∧ rsv (encode i) = 0 ∧ instrOfOpcode (opc (encode i)) = some i ∧
    decode (encode i) = .ok i ∧ decodeTableWord 32 (encode i).toNat = some i

theorem hashkey : Statement .hashkey := by unfold Statement; decide

theorem hexEnc : Statement .hexEnc := by unfold Statement; decide

theorem hexDec : Statement .hexDec := by unfold Statement; decide

theorem desEnc : Statement .desEnc := by unfold Statement; decide

theorem desDec : Statement .desDec := by unfold Statement; decide

end Sys2Proof.Laws.Encoding
end

