-- ==== Sys2Proof/Laws/Turns.lean ====
section
/-! SUPPORT. What a step can be, said once: the engine's turn by engine state and decoded word, and the inputs one
by one. -/

namespace Sys2Proof.Laws

open Sys2Proof Sys2Proof.Machine Sys2Proof.Safety

variable {s t : State} {i : Instr}

/-! ### The engine's turn -/

theorem engineTurn_runs (hr : s.resetActive = false) (hb : s.engine = .busy)
    (hd : decode s.fetchWord = .ok i) : engineTurn s = exec i s := by
  simp [engineTurn, hr, hb, hd]

theorem engineTurn_illegal {e : DecodeError} (hr : s.resetActive = false) (hb : s.engine = .busy)
    (hd : decode s.fetchWord = .error e) : engineTurn s = .next (complete .opcode 0 s) := by
  simp [engineTurn, hr, hb, hd]

theorem engineTurn_idle (h : s.engine = .idle) : engineTurn s = .next s := by simp [engineTurn, h]

theorem engineTurn_reset (h : s.resetActive = true) : engineTurn s = .next s := by simp [engineTurn, h]

/-- A turn of the engine leaves the state alone, or completes a command: it is an illegal word's completion, or the
meaning of the decoded command. -/
theorem engineTurn_cases (h : engineTurn s = .next t) :
    t = s ∨ (s.resetActive = false ∧ s.engine = .busy ∧
      ((t = complete .opcode 0 s ∧ ∃ e, decode s.fetchWord = .error e) ∨
        ∃ i, decode s.fetchWord = .ok i ∧ exec i s = .next t)) := by
  cases hr : s.resetActive
  · cases hb : s.engine
    · rw [engineTurn_idle hb] at h; cases h; exact .inl rfl
    · refine .inr ⟨rfl, rfl, ?_⟩
      cases hd : decode s.fetchWord with
      | ok i => rw [engineTurn_runs hr hb hd] at h; exact .inr ⟨i, rfl, h⟩
      | error e => rw [engineTurn_illegal hr hb hd] at h; cases h; exact .inl ⟨rfl, e, rfl⟩
  · rw [engineTurn_reset hr] at h; cases h; exact .inl rfl

/-- The turn of a Busy engine ends in one completion, of a state it reached by its own single actions. -/
theorem engineTurn_busy (hr : s.resetActive = false) (hb : s.engine = .busy) (h : engineTurn s = .next t) :
    ∃ code n u, t = complete code n u ∧
      ∀ {W : Nat → Prop} {R : State → State → Prop},
        EngineRel W (∃ i, decode s.fetchWord = .ok i ∧ usesHeapWindow i = true) R →
        (∀ i a, decode s.fetchWord = .ok i → MayWrite i s a → W a) → R s u := by
  cases hd : decode s.fetchWord with
  | ok i =>
    rw [engineTurn_runs hr hb hd] at h
    obtain ⟨code, n, u, hu, hR⟩ := exec_completes i s
    rw [hu] at h
    cases h
    refine ⟨code, n, u, rfl, fun {W R} hrel hW => hR (W := W) ⟨hrel.refl, hrel.trans, hrel.acc,
      fun hH => hrel.pathsel ⟨i, rfl, hH⟩, hrel.scratch, hrel.ks, hrel.blkbuf, hrel.put,
      hrel.draw⟩ fun a => hW i a rfl⟩
  | error e =>
    rw [engineTurn_illegal hr hb hd] at h
    cases h
    exact ⟨_, _, _, rfl, fun hrel _ => hrel.refl s⟩

/-- The turn of the engine always gives a next state. -/
theorem engineTurn_next (s : State) : ∃ t, engineTurn s = .next t := by
  cases hr : s.resetActive
  · cases hb : s.engine
    · exact ⟨_, engineTurn_idle hb⟩
    · cases hd : decode s.fetchWord with
      | ok i =>
        obtain ⟨code, n, u, hu, -⟩ := exec_completes i s
        exact ⟨_, (engineTurn_runs hr hb hd).trans hu⟩
      | error e => exact ⟨_, engineTurn_illegal hr hb hd⟩
  · exact ⟨_, engineTurn_reset hr⟩

/-! ### The step -/

theorem step_nil (h : s.inputs = []) : step s = engineTurn s := by simp [step, h]

theorem step_cons {x : Input} {rest : List Input} (h : s.inputs = x :: rest) :
    step s = inputTurn x { s with inputs := rest } := by
  simp [step, h, State.popInput]

/-- One more step of a run. -/
theorem run_succ (M : Host.Core) {s t : M.State} (k : Nat) (h : M.step s = .next t) :
    M.run (k + 1) s = M.run k t := by
  simp [Host.Core.run, h]

/-- The word of a decoded command is its encoding. -/
theorem decode_eq {w : Word} (h : decode w = .ok i) : w = encode i := by
  have hw : w.toNat = (rsv w).toNat * 256 + (opc w).toNat := by
    simp only [rsv, opc, BitVec.extractLsb'_toNat, Nat.shiftRight_eq_div_pow]
    omega
  unfold decode at h
  split at h
  · rename_i hr
    rw [hr] at hw
    apply BitVec.eq_of_toNat_eq
    rw [hw]
    split at h
    · rename_i j hj
      cases h
      unfold instrOfOpcode at hj
      repeat' split at hj
      all_goals first | (cases hj; rename_i ho; rw [ho]; rfl) | cases hj
    · cases h
  · cases h

/-- Encoding a command and decoding its word gives it back. -/
theorem decode_encode (i : Instr) : decode (encode i) = .ok i := by cases i <;> decide

/-! ### The host's register port -/

theorem hostWrite_aligned {agent : Nat} {o : BitVec 8} {v : Word} (hr : s.resetActive = false)
    (ho : o.toNat % 4 = 0) (hs : (sequenceReg (Reg.ofOffset o) && ownedByOther agent s) = false) :
    hostWrite agent 4 o v s =
      answer .ack (regWrite (Reg.ofOffset o) v (noteWrite agent (Reg.ofOffset o) s)) := by
  simp [hostWrite, hr, portAligned, ho, hs]

theorem hostRead_aligned {o : BitVec 8} (hr : s.resetActive = false) (ho : o.toNat % 4 = 0) :
    hostRead 4 o s = .next { observeDone (Reg.ofOffset o == .status && s.done) s with
                             response := .data (regRead (Reg.ofOffset o) s) } := by
  simp [hostRead, hr, portAligned, ho]

/-- A CMD write while Idle that gives a next state is an accept. -/
theorem cmdWrite_idle {w : Word} (hi : s.engine = .idle) (h : cmdWrite w s = .next t) :
    t = acceptCommand w s ∧ hazardRange s.cfg (s.capture w) = false ∧
      hazardCoherence s (s.capture w) = false := by
  simp only [cmdWrite, hi] at h
  split at h
  · cases h
  · split at h
    · cases h
    · cases h
      exact ⟨rfl, by simpa using ‹¬ hazardRange _ _ = true›, by simpa using ‹¬ hazardCoherence _ _ = true›⟩

theorem cmdWrite_accepts {w : Word} (hi : s.engine = .idle) (h1 : hazardRange s.cfg (s.capture w) = false)
    (h2 : hazardCoherence s (s.capture w) = false) : cmdWrite w s = .next (acceptCommand w s) := by
  simp [cmdWrite, hi, h1, h2]

theorem cmdWrite_hazardRange {w : Word} (hi : s.engine = .idle)
    (h : hazardRange s.cfg (s.capture w) = true) : cmdWrite w s = .fault .hazardRange := by
  simp [cmdWrite, hi, h]

theorem answer_next {r : Response} {x : Host.Outcome State Fault Refusal} (h : answer r x = .next t) :
    ∃ u, x = .next u ∧ t = { u with response := r } := by
  cases x <;> simp [answer] at h
  exact ⟨_, rfl, h.symm⟩

/-- A write that is answered is a 32-bit aligned one outside reset that no other agent's sequence shuts out. -/
theorem hostWrite_next {agent size : Nat} {o : BitVec 8} {v : Word} (h : hostWrite agent size o v s = .next t) :
    s.resetActive = false ∧ size = 4 ∧ o.toNat % 4 = 0 ∧
      (sequenceReg (Reg.ofOffset o) && ownedByOther agent s) = false ∧
      ∃ u, regWrite (Reg.ofOffset o) v (noteWrite agent (Reg.ofOffset o) s) = .next u ∧
        t = { u with response := .ack } := by
  unfold hostWrite at h
  split at h
  · cases h
  · split at h
    · cases h
    · split at h
      · cases h
      · rename_i hr hp hs
        simp only [portAligned, Bool.not_eq_true, Bool.not_eq_false', Bool.and_eq_true, beq_iff_eq] at hr hp
        exact ⟨hr, hp.1, hp.2, by simpa only [Bool.not_eq_true] using hs, answer_next h⟩

/-- A read that is answered is a 32-bit aligned one outside reset. -/
theorem hostRead_next {size : Nat} {o : BitVec 8} (h : hostRead size o s = .next t) :
    s.resetActive = false ∧ size = 4 ∧ o.toNat % 4 = 0 ∧
      t = { observeDone (Reg.ofOffset o == .status && s.done) s with response := .data (regRead (Reg.ofOffset o) s) } := by
  unfold hostRead at h
  split at h
  · cases h
  · split at h
    · cases h
    · rename_i hr hp
      simp only [portAligned, Bool.not_eq_true, Bool.not_eq_false', Bool.and_eq_true, beq_iff_eq] at hr hp
      cases h
      exact ⟨hr, hp.1, hp.2, rfl⟩

/-- An access that meets no plain memory gives no next state. -/
theorem outsideMemory_stops {a : Nat} {x : Host.Outcome State Fault Refusal} (h : outsideMemory a s = some x) :
    x ≠ .next t := by
  unfold outsideMemory at h
  repeat' split at h
  all_goals cases h <;> exact fun e => by cases e

/-- A store that is done is one to plain memory that no unobserved command owns. -/
theorem hostStore_next {a : Nat} {v : Byte} (h : hostStore a v s = .next t) :
    outsideMemory a s = none ∧ (∀ f ∈ s.unseen, f.owns a = false) ∧
      t = { s.putByte a v with
            hostDirty := if s.cfg.dmaCoherent then s.hostDirty else a :: s.hostDirty
            response := .ack } := by
  unfold hostStore at h
  split at h
  · rename_i hx
    exact absurd h (outsideMemory_stops hx)
  · rename_i hx
    split at h
    · cases h
    · rename_i hu
      cases h
      refine ⟨hx, fun f hf => ?_, rfl⟩
      rw [← Bool.not_eq_true]
      exact fun ho => hu (List.any_eq_true.2 ⟨f, hf, ho⟩)

/-- A load that is done answers a draw where a command races for the byte, and the byte elsewhere. -/
theorem hostLoad_next {a : Nat} (h : hostLoad a s = .next t) :
    outsideMemory a s = none ∧
      (((∃ f ∈ s.unseen, f.races a = true) ∧
          t = { s with response := .byte (Config.freeByte s.draws), draws := s.draws + 1 }) ∨
        ((∀ f ∈ s.unseen, f.races a = false) ∧ t = { s with response := .byte (s.byteAt a) })) := by
  unfold hostLoad at h
  split at h
  · rename_i hx
    exact absurd h (outsideMemory_stops hx)
  · rename_i hx
    refine ⟨hx, ?_⟩
    split at h
    · rename_i hu
      cases h
      exact .inl ⟨List.any_eq_true.1 hu, rfl⟩
    · rename_i hu
      split at h
      · cases h
      · cases h
        refine .inr ⟨fun f hf => ?_, rfl⟩
        rw [← Bool.not_eq_true]
        exact fun ho => hu (List.any_eq_true.2 ⟨f, hf, ho⟩)

/-- What `writeRanges` lists is what the latched command may write; nothing for an illegal word. -/
theorem mem_writeRanges (s : State) (a : Nat) :
    (∃ f ∈ writeRanges s.cfg s.latch, f.races a = true) ↔ ∃ i, s.latch.w = encode i ∧ WritableBy i s a := by
  unfold writeRanges
  cases hd : decode s.latch.w with
  | error e =>
    refine ⟨fun ⟨f, hf, _⟩ => (by cases hf), ?_⟩
    rintro ⟨i, hi, -⟩
    rw [hi, decode_encode] at hd
    cases hd
  | ok i =>
    have hi : ∀ j, s.latch.w = encode j → j = i := fun j hj => by
      rw [hj, decode_encode] at hd
      exact (Except.ok.inj hd)
    have hw : WritableBy i s a ↔ Footprint.races
        { src := s.latch.source, dst := s.latch.dest
          heap := match hexOutputLength s.latch i with
                  | some n => heapRegionUsed s.cfg s.latch n
                  | none => ⟨0, 0⟩ } a = true := by
      unfold WritableBy Footprint.races usedHeap
      cases hexOutputLength s.latch i <;> simp [and_comm, contains_iff]
    constructor
    · rintro ⟨f, hf, hr⟩
      obtain rfl := List.mem_singleton.1 hf
      exact ⟨i, decode_eq hd, hw.2 hr⟩
    · rintro ⟨j, hj, hr⟩
      obtain rfl := hi j hj
      exact ⟨_, List.mem_singleton.2 rfl, hw.1 hr⟩

/-- Accept adds what the command may write to the bytes that need maintenance (R80). -/
theorem unmaintained_accept {w : Word} {a : Nat} (hc : s.cfg.dmaCoherent = false) :
    Unmaintained (acceptCommand w s) a ↔
      Unmaintained s a ∨ ∃ i, w = encode i ∧ WritableBy i (acceptCommand w s) a := by
  have e : (acceptCommand w s).dmaDirty =
      writeRanges (acceptCommand w s).cfg (acceptCommand w s).latch ++ s.dmaDirty := by
    show (if s.cfg.dmaCoherent then _ else _) = _
    rw [hc]
    rfl
  have h : _ ↔ ∃ i, w = encode i ∧ WritableBy i (acceptCommand w s) a := mem_writeRanges (acceptCommand w s) a
  rw [← h, Unmaintained, Unmaintained]
  simp only [e, List.mem_append, or_and_right, exists_or]
  exact or_comm

/-- Maintenance leaves what a command in flight may write (R80). -/
theorem unmaintained_maintain {a : Nat} (hc : s.cfg.dmaCoherent = false) :
    Unmaintained (hostMaintain s) a ↔ s.engine = .busy ∧ ∃ i, s.latch.w = encode i ∧ WritableBy i s a := by
  rw [← mem_writeRanges, Unmaintained]
  cases hb : s.engine <;> simp [hostMaintain, State.busy, hb, hc]

/-- Which offsets name STATUS and CMD (R23). -/
theorem ofOffset_eq (o : BitVec 8) :
    (Reg.ofOffset o = .status ↔ o = 0x04) ∧ (Reg.ofOffset o = .cmd ↔ o = 0x08) := by
  revert o
  decide

end Sys2Proof.Laws
end

