-- ==== Sys2Proof/Laws/TwoRuns.lean ====
section
/-! SUPPORT. Two runs side by side: what a command body does from two states that agree but for L and the hidden
registers (R40, R42 to R45). One rule per operation, then one lemma per body: no difference reaches a value that a
later access or the completion uses. -/

namespace Sys2Proof.Laws

open Sys2Proof Sys2Proof.Machine

variable {α β : Type}

/-- The states agree but for L (with one opcode), ACC1, ACC2, KS, BLKBUF and SCRATCH. -/
def Alike (s t : State) : Prop :=
  ∃ L a1 a2 k b m, t = { s with latch := L, acc1 := a1, acc2 := a2, ks := k, blkbuf := b, scratch := m } ∧
    opc L.w = opc s.latch.w

theorem Alike.refl (s : State) : Alike s s := ⟨s.latch, s.acc1, s.acc2, s.ks, s.blkbuf, s.scratch, rfl, rfl⟩

/-- A change of the hidden registers on both sides keeps the states alike. -/
theorem Alike.hidden {s t : State} (h : Alike s t) (a1 a2 : Word) (k : Option Sched) (b : Block)
    (m : List Host.Cell) (a1' a2' : Word) (k' : Option Sched) (b' : Block) (m' : List Host.Cell) :
    Alike { s with acc1 := a1, acc2 := a2, ks := k, blkbuf := b, scratch := m }
      { t with acc1 := a1', acc2 := a2', ks := k', blkbuf := b', scratch := m' } := by
  obtain ⟨L, _, _, _, _, _, rfl, ho⟩ := h
  exact ⟨L, a1', a2', k', b', m', rfl, ho⟩

theorem Alike.byteAt {s t : State} (h : Alike s t) (a : Nat) : t.byteAt a = s.byteAt a := by
  obtain ⟨L, _, _, _, _, _, rfl, _⟩ := h
  rfl

theorem Alike.cfg {s t : State} (h : Alike s t) : t.cfg = s.cfg := by
  obtain ⟨L, _, _, _, _, _, rfl, _⟩ := h
  rfl

theorem Alike.draws {s t : State} (h : Alike s t) : t.draws = s.draws := by
  obtain ⟨L, _, _, _, _, _, rfl, _⟩ := h
  rfl

/-- From states related by `P` the commands end alike: with one value and states related by `Q`, or with one code
and alike. -/
def Paired (P : State → State → Prop) (x y : Cmd α) (Q : State → State → Prop) : Prop :=
  ∀ s t, P s t →
    (∃ a s' t', x s = .ok a s' ∧ y t = .ok a t' ∧ Q s' t') ∨
    (∃ e s' t', x s = .error e s' ∧ y t = .error e t' ∧ Alike s' t' ∧ e ≠ .ok)

variable {P Q R : State → State → Prop}

theorem paired_pure (a : α) (h : ∀ s t, P s t → Q s t) : Paired P (pure a : Cmd α) (pure a) Q :=
  fun s t hp => .inl ⟨a, s, t, rfl, rfl, h s t hp⟩

theorem paired_bind {x y : Cmd α} {f g : α → Cmd β} (hx : Paired P x y Q) (hf : ∀ a, Paired Q (f a) (g a) R) :
    Paired P (x >>= f) (y >>= g) R := by
  intro s t hp
  obtain ⟨a, s', t', h1, h2, hq⟩ | ⟨e, s', t', h1, h2, hq⟩ := hx s t hp
  · have e1 : (x >>= f) s = f a s' := by simp [bind, EStateM.bind, h1]
    have e2 : (y >>= g) t = g a t' := by simp [bind, EStateM.bind, h2]
    rw [e1, e2]
    exact hf a s' t' hq
  · exact .inr ⟨e, s', t', by simp [bind, EStateM.bind, h1], by simp [bind, EStateM.bind, h2], hq⟩

theorem paired_mono {P' Q' : State → State → Prop} {x y : Cmd α} (h : Paired P x y Q)
    (hp : ∀ s t, P' s t → P s t) (hq : ∀ s t, Q s t → Q' s t) : Paired P' x y Q' := by
  intro s t h'
  obtain ⟨a, s', t', h1, h2, h3⟩ | h3 := h s t (hp s t h')
  · exact .inl ⟨a, s', t', h1, h2, hq _ _ h3⟩
  · exact .inr h3

theorem paired_raiseWhen (c : Bool) (e : ErrCode) (h : ∀ s t, P s t → Alike s t) (he : e ≠ .ok := by decide) :
    Paired P (raiseWhen c e) (raiseWhen c e) P := by
  intro s t hp
  cases c
  · exact .inl ⟨(), s, t, rfl, rfl, hp⟩
  · exact .inr ⟨e, s, t, rfl, rfl, h s t hp, he⟩

theorem paired_dmaRead (a : Nat) (h : ∀ s t, P s t → Alike s t) : Paired P (dmaRead a) (dmaRead a) P := by
  intro s t hp
  have hb := (h s t hp).byteAt a
  have hr : t.refuses a .read = s.refuses a .read := by unfold State.refuses; rw [(h s t hp).cfg]
  unfold dmaRead
  rw [hb, hr]
  split
  · exact .inr ⟨_, s, t, rfl, rfl, h s t hp, by decide⟩
  · exact .inl ⟨_, s, t, rfl, rfl, hp⟩

/-- A relation that a change of host memory on both sides keeps. -/
def KeptByPut (P : State → State → Prop) : Prop := ∀ s t a v, P s t → P (s.putByte a v) (t.putByte a v)

theorem paired_dmaWrite (a : Nat) (v : Byte) (h : ∀ s t, P s t → Alike s t) (hk : KeptByPut P) :
    Paired P (dmaWrite a v) (dmaWrite a v) P := by
  intro s t hp
  have hr : t.refuses a .write = s.refuses a .write := by unfold State.refuses; rw [(h s t hp).cfg]
  unfold dmaWrite
  rw [hr]
  split
  · exact .inr ⟨_, s, t, rfl, rfl, h s t hp, by decide⟩
  · exact .inl ⟨_, _, _, rfl, rfl, hk s t a v hp⟩

/-- A loop over an invariant that follows its counter. -/
theorem paired_loop {f g : Nat → Cmd Unit} (I : Nat → State → State → Prop) {i n : Nat}
    (h : ∀ j, i ≤ j → j < i + n → Paired (I j) (f j) (g j) (I (j + 1))) :
    Paired (I i) (loop f i n) (loop g i n) (I (i + n)) := by
  induction n generalizing i with
  | zero => exact paired_pure _ fun _ _ h => h
  | succ n ih =>
    have e : i + (n + 1) = i + 1 + n := by omega
    rw [e]
    exact paired_bind (h i (by omega) (by omega)) fun _ => ih fun j h1 h2 => h j (by omega) (by omega)

theorem keptByPut_alike : KeptByPut Alike := by
  rintro s t a v ⟨L, a1, a2, k, b, m, rfl, ho⟩
  exact ⟨L, a1, a2, k, b, m, rfl, ho⟩

/-! ### HASHKEY -/

/-- Alike, with the same accumulators. -/
def SameAcc (s t : State) : Prop := Alike s t ∧ t.acc1 = s.acc1 ∧ t.acc2 = s.acc2

/-- Alike, with the same accumulators wherever the completion would read them (R121). -/
def Agree (s t : State) : Prop := Alike s t ∧ (opc s.latch.w = 0x01 → t.acc1 = s.acc1 ∧ t.acc2 = s.acc2)

theorem Agree.hidden {s t : State} (h : Agree s t) (k : Option Sched) (b : Block) (m : List Host.Cell)
    (k' : Option Sched) (b' : Block) (m' : List Host.Cell) :
    Agree { s with ks := k, blkbuf := b, scratch := m } { t with ks := k', blkbuf := b', scratch := m' } :=
  ⟨h.1.hidden _ _ _ _ _ _ _ _ _ _, h.2⟩

theorem keptByPut_agree : KeptByPut Agree := fun s t a v h => ⟨keptByPut_alike s t a v h.1, h.2⟩

theorem agree_of_sameAcc {s t : State} (h : SameAcc s t) : Agree s t := ⟨h.1, fun _ => h.2⟩

theorem keptByPut_sameAcc : KeptByPut SameAcc := fun s t a v h => ⟨keptByPut_alike s t a v h.1, h.2⟩

theorem paired_hashkeyBody (L : Latched) : Paired Alike (hashkeyBody L) (hashkeyBody L) Agree := by
  refine paired_mono (Q := SameAcc) ?_ (fun _ _ h => h) fun _ _ => agree_of_sameAcc
  have hA : ∀ s t, SameAcc s t → Alike s t := fun _ _ h => h.1
  refine paired_bind (paired_raiseWhen _ _ fun _ _ h => h) fun _ => ?_
  refine paired_bind (Q := SameAcc) (fun s t h => .inl ⟨_, _, _, rfl, rfl, h.hidden _ _ _ _ _ _ _ _ _ _, rfl, rfl⟩)
    fun _ => ?_
  refine paired_bind (paired_loop (fun _ => SameAcc) fun j _ _ => ?_) fun _ => ?_
  · refine paired_bind (paired_dmaRead _ hA) fun c s t h => .inl ⟨_, _, _, rfl, rfl, h.1.hidden _ _ _ _ _ _ _ _ _ _, ?_, ?_⟩
    · simp only [h.2.1, h.2.2]
    · simp only [h.2.1, h.2.2]
  intro s t h
  have e1 : (get >>= fun s : State => do
      loop (fun j => dmaWrite (L.dstAt j) (byteLane s.acc1 j)) 0 4
      loop (fun j => dmaWrite (L.dstAt (4 + j)) (byteLane s.acc2 j)) 0 4
      return 8 : Cmd Nat) t = (do
      loop (fun j => dmaWrite (L.dstAt j) (byteLane s.acc1 j)) 0 4
      loop (fun j => dmaWrite (L.dstAt (4 + j)) (byteLane s.acc2 j)) 0 4
      return 8 : Cmd Nat) t := by
    rw [← h.2.1, ← h.2.2]; rfl
  rw [e1]
  refine paired_bind (paired_loop (fun _ => SameAcc) fun j _ _ => paired_dmaWrite _ _ hA keptByPut_sameAcc)
    (fun _ => ?_) s t h
  refine paired_bind (paired_loop (fun _ => SameAcc) fun j _ _ => paired_dmaWrite _ _ hA keptByPut_sameAcc) fun _ => ?_
  exact paired_pure _ fun _ _ h => h

/-! ### The hex commands -/

/-- In agreement, with the first `k` bytes of SCRATCH in the same state on both sides. -/
def SameBuffer (buf : Backing) (k : Nat) (s t : State) : Prop :=
  Agree s t ∧ (buf = .scratch → ∀ j, j < k → lookupCell t.scratch j = lookupCell s.scratch j)

theorem keptByPut_sameBuffer (buf : Backing) (k : Nat) : KeptByPut (SameBuffer buf k) :=
  fun s t a v h => ⟨keptByPut_agree s t a v h.1, h.2⟩

theorem paired_bufWrite (L : Latched) (buf : Backing) (k : Nat) (v : Byte) :
    Paired (SameBuffer buf k) (bufWrite L buf k v) (bufWrite L buf k v) (SameBuffer buf (k + 1)) := by
  cases buf with
  | heap =>
    refine paired_mono (paired_dmaWrite _ _ (fun _ _ h => h.1.1) (keptByPut_sameBuffer .heap k)) (fun _ _ h => h) ?_
    exact fun _ _ h => ⟨h.1, fun e => by cases e⟩
  | scratch =>
    intro s t h
    refine .inl ⟨(), _, _, rfl, rfl, h.1.hidden _ _ _ _ _ _, fun _ j hj => ?_⟩
    by_cases e : j = k
    · subst e
      rw [lookupCell_insertCell_same _ (lookupCell_eraseCell_same _ _),
        lookupCell_insertCell_same _ (lookupCell_eraseCell_same _ _)]
    · rw [lookupCell_insertCell_other _ _ e, lookupCell_insertCell_other _ _ e,
        lookupCell_eraseCell_other _ e, lookupCell_eraseCell_other _ e]
      exact h.2 rfl j (by omega)

theorem paired_copyout (L : Latched) (buf : Backing) (n : Nat) :
    Paired (SameBuffer buf n) (copyout L buf n) (copyout L buf n) (SameBuffer buf n) := by
  refine paired_loop (fun _ => SameBuffer buf n) fun k _ hk => ?_
  refine paired_bind (Q := SameBuffer buf n) ?_ fun v =>
    paired_dmaWrite _ _ (fun _ _ h => h.1.1) (keptByPut_sameBuffer buf n)
  cases buf with
  | heap => exact paired_dmaRead _ fun _ _ h => h.1.1
  | scratch =>
    intro s t h
    refine .inl ⟨_, s, t, rfl, ?_, h⟩
    show EStateM.Result.ok ((lookupCell t.scratch k).getD (Config.freeScratch (t.draws + k))) t = _
    rw [h.2 rfl k (by omega), h.1.1.draws]

theorem alike_drawRange (keep : Nat → Bool) (a n : Nat) {s t : State} (h : Alike s t) :
    Alike (drawRange keep a n s) (drawRange keep a n t) := by
  induction n generalizing a s t with
  | zero => exact h
  | succ n ih =>
    rw [drawRange, drawRange]
    split
    · exact ih _ h
    · refine ih _ ?_
      obtain ⟨L, a1, a2, k, b, m, rfl, ho⟩ := h
      exact ⟨L, a1, a2, k, b, m, rfl, ho⟩

theorem agree_drawRange (keep : Nat → Bool) (a n : Nat) {s t : State} (h : Agree s t) :
    Agree (drawRange keep a n s) (drawRange keep a n t) := by
  refine ⟨alike_drawRange _ _ _ h.1, ?_⟩
  have hk : ∀ (n a : Nat) (u : State), (drawRange keep a n u).acc1 = u.acc1 ∧ (drawRange keep a n u).acc2 = u.acc2 ∧
      (drawRange keep a n u).latch = u.latch := by
    intro n
    induction n with
    | zero => exact fun _ _ => ⟨rfl, rfl, rfl⟩
    | succ n ih =>
      intro a u
      rw [drawRange]
      split
      · exact ih _ u
      · exact ih _ (drawByte a u)
  rw [(hk n a s).1, (hk n a s).2.1, (hk n a s).2.2, (hk n a t).1, (hk n a t).2.1]
  exact h.2

theorem paired_setPathsel (b : Bool) : Paired Agree (setPathsel b) (setPathsel b) Agree := by
  rintro s t ⟨⟨L, a1, a2, k, c, m, rfl, ho⟩, ha⟩
  exact .inl ⟨(), _, _, rfl, rfl, ⟨L, a1, a2, k, c, m, rfl, ho⟩, ha⟩

theorem paired_alloc (L : Latched) (n : Nat) : Paired Agree (alloc L n) (alloc L n) Agree := by
  intro s t h
  have hA : ∀ s t, Agree s t → Alike s t := fun _ _ h => h.1
  have e : ∀ u : State, alloc L n u = (if n ≤ u.cfg.scratchCap then do
      setPathsel false
      return .scratch
    else do
      setPathsel true
      raiseWhen (L.heaplen.toNat < n) .alloc
      raiseWhen (!(L.heapRegion n).valid) .range
      raiseWhen ((L.heapRegion n).overlaps L.source || (L.heapRegion n).overlaps L.dest) .overlap
      return .heap : Cmd Backing) u := fun _ => rfl
  rw [e s, e t, h.1.cfg]
  split
  · exact paired_bind (paired_setPathsel _) (fun _ => paired_pure _ fun _ _ h => h) s t h
  · refine paired_bind (paired_setPathsel _) (fun _ => ?_) s t h
    refine paired_bind (paired_raiseWhen _ _ hA) fun _ => ?_
    refine paired_bind (paired_raiseWhen _ _ hA) fun _ => ?_
    exact paired_bind (paired_raiseWhen _ _ hA) fun _ => paired_pure _ fun _ _ h => h

theorem paired_withBuffer (L : Latched) (n : Nat) {work : Backing → Cmd Unit}
    (h : ∀ buf, Paired Agree (work buf) (work buf) Agree) :
    Paired Agree (withBuffer L n work) (withBuffer L n work) Agree := by
  intro s t hp
  rcases paired_bind (paired_alloc L n) h s t hp with ⟨a, s', t', h1, h2, h3⟩ | ⟨e, s', t', h1, h2, h3, h4⟩
  · refine .inl ⟨(), releaseBuffer L (decide (s.cfg.scratchCap < n)) n s',
      releaseBuffer L (decide (s.cfg.scratchCap < n)) n t', by simp only [withBuffer, h1],
      by simp only [withBuffer, h2, hp.1.cfg], ?_⟩
    unfold releaseBuffer
    split
    · exact agree_drawRange _ _ _ h3
    · exact h3
  · refine .inr ⟨e, releaseBuffer L (decide (s.cfg.scratchCap < n)) n s',
      releaseBuffer L (decide (s.cfg.scratchCap < n)) n t', by simp only [withBuffer, h1],
      by simp only [withBuffer, h2, hp.1.cfg], ?_, h4⟩
    unfold releaseBuffer
    split
    · exact alike_drawRange _ _ _ h3
    · exact h3

theorem paired_hexEncBody (L : Latched) : Paired Agree (hexEncBody L) (hexEncBody L) Agree := by
  have hA : ∀ s t, Agree s t → Alike s t := fun _ _ h => h.1
  refine paired_bind (paired_raiseWhen _ _ hA) fun _ => ?_
  refine paired_bind (paired_withBuffer L _ fun buf => ?_) fun _ => paired_pure _ fun _ _ h => h
  have hl := paired_loop (f := encodeByte L buf) (g := encodeByte L buf) (fun i => SameBuffer buf (2 * i))
    (i := 0) (n := L.srclen.toNat) fun i _ _ => by
      refine paired_bind (paired_dmaRead _ fun _ _ h => h.1.1) fun c => ?_
      exact paired_bind (paired_bufWrite L buf _ _) fun _ => paired_bufWrite L buf _ _
  rw [Nat.zero_add] at hl
  refine paired_bind (paired_mono hl (fun s t h => ⟨h, fun _ j hj => absurd hj (by omega)⟩) fun _ _ h => h) fun _ => ?_
  exact paired_mono (paired_copyout L buf _) (fun _ _ h => h) fun _ _ h => h.1

theorem paired_hexDecBody (L : Latched) : Paired Agree (hexDecBody L) (hexDecBody L) Agree := by
  have hA : ∀ s t, Agree s t → Alike s t := fun _ _ h => h.1
  refine paired_bind (paired_raiseWhen _ _ hA) fun _ => paired_bind (paired_raiseWhen _ _ hA) fun _ => ?_
  refine paired_bind (paired_withBuffer L _ fun buf => ?_) fun _ => paired_pure _ fun _ _ h => h
  have hl := paired_loop (f := decodePair L buf) (g := decodePair L buf) (fun i => SameBuffer buf i)
    (i := 0) (n := L.srclen.toNat / 2) fun i _ _ => by
      refine paired_bind (paired_dmaRead _ fun _ _ h => h.1.1) fun a => ?_
      refine paired_bind (paired_dmaRead _ fun _ _ h => h.1.1) fun b => ?_
      exact paired_bind (paired_raiseWhen _ _ fun _ _ h => h.1.1) fun _ => paired_bufWrite L buf _ _
  rw [Nat.zero_add] at hl
  refine paired_bind (paired_mono hl (fun s t h => ⟨h, fun _ j hj => absurd hj (by omega)⟩) fun _ _ h => h) fun _ => ?_
  exact paired_mono (paired_copyout L buf _) (fun _ _ h => h) fun _ _ h => h.1

/-! ### The DES commands -/

/-- In agreement, with the same key schedule. -/
def SameKey (s t : State) : Prop := Agree s t ∧ t.ks = s.ks

/-- In agreement, with the same key schedule and the same first `j` bytes of BLKBUF. -/
def SameBlock (j : Nat) (s t : State) : Prop := SameKey s t ∧ ∀ i, i < j → t.blkbuf.get i = s.blkbuf.get i

theorem keptByPut_sameKey : KeptByPut SameKey := fun s t a v h => ⟨keptByPut_agree s t a v h.1, h.2⟩

theorem paired_setBlkbuf {j : Nat} (v : Byte) (hj : j < 8) :
    Paired (SameBlock j) (setBlkbuf j v) (setBlkbuf j v) (SameBlock (j + 1)) := by
  intro s t h
  refine .inl ⟨(), _, _, rfl, rfl, ⟨h.1.1.hidden _ _ _ _ _ _, h.1.2⟩, fun i hi => ?_⟩
  show (t.blkbuf.set j v).get i = (s.blkbuf.set j v).get i
  rw [block_get_set _ _ (by omega) hj, block_get_set _ _ (by omega) hj]
  split
  · rfl
  · exact h.2 i (by omega)

/-- The states agree in everything a block's transform uses. -/
def SameBlkbuf (s t : State) : Prop := SameKey s t ∧ t.blkbuf = s.blkbuf

theorem sameBlkbuf_of_block {s t : State} (h : SameBlock 8 s t) : SameBlkbuf s t := ⟨h.1, block_ext h.2⟩

theorem keptByPut_sameBlkbuf : KeptByPut SameBlkbuf := fun s t a v h => ⟨keptByPut_sameKey s t a v h.1, h.2⟩

theorem paired_transformBlkbuf (dir : CipherDir) :
    Paired SameBlkbuf (transformBlkbuf dir) (transformBlkbuf dir) SameBlkbuf := by
  intro s t h
  refine .inl ⟨(), _, _, rfl, rfl, ⟨h.1.1.hidden _ _ _ _ _ _, h.1.2⟩, ?_⟩
  simp only [h.1.2, h.2]

/-- The transform, then writes made from the block it leaves. -/
theorem paired_blockTail {dir : CipherDir} {w : Block → Cmd Unit}
    (hw : ∀ b, Paired SameBlkbuf (w b) (w b) SameBlkbuf) :
    Paired (SameBlock 8) (do transformBlkbuf dir; let s ← get; w s.blkbuf) (do transformBlkbuf dir; let s ← get; w s.blkbuf)
      SameKey := by
  refine paired_mono (P := SameBlkbuf) (Q := SameBlkbuf) ?_ (fun _ _ => sameBlkbuf_of_block) fun _ _ h => h.1
  refine paired_bind (paired_transformBlkbuf dir) fun _ => ?_
  intro s t h
  have e : (get >>= fun s : State => w s.blkbuf) t = w s.blkbuf t := by
    rw [← h.2]; rfl
  rw [e]
  exact hw s.blkbuf s t h

theorem paired_encryptBlock (L : Latched) (k : Nat) :
    Paired SameKey (encryptBlock L k) (encryptBlock L k) SameKey := by
  have hr : min 8 (L.srclen.toNat - 8 * k) ≤ 8 := Nat.min_le_left _ _
  refine paired_mono (P := SameBlock 0) (Q := SameKey) ?_ (fun s t h => ⟨h, fun i hi => absurd hi (by omega)⟩)
    fun _ _ h => h
  refine paired_bind (Q := SameBlock (0 + min 8 (L.srclen.toNat - 8 * k))) (paired_loop SameBlock fun j _ hj => ?_)
    fun _ => ?_
  · exact paired_bind (paired_dmaRead _ fun _ _ h => h.1.1.1) fun v => paired_setBlkbuf v (by omega)
  rw [Nat.zero_add]
  refine paired_bind (paired_loop SameBlock fun j _ hj => paired_setBlkbuf _ (by omega)) fun _ => ?_
  rw [show min 8 (L.srclen.toNat - 8 * k) + (8 - min 8 (L.srclen.toNat - 8 * k)) = 8 by omega]
  exact paired_blockTail (w := fun b => loop (fun j => dmaWrite (L.dstAt (8 * k + j)) (b.get j)) 0 8) fun b =>
    paired_loop (fun _ => SameBlkbuf) fun j _ _ => paired_dmaWrite _ _ (fun _ _ h => h.1.1.1) keptByPut_sameBlkbuf

theorem paired_decryptBlock (L : Latched) (n k : Nat) :
    Paired SameKey (decryptBlock L n k) (decryptBlock L n k) SameKey := by
  refine paired_mono (P := SameBlock 0) (Q := SameKey) ?_ (fun s t h => ⟨h, fun i hi => absurd hi (by omega)⟩)
    fun _ _ h => h
  refine paired_bind (Q := SameBlock (0 + 8)) (paired_loop SameBlock fun j _ hj => ?_) fun _ => ?_
  · exact paired_bind (paired_dmaRead _ fun _ _ h => h.1.1.1) fun v => paired_setBlkbuf v (by omega)
  refine paired_blockTail (w := fun b => loop (writeRecovered L n k b) 0 8) fun b =>
    paired_loop (fun _ => SameBlkbuf) fun j _ _ => ?_
  unfold writeRecovered
  split
  · exact paired_dmaWrite _ _ (fun _ _ h => h.1.1.1) keptByPut_sameBlkbuf
  · exact paired_pure _ fun _ _ h => h

theorem paired_setupKey (L : Latched) : Paired Agree (setupKey L) (setupKey L) SameKey := by
  intro s t h
  refine .inl ⟨(), _, _, rfl, rfl, h.hidden _ _ _ _ _ _, ?_⟩
  show some (ksetup t.cfg.primitive L.key) = some (ksetup s.cfg.primitive L.key)
  rw [h.1.cfg]

theorem paired_desEncBody (L : Latched) : Paired Agree (desEncBody L) (desEncBody L) Agree := by
  have hA : ∀ s t, Agree s t → Alike s t := fun _ _ h => h.1
  refine paired_bind (paired_raiseWhen _ _ hA) fun _ => paired_bind (paired_raiseWhen _ _ hA) fun _ => ?_
  refine paired_bind (paired_setupKey L) fun _ => ?_
  refine paired_bind (paired_loop (fun _ => SameKey) fun k _ _ => paired_encryptBlock L k) fun _ => ?_
  refine paired_bind (paired_dmaWrite _ _ (fun _ _ h => h.1.1) keptByPut_sameKey) fun _ => ?_
  exact paired_pure _ fun _ _ h => h.1

theorem paired_desDecBody (L : Latched) : Paired Agree (desDecBody L) (desDecBody L) Agree := by
  have hA : ∀ s t, Agree s t → Alike s t := fun _ _ h => h.1
  refine paired_bind (paired_raiseWhen _ _ hA) fun _ => paired_bind (paired_raiseWhen _ _ hA) fun _ => ?_
  refine paired_bind (paired_dmaRead _ hA) fun p => paired_bind (paired_raiseWhen _ _ hA) fun _ => ?_
  have ht : ∀ strict : Bool, Paired Agree
      (do raiseWhen (strict && 8 ≤ p.toNat) .malformed
          raiseWhen (L.dstcap.toNat < L.srclen.toNat - 1 - p.toNat) .dstcap
          setupKey L
          loop (decryptBlock L (L.srclen.toNat - 1 - p.toNat)) 0 ((L.srclen.toNat - 1) / 8)
          return L.srclen.toNat - 1 - p.toNat : Cmd Nat)
      (do raiseWhen (strict && 8 ≤ p.toNat) .malformed
          raiseWhen (L.dstcap.toNat < L.srclen.toNat - 1 - p.toNat) .dstcap
          setupKey L
          loop (decryptBlock L (L.srclen.toNat - 1 - p.toNat)) 0 ((L.srclen.toNat - 1) / 8)
          return L.srclen.toNat - 1 - p.toNat : Cmd Nat) Agree := fun strict => by
    refine paired_bind (paired_raiseWhen _ _ hA) fun _ => paired_bind (paired_raiseWhen _ _ hA) fun _ => ?_
    refine paired_bind (paired_setupKey L) fun _ => ?_
    refine paired_bind (paired_loop (fun _ => SameKey) fun k _ _ => paired_decryptBlock L _ k) fun _ => ?_
    exact paired_pure _ fun _ _ h => h.1
  intro s t h
  obtain ⟨⟨L', a1, a2, k, b, m, rfl, ho⟩, ha⟩ := h
  exact ht s.cfg.trailerStrict s _ ⟨⟨L', a1, a2, k, b, m, rfl, ho⟩, ha⟩

/-! ### Completion -/

theorem complete_alike {e : ErrCode} {n : Nat} {s t : State} (h : Alike s t)
    (ha : e = .ok → opc s.latch.w = 0x01 → t.acc1 = s.acc1 ∧ t.acc2 = s.acc2) : complete e n t = complete e n s := by
  obtain ⟨L, a1, a2, k, b, m, rfl, ho⟩ := h
  unfold complete forgetHidden
  simp only [ho]
  by_cases hc : e = .ok ∧ opc s.latch.w = 0x01
  · obtain ⟨h1, h2⟩ := ha hc.1 hc.2
    simp only at h1 h2
    rw [h1, h2]
  · simp only [hc, if_false]

/-- Two runs of one body, over operand sets that agree in the ranges, end in one state. -/
theorem runCommand_paired {body : Latched → Cmd Nat} {s t : State} (hp : P s t) (hP : ∀ s t, P s t → Alike s t)
    (hs : t.latch.source = s.latch.source) (hd : t.latch.dest = s.latch.dest) (hL : body t.latch = body s.latch)
    (hb : Paired P (body s.latch) (body s.latch) Agree) : runCommand body t = runCommand body s := by
  have hall : Paired P (do checkRanges s.latch; checkOverlap s.latch; body s.latch : Cmd Nat)
      (do checkRanges s.latch; checkOverlap s.latch; body s.latch : Cmd Nat) Agree :=
    paired_bind (paired_raiseWhen _ _ hP) fun _ => paired_bind (paired_raiseWhen _ _ hP) fun _ => hb
  have e : (do checkRanges t.latch; checkOverlap t.latch; body t.latch : Cmd Nat) =
      (do checkRanges s.latch; checkOverlap s.latch; body s.latch : Cmd Nat) := by
    simp only [checkRanges, checkOverlap, hs, hd, hL]
  unfold runCommand
  simp only [e]
  obtain ⟨n, u, v, h1, h2, hq⟩ | ⟨c, u, v, h1, h2, hq⟩ := hall s t hp
  · rw [h1, h2]
    exact complete_alike hq.1 fun _ => hq.2
  · rw [h1, h2]
    exact complete_alike hq.1 fun h => absurd h hq.2

end Sys2Proof.Laws
end

