-- ==== Sys2Proof/Tests/Slice0.lean ====
section
/-! SUPPORT. Tests with results taken from the spec's own words and vectors (95_test_vectors.md), and for each
statement of Obligations.lean that has hypotheses a concrete state that meets them together. -/

namespace Sys2Proof.Tests

set_option Elab.async false

open Sys2Proof Sys2Proof.Machine Sys2Proof.Safety

/-! ### Helpers -/

/-- Bytes stored in host memory from `a` on. -/
def storeAll : Nat → List Byte → State → State
  | _, [], s => s
  | a, b :: bs, s => storeAll (a + 1) bs (s.putByte a b)

/-- Operand registers as 95_test_vectors.md sets them: source 0x10000, destination 0x20000, the key text
"12345678". -/
def base : State :=
  { State.reset with
    srcAddr := 0x10000, dstAddr := 0x20000, dstCap := 64
    keyLen := 8, key0 := 0x34333231, key1 := 0x38373635
    heapAddr := 0x30000, heapLen := 16 }

/-- The source bytes are stored and SRC_LEN is their number. -/
def withText (bytes : List Byte) (s : State) : State :=
  storeAll 0x10000 bytes { s with srcLen := BitVec.ofNat 32 bytes.length }

/-- A command accepted over the source bytes. -/
def job (i : Instr) (bytes : List Byte) (s : State) : State := acceptCommand (encode i) (withText bytes s)

/-- The state after a command. -/
def ran (i : Instr) (s : State) : State :=
  match exec i s with
  | .next t => t
  | .fault _ => s
  | .refused _ => s

/-- ERRCODE, RES_LEN, STATUS and the first `n` destination bytes after the step that runs a command word. -/
def result (w : Nat) (bytes : List Byte) (n : Nat) (s : State) : Option (Nat × Nat × Nat × List Byte) :=
  match step ((withText bytes s).withFetchWord 32 w) with
  | .next t =>
    some (t.errcodeWord.toNat, t.resLen.toNat, t.statusWord.toNat, bytesFrom t 0x20000 n)
  | .fault _ => none
  | .refused _ => none

/-- The platform refuses one byte of one direction. -/
def refusing (d : Dir) (a : Nat) (s : State) : State :=
  { s with cfg := { s.cfg with refused := [⟨d, ⟨a, 1⟩⟩] } }

/-- The scratch region has `n` bytes. -/
def scratchOf (n : Nat) (s : State) : State := { s with cfg := { s.cfg with scratchCap := n } }

/-- The platform has a device at 0x50000. -/
def withDevice (s : State) : State := { s with cfg := { s.cfg with devices := [⟨0x50000, 4⟩] } }

/-- The platform's DMA is not coherent. -/
def nonCoherent (s : State) : State := { s with cfg := { s.cfg with dmaCoherent := false } }

/-- The text "abc". -/
def abc : List Byte := [0x61, 0x62, 0x63]

/-- DES_ENC of "HELLO" under "12345678" (V31). -/
def helloCipher : List Byte := [0x42, 0xfa, 0xa5, 0xd0, 0x20, 0x36, 0x84, 0xc0, 0x03]

/-! ### Well-formedness: each check refuses an ill-formed term -/

theorem test_wf_reset_config : State.reset.cfg.wf = true := by decide
theorem test_wf_base_unaligned : ({ Config.initial with base := 0x40000004 } : Config).baseOk = false := by decide
theorem test_wf_base_too_high : ({ Config.initial with base := 0x100000000 } : Config).baseOk = false := by decide
theorem test_wf_scratch_too_large : ({ Config.initial with scratchCap := 2 ^ 32 } : Config).scratchOk = false := by
  decide
theorem test_wf_reserved_bits : reservedClear 0x00000101 = false := by decide
theorem test_wf_opcode_zero : opcodeAssigned 0x00000000 = false := by decide
theorem test_wf_opcode_six : opcodeAssigned 0x00000006 = false := by decide
theorem test_wf_memory_unwritten_entry : Memory.wf ⟨[(5, 0)], []⟩ = false := by decide
theorem test_wf_memory_order : Memory.wf ⟨[(5, 1), (4, 1)], []⟩ = false := by decide

/-! ### Decoding: the words of R92 written out bit by bit -/

theorem test_decode_hashkey :
    decodeTableWord 32 0b00000000_00000000_00000000_00000001 = some .hashkey := by decide
theorem test_decode_hexEnc :
    decodeTableWord 32 0b00000000_00000000_00000000_00000010 = some .hexEnc := by decide
theorem test_decode_hexDec :
    decodeTableWord 32 0b00000000_00000000_00000000_00000011 = some .hexDec := by decide
theorem test_decode_desEnc :
    decodeTableWord 32 0b00000000_00000000_00000000_00000100 = some .desEnc := by decide
theorem test_decode_desDec :
    decodeTableWord 32 0b00000000_00000000_00000000_00000101 = some .desDec := by decide

/-! ### One command each -/

/-- V4. -/
theorem test_hashkey_abc : result 1 abc 8 base =
    some (0, 8, 2, [0x8b, 0x5c, 0x88, 0x0b, 0xa1, 0x17, 0x9b, 0x1a]) := by decide +kernel

/-- V6: bytes are unsigned. -/
theorem test_hashkey_unsigned : result 1 [0xff, 0xff, 0xff, 0xff] 8 base =
    some (0, 8, 2, [0xc1, 0x42, 0xed, 0x7c, 0xcd, 0xe9, 0xe1, 0x40]) := by decide +kernel

/-- V12. -/
theorem test_hexEnc_scratch : result 2 [0x00, 0xff, 0x5a, 0x10] 8 base =
    some (0, 8, 2, [0x30, 0x30, 0x66, 0x66, 0x35, 0x61, 0x31, 0x30]) := by decide +kernel

/-- R161, R165: the heap path shows as STATUS.PATH = 1 and gives the same text. -/
theorem test_hexEnc_heap : result 2 [0x00, 0xff, 0x5a, 0x10] 8 (scratchOf 7 base) =
    some (0, 8, 10, [0x30, 0x30, 0x66, 0x66, 0x35, 0x61, 0x31, 0x30]) := by decide +kernel

/-- V20. -/
theorem test_hexDec_hello :
    result 3 [0x34, 0x38, 0x34, 0x35, 0x34, 0x63, 0x34, 0x63, 0x34, 0x66] 6 base =
    some (0, 5, 2, [0x48, 0x45, 0x4c, 0x4c, 0x4f, 0x00]) := by decide +kernel

/-- V25: uppercase is rejected, and nothing is written. -/
theorem test_hexDec_uppercase : result 3 [0x41, 0x42, 0x43, 0x44] 2 base = some (5, 0, 6, [0, 0]) := by
  decide +kernel

/-- V31. -/
theorem test_desEnc_hello : result 4 [0x48, 0x45, 0x4c, 0x4c, 0x4f] 9 base =
    some (0, 9, 2, helloCipher) := by decide +kernel

/-- V60: the write of destination byte 3 is refused; the three before it stand. -/
theorem test_desEnc_refused : result 4 [0x48, 0x45, 0x4c, 0x4c, 0x4f] 9 (refusing .write 0x20003 base) =
    some (9, 0, 6, [0x42, 0xfa, 0xa5, 0, 0, 0, 0, 0, 0]) := by decide +kernel

/-- V41. -/
theorem test_desDec_hello : result 5 helloCipher 6 base =
    some (0, 5, 2, [0x48, 0x45, 0x4c, 0x4c, 0x4f, 0]) := by decide +kernel

/-- V47: a trailer above the body length is malformed. -/
theorem test_desDec_trailer :
    result 5 [0x42, 0xfa, 0xa5, 0xd0, 0x20, 0x36, 0x84, 0xc0, 0x09] 2 base = some (6, 0, 6, [0, 0]) := by
  decide +kernel

/-- V54: reserved bits set. -/
theorem test_illegal_word : result 0x104 abc 2 base = some (1, 0, 6, [0, 0]) := by decide +kernel

/-- R180's check of the default primitive (V40). -/
theorem test_des_check :
    blk .enc (ksetup .des ⟨0x13, 0x34, 0x57, 0x79, 0x9b, 0xbc, 0xdf, 0xf1⟩)
      ⟨0x01, 0x23, 0x45, 0x67, 0x89, 0xab, 0xcd, 0xef⟩ =
      ⟨0x85, 0xe8, 0x13, 0x54, 0x0f, 0x0a, 0xb4, 0x05⟩ := by decide +kernel

/-! ### Witnesses: states that meet the hypotheses of each statement together -/

/-- A running HASHKEY of "abc". -/
def hashJob : State := job .hashkey abc base
/-- A running HEX_ENC on the scratch path. -/
def encJob : State := job .hexEnc abc base
/-- A running HEX_ENC on the heap path. -/
def encHeapJob : State := job .hexEnc abc (scratchOf 5 base)
/-- A second command over the `len` bytes at 0x20000, to 0x40000, with exactly the room it needs. -/
def rejob (i : Instr) (len cap : Word) (s : State) : State :=
  acceptCommand (encode i) { s with srcAddr := 0x20000, srcLen := len, dstAddr := 0x40000, dstCap := cap }
/-- HEX_DEC of what `encJob` wrote. -/
def decJob : State := rejob .hexDec 6 3 (ran .hexEnc encJob)
/-- HEX_DEC on the heap path. -/
def decHeapJob : State := job .hexDec [0x34, 0x38, 0x34, 0x35] (scratchOf 1 base)
/-- A running DES_ENC of "HELLO". -/
def desJob : State := job .desEnc [0x48, 0x45, 0x4c, 0x4c, 0x4f] base
/-- DES_DEC of what `desJob` wrote. -/
def undesJob : State := rejob .desDec 9 5 (ran .desEnc desJob)

theorem rejob_byteAt (i : Instr) (len cap : Word) (s : State) (a : Nat) :
    (rejob i len cap s).byteAt a = s.byteAt a := rfl
theorem rejob_word (i : Instr) (len cap : Word) (s : State) : Loaded i (rejob i len cap s) := rfl
theorem ran_hexEnc (s : State) : exec .hexEnc s = .next (ran .hexEnc s) := rfl
theorem ran_hexDec (s : State) : exec .hexDec s = .next (ran .hexDec s) := rfl
theorem ran_hashkey (s : State) : exec .hashkey s = .next (ran .hashkey s) := rfl
theorem ran_desEnc (s : State) : exec .desEnc s = .next (ran .desEnc s) := rfl

/-- A platform that refuses nothing allows every range. -/
theorem allows_of_refused_nil {s : State} (h : s.cfg.refused = []) (r : Range) (d : Dir) : Allows s r d := by
  intro a _
  simp [State.refuses, h]

theorem storeAll_cfg (a : Nat) (bytes : List Byte) (s : State) : (storeAll a bytes s).cfg = s.cfg := by
  induction bytes generalizing a s with
  | nil => rfl
  | cons b bytes ih => exact ih _ _

/-- A job on a platform that refuses one byte of one direction: what it refuses. -/
theorem refuses_job {i : Instr} {bytes : List Byte} {d e : Dir} {a b : Nat} {s : State} :
    (job i bytes (refusing d a s)).refuses b e = true ↔ d = e ∧ a = b := by
  have hc : (job i bytes (refusing d a s)).cfg.refused = [⟨d, ⟨a, 1⟩⟩] :=
    congrArg Config.refused (storeAll_cfg _ _ _)
  simp [State.refuses, hc, Range.contains]
  omega

theorem allows_job {i : Instr} {bytes : List Byte} {d e : Dir} {a b : Nat} {s : State} (h : d ≠ e ∨ a ≠ b) :
    (job i bytes (refusing d a s)).refuses b e = false := by
  rw [← Bool.not_eq_true, refuses_job]
  tauto

theorem witness_DecodeIsInverseOfEncode : decode 0x00000005 = .ok .desDec ∧ (0x00000005 : Word) = encode .desDec :=
  ⟨rfl, rfl⟩

theorem witness_IllegalWordsAreRejectedByName :
    rsv 0x00000101 ≠ 0 ∧ rsv 0x80000001 ≠ 0 ∧ (rsv 0x00000000 = 0 ∧ opc 0x00000000 = 0) ∧
    (rsv 0x00000006 = 0 ∧ 6 ≤ (opc 0x00000006).toNat) ∧ (rsv 0x000000FF = 0 ∧ 6 ≤ (opc 0x000000FF).toNat) ∧
    legalWord 0x00000001 = true ∧ legalWord 0x00000005 = true := by decide

theorem witness_StepRunsDecodedCommand :
    hashJob.resetActive = false ∧ hashJob.engine = .busy ∧ decode hashJob.fetchWord = .ok .hashkey ∧
    hashJob.inputs = [] ∧ ({ hashJob with inputs := [.engine, .engine] } : State).inputs = .engine :: [.engine] ∧
    decodeTableWord 32 0x00000001 = some .hashkey := ⟨rfl, rfl, rfl, rfl, rfl, rfl⟩

/-- Both sides of each disjunction, at the reserved field's ends and the opcode's. -/
theorem witness_IllegalWordCompletesWithOpcodeError : ∀ w ∈ [0x00000101#32, 0x80000001#32, 0x0#32, 0x6#32, 0xFF#32],
    let s := acceptCommand w base
    let u : State := { s with inputs := [.engine, .engine] }
    s.resetActive = false ∧ s.engine = .busy ∧ ((s.inputs = [] ∧ ([] : List Input) = []) ∨ s.inputs = [.engine]) ∧
    u.resetActive = false ∧ u.engine = .busy ∧ ((u.inputs = [] ∧ [Input.engine] = []) ∨ u.inputs = .engine :: [.engine]) ∧
    (s.latch.w.extractLsb' 8 24 ≠ 0 ∨
      s.latch.w.extractLsb' 0 8 ∉ [0x01#8, 0x02#8, 0x03#8, 0x04#8, 0x05#8]) ∧ u.latch.w = s.latch.w := by
  intro w hw
  refine ⟨rfl, rfl, .inl ⟨rfl, rfl⟩, rfl, rfl, .inr rfl, ?_, rfl⟩
  show w.extractLsb' 8 24 ≠ 0 ∨ w.extractLsb' 0 8 ∉ _
  simp only [List.mem_cons, List.not_mem_nil, or_false] at hw
  obtain rfl | rfl | rfl | rfl | rfl := hw <;> decide

theorem witness_PollingHostSeesCompletion :
    let s : State := { hashJob with inputs := [.read 0 4 0x04, .read 1 4 0xFC] }
    s.resetActive = false ∧ s.engine = .busy ∧
    ∀ x ∈ s.inputs, ∃ agent o, x = .read agent 4 o ∧ o.toNat % 4 = 0 := by
  refine ⟨rfl, rfl, ?_⟩
  intro x hx
  simp only [List.mem_cons, List.not_mem_nil, or_false] at hx
  obtain rfl | rfl := hx
  · exact ⟨0, 0x04, rfl, rfl⟩
  · exact ⟨1, 0xFC, rfl, rfl⟩

/-- For the statements whose only hypothesis is a step with a next state (StepKeepsConfiguration). -/
theorem witness_StepKeepsConfiguration : step hashJob = .next (ran .hashkey hashJob) := rfl

theorem witness_ResetInputRestoresRegisters :
    let s : State := { hashJob with inputs := [.resetAssert, .engine] }
    let u : State := { hashJob with inputs := [.resetRelease], resetActive := true }
    (s.inputs = .resetAssert :: [.engine] ∧ true = true) ∧
    (u.inputs = .resetRelease :: [] ∧ u.resetActive = true ∧ false = false) ∧
    (0x00#8).toNat % 4 = 0 ∧ (0x00#8 : BitVec 8) ≠ 0x40 ∧ (0xFC#8).toNat % 4 = 0 := by
  refine ⟨⟨rfl, rfl⟩, ⟨rfl, rfl, rfl⟩, by decide, by decide, by decide⟩

theorem witness_ResetAbortsCommand :
    let s : State := { encHeapJob with inputs := [.resetAssert] }
    s.engine = .busy ∧ s.inputs = .resetAssert :: [] ∧ s.latch.source.contains 0x10002 = true ∧
    s.latch.dest.contains 0x20040 = false ∧ s.latch.heapWindow.contains 0x20040 = false := by
  refine ⟨rfl, rfl, by decide, by decide, by decide⟩

theorem witness_NoAccessDuringReset : ({ base with resetActive := true } : State).resetActive = true := rfl

theorem witness_PortRefusesOtherAccesses : base.resetActive = false ∧ (2 : Nat) ≠ 4 ∧ (0x05#8).toNat % 4 ≠ 0 := by
  decide

/-- Idle and Busy, the first and last reserved offsets, and a CMD write that breaks no hazard. -/
theorem witness_RegisterWriteEffects :
    base.resetActive = false ∧ ownedByOther 0 base = false ∧ base.engine = .idle ∧
    hazardRange base.cfg (base.capture 1) = false ∧ hazardCoherence base (base.capture 1) = false ∧
    hashJob.resetActive = false ∧ ownedByOther 0 hashJob = false ∧ hashJob.engine = .busy ∧
    (∀ o ∈ [0x44#8, 0xFC#8], o.toNat % 4 = 0 ∧ 0x44 ≤ o.toNat) := by decide

theorem witness_RegisterReadValues : base.resetActive = false ∧
    (∀ o ∈ [0x44#8, 0xFC#8], o.toNat % 4 = 0 ∧ 0x44 ≤ o.toNat) := by decide

theorem witness_StatusWordIsTheFlags : 4 ≤ (4 : Nat) ∧ 4 ≤ (31 : Nat) := by decide

theorem witness_RegistersReadBackTheLastWrite :
    (0x34#8 : BitVec 8) ∈ [0x10#8, 0x14#8, 0x18#8, 0x1C#8, 0x24#8, 0x28#8, 0x2C#8, 0x30#8, 0x34#8] ∧
    hostWrite 0 4 0x34 7 base = .next { base with heapLen := 7, owner := some 0, response := .ack } :=
  ⟨by decide, rfl⟩

theorem witness_DoneAndErrAreWriteOneToClear :
    base.engine = .idle ∧ cmdWrite 1 base = .next (acceptCommand 1 base) ∧
    hashJob.engine = .busy ∧ hashJob.resetActive = false ∧
    engineTurn hashJob = .next (ran .hashkey hashJob) := ⟨rfl, rfl, rfl, rfl, rfl⟩

theorem witness_InterruptIsEnableAndDone :
    base.engine = .idle ∧ cmdWrite 1 base = .next (acceptCommand 1 base) ∧
    hashJob.engine = .busy ∧ hashJob.resetActive = false ∧
    engineTurn hashJob = .next (ran .hashkey hashJob) := ⟨rfl, rfl, rfl, rfl, rfl⟩

theorem witness_AcceptLatchesOperands :
    base.engine = .idle ∧ hazardRange base.cfg (base.capture 5) = false ∧
    hazardCoherence base (base.capture 5) = false ∧ (0 : Nat) < 4 ∧ (3 : Nat) < 4 := by decide

theorem witness_BusyCommandWriteIsIgnored :
    hashJob.engine = .busy ∧ hashJob.resetActive = false ∧ ownedByOther 0 hashJob = false := by decide

/-- Each kind of range, one byte inside the window's edge, and a device. -/
theorem witness_RangeHazardFaultsAtAccept :
    (∀ s ∈ [{ base with srcAddr := 0x400000FF, srcLen := 1 },
            { base with dstAddr := 0x3FFFFFC1, dstCap := 64 }, { base with srcLen := 129 }, { base with srcLen := 514 }],
      s.resetActive = false ∧ s.engine = .idle ∧ ownedByOther 0 s = false) ∧
    OperandRange .desDec { base with srcAddr := 0x400000FF, srcLen := 1 } ⟨0x400000FF, 1⟩ ∧
    OperandRange .hashkey { base with dstAddr := 0x3FFFFFC1, dstCap := 64 } ⟨0x3FFFFFC1, 64⟩ ∧
    OperandRange .hexEnc { base with srcLen := 129, heapAddr := 0x40000000 } ⟨0x40000000, 16⟩ ∧
    OperandRange .hexDec { base with srcLen := 514, heapAddr := 0x50003, heapLen := 1 } ⟨0x50003, 1⟩ ∧
    (⟨0x400000FF, 1⟩ : Range).overlaps ⟨base.cfg.base, 0x100⟩ = true ∧
    (⟨0x3FFFFFC1, 64⟩ : Range).overlaps ⟨base.cfg.base, 0x100⟩ = true ∧
    (⟨0x40000000, 16⟩ : Range).overlaps ⟨base.cfg.base, 0x100⟩ = true ∧
    (∃ d ∈ (withDevice base).cfg.devices, (⟨0x50003, 1⟩ : Range).overlaps d = true) := by
  unfold OperandRange
  decide

/-- A hex word, another command and an illegal word; the duty's end by a STATUS read, a look at `irq`, and both reset
inputs; the last byte of each range. -/
theorem witness_InFlightMemoryHazard :
    let f := footprint encHeapJob.latch
    let finished : State := { base with done := true, ie := true, unseen := [f] }
    (base.engine = .idle ∧ ∀ w ∈ [0x2#32, 0x5#32, 0x104#32], cmdWrite w base = .next (acceptCommand w base)) ∧
    engineTurn encHeapJob = .next (ran .hexEnc encHeapJob) ∧
    (hostRead 4 0x04 encHeapJob = .next { encHeapJob with response := .data 1 } ∧ encHeapJob.done = false) ∧
    (hostRead 4 0x04 finished = .next { finished with unseen := [], response := .data 2 } ∧ finished.done = true) ∧
    (∀ x ∈ [Input.read 1 4 0x04, .seeIrq 1, .resetAssert, .resetRelease], ∃ t,
      step { finished with inputs := [x], resetActive := x = .resetRelease } = .next t ∧ f ∈ finished.unseen ∧ f ∉ t.unseen) ∧
    outsideMemory 0x10002 encHeapJob = none ∧ f ∈ encHeapJob.unseen ∧ f.src.contains 0x10002 = true ∧
    outsideMemory 0x2003F encHeapJob = none ∧ f.src.contains 0x2003F = false ∧ f.dst.contains 0x2003F = true ∧
    outsideMemory 0x3000F encHeapJob = none ∧ f.src.contains 0x3000F = false ∧ f.heap.contains 0x3000F = true ∧
    encHeapJob.unseen = [f] ∧ encHeapJob.cfg.dmaCoherent = true := by
  refine ⟨⟨rfl, ?_⟩, rfl, ⟨rfl, rfl⟩, ⟨rfl, rfl⟩, ?_, by rfl, ?_, ?_, by rfl, ?_, ?_, by rfl, ?_, ?_, rfl, rfl⟩
  · intro w hw
    simp only [List.mem_cons, List.not_mem_nil, or_false] at hw
    obtain rfl | rfl | rfl := hw <;> rfl
  · intro x hx
    simp only [List.mem_cons, List.not_mem_nil, or_false] at hx
    obtain rfl | rfl | rfl | rfl := hx <;> exact ⟨_, rfl, List.mem_singleton.2 rfl, List.not_mem_nil⟩
  all_goals decide +kernel

theorem witness_SharedUseFaults :
    let s : State := { base with owner := some 0 }
    s.resetActive = false ∧ s.owner = some 0 ∧ (1 : Nat) ≠ 0 := by decide

/-- The last byte of each kind of range is the one not made visible; accept of a command and of an illegal word; the
record after an earlier command completes, and after maintenance while a second one runs; and loads of the last byte of a
recorded range and of the byte after it, with no command unobserved and with one that does not race for it. -/
theorem witness_CoherenceDutyFaultsAtAccept :
    let plain := nonCoherent base
    (plain.cfg.dmaCoherent = false ∧ outsideMemory 0x10002 plain = none ∧
      hostStore 0x10002 7 plain =
        .next { plain.putByte 0x10002 7 with hostDirty := [0x10002], response := .ack }) ∧
    (∀ p ∈ [(0x10080, (⟨0x10000, 129⟩ : Range)), (0x2003F, ⟨0x20000, 64⟩), (0x3000F, ⟨0x30000, 16⟩)],
      let s : State := { plain with srcLen := 129, hostDirty := [p.1] }
      s.engine = .idle ∧ s.cfg.dmaCoherent = false ∧ hazardRange s.cfg (s.capture (encode .hexEnc)) = false ∧
      p.1 ∈ s.hostDirty ∧ OperandRange .hexEnc s p.2 ∧ p.2.contains p.1 = true) ∧
    (plain.engine = .idle ∧ ∀ w ∈ [encode .hexDec, 0x104#32], cmdWrite w plain = .next (acceptCommand w plain)) ∧
    (let s := acceptCommand 0x1 { plain with dstAddr := 0x70000, dmaDirty := [⟨⟨0, 0⟩, ⟨0x20000, 64⟩, ⟨0, 0⟩⟩] };
      s.cfg.dmaCoherent = false ∧ engineTurn s = .next (ran .hashkey s) ∧ s.engine = .busy ∧
      Unmaintained s 0x2003F ∧ ¬ Unmaintained (hostMaintain s) 0x2003F ∧ Unmaintained (hostMaintain s) 0x7003F) ∧
    (∀ u ∈ [[], [⟨⟨0x2003F, 1⟩, ⟨0x2003F, 1⟩, ⟨0, 0⟩⟩]],
      let s : State := { plain with dmaDirty := [⟨⟨0, 0⟩, ⟨0x20000, 64⟩, ⟨0, 0⟩⟩], unseen := u }
      s.cfg.dmaCoherent = false ∧ (∀ a ∈ [0x2003F, 0x20040], outsideMemory a s = none ∧
        ∀ f ∈ s.unseen, f.races a = false) ∧ Unmaintained s 0x2003F ∧ ¬ Unmaintained s 0x20040) := by
  refine ⟨⟨rfl, rfl, rfl⟩, ?_, ⟨rfl, ?_⟩, ⟨rfl, rfl, rfl, ?_, ?_, ?_⟩, ?_⟩
  · unfold OperandRange
    decide
  · intro w hw
    simp only [List.mem_cons, List.not_mem_nil, or_false] at hw
    obtain rfl | rfl := hw <;> rfl
  · unfold Unmaintained; decide
  · unfold Unmaintained; decide
  · unfold Unmaintained; decide
  · intro u hu
    simp only [List.mem_cons, List.not_mem_nil, or_false] at hu
    unfold Unmaintained
    obtain rfl | rfl := hu <;> exact ⟨rfl, by decide, by decide, by decide⟩

/-- No command in flight; and the byte after the destination range of one in flight. -/
theorem witness_HostMemoryHoldsLastStore :
    (outsideMemory 0xFFFFFFFF base = none ∧ (∀ f ∈ base.unseen, f.owns 0xFFFFFFFF = false) ∧
      base.cfg.dmaCoherent = true) ∧
    (outsideMemory 0x20040 encHeapJob = none ∧ (∀ f ∈ encHeapJob.unseen, f.owns 0x20040 = false) ∧
      encHeapJob.unseen.length = 1 ∧ encHeapJob.cfg.dmaCoherent = true) := by
  refine ⟨⟨rfl, ?_, rfl⟩, rfl, ?_, rfl, rfl⟩ <;> decide +kernel

/-- The destination has exactly the room it needs. -/
theorem witness_HashkeyWritesFingerprint :
    let s := job .hashkey abc { base with dstCap := 8 }
    Loaded .hashkey s ∧ RangesOk s.latch ∧ 8 ≤ s.latch.dstcap.toNat ∧ Allows s s.latch.source .read ∧
    Allows s ⟨s.latch.dst.toNat, 8⟩ .write :=
  ⟨rfl, ⟨by decide, by decide, by decide⟩, by decide, allows_of_refused_nil rfl _ _, allows_of_refused_nil rfl _ _⟩

/-- Two different destinations and keys, one text. -/
theorem witness_FingerprintDependsOnTextOnly :
    let s := job .hashkey abc base
    let s' := job .hashkey abc { base with dstAddr := 0x70000, key0 := 0, h1 := 9 }
    Loaded .hashkey s ∧ Loaded .hashkey s' ∧ sourceBytes s = sourceBytes s' ∧
    exec .hashkey s = .next (ran .hashkey s) ∧ exec .hashkey s' = .next (ran .hashkey s') ∧
    (ran .hashkey s).errcode = .ok ∧ (ran .hashkey s').errcode = .ok := by
  refine ⟨rfl, rfl, ?_, rfl, rfl, ?_, ?_⟩ <;> decide +kernel

theorem witness_FingerprintIsAKey : (0 : Nat) < 8 ∧ (7 : Nat) < 8 := by decide

/-- The first and the last destination write refused, and the last source read. -/
theorem witness_HashkeyBusErrorKeepsEarlierWrites :
    (∀ k ∈ [0, 7], let s := job .hashkey abc (refusing .write (0x20000 + k) base);
      RangesOk s.latch ∧ 8 ≤ s.latch.dstcap.toNat ∧ k < 8 ∧ Allows s s.latch.source .read ∧
      Allows s ⟨s.latch.dst.toNat, k⟩ .write ∧ s.refuses (s.latch.dst.toNat + k) .write = true) ∧
    (let s := job .hashkey abc (refusing .read 0x10002 base);
      RangesOk s.latch ∧ 8 ≤ s.latch.dstcap.toNat ∧ s.latch.source.contains 0x10002 = true ∧
      s.refuses 0x10002 .read = true) := by
  constructor
  · intro k hk
    simp only [List.mem_cons, List.not_mem_nil, or_false] at hk
    obtain rfl | rfl := hk
    · refine ⟨⟨by decide, by decide, by decide⟩, by decide, by decide, ?_, ?_, by decide⟩
      · intro a _
        rfl
      · intro a h
        simp [Range.contains] at h
        omega
    · refine ⟨⟨by decide, by decide, by decide⟩, by decide, by decide, ?_, ?_, by decide⟩
      · intro a _
        rfl
      · intro a h
        have h2 : a < 0x20007 := by
          simp [Range.contains] at h
          exact h.2
        show ([⟨.write, ⟨0x20007, 1⟩⟩] : List RefusedRange).any _ = false
        simp [Range.contains]
        omega
  · exact ⟨⟨by decide, by decide, by decide⟩, by decide, by decide, by decide⟩

/-- The two ends of each range of digits, and of the uppercase letters. -/
theorem witness_HexDigitsSpellTheByte :
    (∀ x ∈ [0x30#8, 0x39#8], 0x30 ≤ x.toNat ∧ x.toNat ≤ 0x39) ∧
    (∀ x ∈ [0x61#8, 0x66#8], 0x61 ≤ x.toNat ∧ x.toNat ≤ 0x66) ∧
    (∀ x ∈ [0x41#8, 0x46#8], 0x41 ≤ x.toNat ∧ x.toNat ≤ 0x46) := by decide

/-- The scratch path, and the heap path with a window of exactly the length. -/
theorem witness_HexEncWritesText : ∀ s ∈ [encJob, job .hexEnc abc (scratchOf 5 { base with heapLen := 6 })],
    Loaded .hexEnc s ∧ RangesOk s.latch ∧ 2 * s.latch.srclen.toNat ≤ s.latch.dstcap.toNat ∧
    BufferOk s (2 * s.latch.srclen.toNat) ∧ Allows s s.latch.source .read ∧
    Allows s ⟨s.latch.dst.toNat, 2 * s.latch.srclen.toNat⟩ .write := by
  intro s hs
  simp only [List.mem_cons, List.not_mem_nil, or_false] at hs
  obtain rfl | rfl := hs <;>
    exact ⟨rfl, ⟨by decide, by decide, by decide⟩, by decide,
      ⟨fun _ => ⟨by decide, by decide, by decide, by decide⟩, fun _ => ⟨allows_of_refused_nil rfl _ _,
        allows_of_refused_nil rfl _ _⟩⟩, allows_of_refused_nil rfl _ _, allows_of_refused_nil rfl _ _⟩

theorem witness_HexEncOutputLaws :
    Loaded .hexEnc encJob ∧ exec .hexEnc encJob = .next (ran .hexEnc encJob) ∧
    (ran .hexEnc encJob).errcode = .ok := by
  refine ⟨rfl, rfl, ?_⟩
  decide +kernel

theorem witness_HexDecWritesBytes : ∀ s ∈ [job .hexDec [0x34, 0x38, 0x34, 0x35] base, decHeapJob],
    Loaded .hexDec s ∧ RangesOk s.latch ∧ s.latch.srclen.toNat % 2 = 0 ∧ AllHex (sourceBytes s) ∧
    s.latch.srclen.toNat / 2 ≤ s.latch.dstcap.toNat ∧ BufferOk s (s.latch.srclen.toNat / 2) ∧
    Allows s s.latch.source .read ∧ Allows s ⟨s.latch.dst.toNat, s.latch.srclen.toNat / 2⟩ .write := by
  intro s hs
  simp only [List.mem_cons, List.not_mem_nil, or_false] at hs
  obtain rfl | rfl := hs <;>
    exact ⟨rfl, ⟨by decide, by decide, by decide⟩, by decide, by unfold AllHex; decide +kernel, by decide,
      ⟨fun _ => ⟨by decide, by decide, by decide, by decide⟩, fun _ => ⟨allows_of_refused_nil rfl _ _,
        allows_of_refused_nil rfl _ _⟩⟩, allows_of_refused_nil rfl _ _, allows_of_refused_nil rfl _ _⟩

/-- Both hex commands with a window one byte short; one that ends one byte past the DMA space; one whose last used byte
is the first of the source, and one whose first is the last of the destination. -/
theorem witness_ShortHeapWindowFailsWithAlloc :
    (∀ p ∈ [((5 : Word), (0x30000 : Word)), (6, 0xFFFFFFFB), (6, 0x0FFFB), (6, 0x2003F)],
      let s := job .hexEnc abc (scratchOf 5 { base with heapLen := p.1, heapAddr := p.2 })
      hexOutputLength s.latch .hexEnc = some 6 ∧ RangesOk s.latch ∧ 6 ≤ s.latch.dstcap.toNat ∧ s.cfg.scratchCap < 6 ∧
      (s.latch.heaplen.toNat < 6 ∨ (6 ≤ s.latch.heaplen.toNat ∧ 2 ^ 32 < s.latch.heap.toNat + 6) ∨
        (6 ≤ s.latch.heaplen.toNat ∧ s.latch.heap.toNat + 6 ≤ 2 ^ 32 ∧
          ((s.latch.heapRegion 6).overlaps s.latch.source = true ∨
            (s.latch.heapRegion 6).overlaps s.latch.dest = true)))) ∧
    (let u := job .hexDec [0x34, 0x38, 0x34, 0x35] (scratchOf 1 { base with heapLen := 1 });
      hexOutputLength u.latch .hexDec = some 2 ∧ RangesOk u.latch ∧ 2 ≤ u.latch.dstcap.toNat ∧
      u.cfg.scratchCap < 2 ∧ u.latch.heaplen.toNat < 2) := by
  refine ⟨?_, by decide, ⟨by decide, by decide, by decide⟩, by decide, by decide, by decide⟩
  intro p hp
  simp only [List.mem_cons, List.not_mem_nil, or_false] at hp
  obtain rfl | rfl | rfl | rfl := hp
  · exact ⟨by decide, ⟨by decide, by decide, by decide⟩, by decide, by decide, .inl (by decide)⟩
  · exact ⟨by decide, ⟨by decide, by decide, by decide⟩, by decide, by decide, .inr (.inl ⟨by decide, by decide⟩)⟩
  · exact ⟨by decide, ⟨by decide, by decide, by decide⟩, by decide, by decide,
      .inr (.inr ⟨by decide, by decide, .inl (by decide)⟩)⟩
  · exact ⟨by decide, ⟨by decide, by decide, by decide⟩, by decide, by decide,
      .inr (.inr ⟨by decide, by decide, .inr (by decide)⟩)⟩

theorem witness_PathChangesNoResult :
    let u : State := { encJob with cfg := { encJob.cfg with scratchCap := 5 } }
    usesHeapWindow .hexEnc = true ∧ Loaded .hexEnc encJob ∧
    exec .hexEnc encJob = .next (ran .hexEnc encJob) ∧ exec .hexEnc u = .next (ran .hexEnc u) ∧
    (ran .hexEnc encJob).errcode = .ok ∧ (ran .hexEnc u).errcode = .ok := by
  refine ⟨rfl, rfl, rfl, rfl, ?_, ?_⟩ <;> decide +kernel

theorem witness_HexRoundTrip :
    Loaded .hexEnc encJob ∧ exec .hexEnc encJob = .next (ran .hexEnc encJob) ∧
    (ran .hexEnc encJob).errcode = .ok ∧ Loaded .hexDec decJob ∧ decJob.latch.src = encJob.latch.dst ∧
    decJob.latch.srclen = (ran .hexEnc encJob).resLen ∧
    (∀ a, decJob.latch.source.contains a = true → decJob.byteAt a = (ran .hexEnc encJob).byteAt a) ∧
    RangesOk decJob.latch ∧ encJob.latch.srclen.toNat ≤ decJob.latch.dstcap.toNat ∧
    BufferOk decJob encJob.latch.srclen.toNat ∧ Allows decJob decJob.latch.source .read ∧
    Allows decJob ⟨decJob.latch.dst.toNat, encJob.latch.srclen.toNat⟩ .write := by
  refine ⟨rfl, ran_hexEnc _, ?_, rejob_word _ _ _ _, ?_, ?_, fun _ _ => rejob_byteAt _ _ _ _ _, ⟨?_, ?_, ?_⟩, ?_,
    ⟨fun h => absurd h ?_, fun h => absurd h ?_⟩, allows_of_refused_nil ?_ _ _, allows_of_refused_nil ?_ _ _⟩
  all_goals decide +kernel

/-- An empty source and one that is no multiple of 8, each with exactly the room it needs. -/
theorem witness_DesEncWritesFramedCiphertext :
    ∀ s ∈ [job .desEnc [] { base with dstCap := 1 }, job .desEnc abc { base with dstCap := 9 }],
    Loaded .desEnc s ∧ RangesOk s.latch ∧ 8 ≤ s.latch.keylen.toNat ∧
    8 * ((s.latch.srclen.toNat + 7) / 8) + 1 ≤ s.latch.dstcap.toNat ∧ Allows s s.latch.source .read ∧
    Allows s ⟨s.latch.dst.toNat, 8 * ((s.latch.srclen.toNat + 7) / 8) + 1⟩ .write := by
  intro s hs
  simp only [List.mem_cons, List.not_mem_nil, or_false] at hs
  obtain rfl | rfl := hs <;>
    exact ⟨rfl, ⟨by decide, by decide, by decide⟩, by decide, by decide, allows_of_refused_nil rfl _ _,
      allows_of_refused_nil rfl _ _⟩

theorem witness_DesEncOutputLaws :
    Loaded .desEnc desJob ∧ exec .desEnc desJob = .next (ran .desEnc desJob) ∧
    (ran .desEnc desJob).errcode = .ok := by
  refine ⟨rfl, rfl, ?_⟩
  decide +kernel

/-- Trailer 3, trailer 8 (accepted when TRAILER_STRICT is false), and trailer 7 when it is true. -/
theorem witness_DesDecWritesPlaintext :
    ∀ s ∈ [job .desDec helloCipher base,
        job .desDec [0x42, 0xfa, 0xa5, 0xd0, 0x20, 0x36, 0x84, 0xc0, 0x08] { base with dstCap := 0 },
        job .desDec [0x42, 0xfa, 0xa5, 0xd0, 0x20, 0x36, 0x84, 0xc0, 0x07]
          { base with cfg := { base.cfg with trailerStrict := true } }],
    Loaded .desDec s ∧ RangesOk s.latch ∧ 8 ≤ s.latch.keylen.toNat ∧ s.latch.srclen.toNat % 8 = 1 ∧
    trailer s ≤ s.latch.srclen.toNat - 1 ∧ (s.cfg.trailerStrict = true → trailer s < 8) ∧
    s.latch.srclen.toNat - 1 - trailer s ≤ s.latch.dstcap.toNat ∧ Allows s s.latch.source .read ∧
    Allows s ⟨s.latch.dst.toNat, s.latch.srclen.toNat - 1 - trailer s⟩ .write := by
  intro s hs
  simp only [List.mem_cons, List.not_mem_nil, or_false] at hs
  obtain rfl | rfl | rfl := hs <;>
    exact ⟨rfl, ⟨by decide, by decide, by decide⟩, by decide, by decide, by decide +kernel, by decide +kernel,
      by decide +kernel, allows_of_refused_nil rfl _ _, allows_of_refused_nil rfl _ _⟩

theorem witness_DesRoundTrip :
    Loaded .desEnc desJob ∧ exec .desEnc desJob = .next (ran .desEnc desJob) ∧
    (ran .desEnc desJob).errcode = .ok ∧ Loaded .desDec undesJob ∧ undesJob.latch.key = desJob.latch.key ∧
    undesJob.cfg.primitive = desJob.cfg.primitive ∧ 8 ≤ undesJob.latch.keylen.toNat ∧
    undesJob.latch.src = desJob.latch.dst ∧ undesJob.latch.srclen = (ran .desEnc desJob).resLen ∧
    (∀ a, undesJob.latch.source.contains a = true → undesJob.byteAt a = (ran .desEnc desJob).byteAt a) ∧
    RangesOk undesJob.latch ∧ desJob.latch.srclen.toNat ≤ undesJob.latch.dstcap.toNat ∧
    Allows undesJob undesJob.latch.source .read ∧
    Allows undesJob ⟨undesJob.latch.dst.toNat, desJob.latch.srclen.toNat⟩ .write := by
  refine ⟨rfl, ran_desEnc _, ?_, rejob_word _ _ _ _, ?_, ?_, ?_, ?_, ?_, fun _ _ => rejob_byteAt _ _ _ _ _, ⟨?_, ?_, ?_⟩, ?_,
    allows_of_refused_nil ?_ _ _, allows_of_refused_nil ?_ _ _⟩
  all_goals decide +kernel

theorem witness_ErrorsFollowPriority : hashJob.cfg.refused = [] := rfl

theorem witness_ErrorCodeNumbers : ({ base with errcode := .bus } : State).errcode = .bus := rfl

theorem witness_FailureRecords :
    let s := job .hashkey abc { base with dstCap := 7 }
    exec .hashkey s = .next (ran .hashkey s) ∧ (ran .hashkey s).errcode ≠ .ok := by
  refine ⟨rfl, ?_⟩
  decide +kernel

/-- HEX_DEC on the heap path that fails on its second pair; the last byte of the destination range. -/
theorem witness_NoPartialResults :
    let s := job .hexDec [0x34, 0x38, 0x34, 0x41] (scratchOf 1 base)
    exec .hexDec s = .next (ran .hexDec s) ∧ (ran .hexDec s).errcode ≠ .ok ∧ (ran .hexDec s).errcode ≠ .bus ∧
    s.latch.dest.contains 0x2003F = true := by
  refine ⟨rfl, ?_, ?_, ?_⟩ <;> decide +kernel

theorem witness_SourceRangeIsNeverWritten :
    engineTurn hashJob = .next (ran .hashkey hashJob) ∧ hashJob.latch.source.contains 0x10002 = true :=
  ⟨rfl, by decide⟩

/-- One byte past the destination range and past the used heap region. -/
theorem witness_CommandWritesOnlyItsRanges :
    exec .hexEnc encHeapJob = .next (ran .hexEnc encHeapJob) ∧ encHeapJob.latch.dest.contains 0x20040 = false ∧
    encHeapJob.latch.dest.contains 0x30006 = false ∧
    (∀ n, hexOutputLength encHeapJob.latch .hexEnc = some n →
      (usedHeap encHeapJob n).contains 0x20040 = false ∧ (usedHeap encHeapJob n).contains 0x30006 = false) := by
  refine ⟨rfl, by decide, by decide, ?_⟩
  intro n hn
  cases hn
  decide

theorem witness_CommandFrame :
    exec .desEnc desJob = .next (ran .desEnc desJob) ∧ Loaded .desEnc desJob ∧ Instr.desEnc ≠ .hashkey ∧
    usesHeapWindow .desEnc = false := ⟨rfl, rfl, by decide, rfl⟩

theorem witness_HiddenRegistersAreSetBeforeUse : Loaded .hashkey hashJob ∧ Loaded .desEnc desJob := ⟨rfl, rfl⟩

/-- A state in which a command is in flight has the invariant, and a step from it is a next state. -/
theorem witness_StepKeepsInvariant : Inv hashJob ∧ step hashJob = .next (ran .hashkey hashJob) := by
  refine ⟨?_, rfl⟩
  constructor <;> decide +kernel

/-- A completion raises DONE and changes H1; accept, a W1C write and reset lower DONE and change the rest. -/
theorem witness_OnlyCompletionRaisesDone :
    let finished : State := { base with done := true, err := true, path := true, errcode := .bus, resLen := 9, cmd := 3, h2 := 5 }
    (step hashJob = .next (ran .hashkey hashJob) ∧ hashJob.done = false ∧ (ran .hashkey hashJob).done = true ∧
      (ran .hashkey hashJob).resLen ≠ hashJob.resLen ∧ (ran .hashkey hashJob).h1 ≠ hashJob.h1) ∧
    (∀ x ∈ [Input.write 0 4 0x08 1, .resetAssert, .resetRelease], ∃ t,
      step { finished with inputs := [x], resetActive := x = .resetRelease } = .next t ∧ t.done = false ∧ t.err = false ∧
        t.path = false ∧ t.errcode = .ok ∧ t.resLen = 0 ∧ t.cmd ≠ 3) ∧
    (∃ t, step { finished with inputs := [.write 0 4 0x04 6] } = .next t ∧ t.done = false ∧ t.err = false) ∧
    (∃ t, step { finished with inputs := [.resetAssert] } = .next t ∧ t.h2 ≠ 5) := by
  refine ⟨⟨rfl, rfl, ?_, ?_, ?_⟩, ?_, ⟨_, rfl, rfl, rfl⟩, ⟨_, rfl, by decide⟩⟩
  · decide +kernel
  · decide +kernel
  · decide +kernel
  · intro x hx
    simp only [List.mem_cons, List.not_mem_nil, or_false] at hx
    obtain rfl | rfl | rfl := hx <;> exact ⟨_, rfl, rfl, rfl, rfl, rfl, rfl, by decide⟩

theorem witness_MemoryChangesOnlyByStoreOrCommand :
    step hashJob = .next (ran .hashkey hashJob) ∧ (ran .hashkey hashJob).byteAt 0x20007 ≠ hashJob.byteAt 0x20007 := by
  refine ⟨rfl, ?_⟩
  decide +kernel

/-- HEX_ENC on the heap path with exactly the room it needs. -/
def tight : State := scratchOf 5 { base with dstCap := 6, heapLen := 6 }

/-- The first and the last source read; the first and the last heap write; the first and the last destination write, and
the last heap read; and HEX_DEC at the pair after its only digits. -/
theorem witness_HexBusErrorKeepsEarlierWrites :
    (∀ p ∈ [(Dir.read, 0x10000), (.read, 0x10002), (.write, 0x30000), (.write, 0x30005), (.write, 0x20000),
        (.write, 0x20005), (.read, 0x30005)],
      let s := job .hexEnc abc (refusing p.1 p.2 tight)
      hexOutputLength s.latch .hexEnc = some 6 ∧ RangesOk s.latch ∧ 6 ≤ s.latch.dstcap.toNat ∧ AllocOk s 6 ∧
        s.cfg.scratchCap < 6 ∧ s.latch.srclen.toNat = 3 ∧ s.refuses p.2 p.1 = true) ∧
    (let s := job .hexEnc abc (refusing .write 0x20005 tight);
      s.latch.dstAt 5 = 0x20005 ∧ Allows s s.latch.source .read ∧ WritesAllowed s 5 ∧
        Allows s (s.latch.heapRegion 6) .write ∧ ∀ j, j < 5 → s.refuses (s.latch.heapAt j) .read = false) ∧
    (let s := job .hexEnc abc (refusing .read 0x30005 tight);
      s.latch.heapAt 5 = 0x30005 ∧ Allows s s.latch.source .read ∧ WritesAllowed s 5 ∧
        Allows s (s.latch.heapRegion 6) .write ∧ ∀ j, j < 5 → s.refuses (s.latch.heapAt j) .read = false) ∧
    (let s := job .hexDec [0x34, 0x38, 0x34, 0x41] (refusing .read 0x10002 base);
      hexOutputLength s.latch .hexDec = some 2 ∧ RangesOk s.latch ∧ 2 ≤ s.latch.dstcap.toNat ∧ AllocOk s 2 ∧
        s.latch.srclen.toNat = 4 ∧ s.refuses (s.latch.srcAt 2) .read = true ∧
        AllHex ((sourceBytes s).take (2 * (2 / 2)))) := by
  refine ⟨?_, ?_, ?_, ?_⟩
  · intro p hp
    simp only [List.mem_cons, List.not_mem_nil, or_false] at hp
    obtain rfl | rfl | rfl | rfl | rfl | rfl | rfl := hp <;>
      exact ⟨by decide, ⟨by decide, by decide, by decide⟩, by decide, by unfold AllocOk; decide, by decide, by decide,
        refuses_job.2 ⟨rfl, rfl⟩⟩
  · refine ⟨by decide, fun a _ => allows_job (.inl (by decide)), fun j hj => allows_job (.inr ?_), fun a ha =>
      allows_job (.inr ?_), fun j _ => allows_job (.inl (by decide))⟩
    · show 0x20005 ≠ 0x20000 + j
      omega
    · rintro rfl
      revert ha
      decide
  · refine ⟨by decide, fun a ha => allows_job (.inr ?_), fun j hj => allows_job (.inl (by decide)), fun a ha =>
      allows_job (.inl (by decide)), fun j hj => allows_job (.inr ?_)⟩
    · rintro rfl
      revert ha
      decide
    · show 0x30005 ≠ 0x30000 + j
      omega
  · exact ⟨by decide, ⟨by decide, by decide, by decide⟩, by decide, by unfold AllocOk; decide, by decide,
      refuses_job.2 ⟨rfl, by decide⟩, by unfold AllHex; decide +kernel⟩

/-- The first read of the second block; the first write, the last body byte and the trailer. -/
theorem witness_DesEncBusErrorKeepsEarlierWrites :
    let text : List Byte := [0x48, 0x45, 0x4c, 0x4c, 0x4f, 0x48, 0x45, 0x4c, 0x4c]
    (∀ p ∈ [(Dir.read, 0x10008), (.write, 0x20000), (.write, 0x2000F), (.write, 0x20010)],
      let s := job .desEnc text (refusing p.1 p.2 { base with dstCap := 17 })
      RangesOk s.latch ∧ 8 ≤ s.latch.keylen.toNat ∧ 8 * ((s.latch.srclen.toNat + 7) / 8) + 1 ≤ s.latch.dstcap.toNat ∧
        s.latch.srclen.toNat = 9 ∧ s.refuses p.2 p.1 = true) ∧
    (let s := job .desEnc text (refusing .read 0x10008 { base with dstCap := 17 });
      s.latch.srcAt 8 = 0x10008 ∧ ReadsAllowed s 8 ∧ WritesAllowed s (8 * (8 / 8))) ∧
    (∀ m ∈ [0, 15, 16],
      let s := job .desEnc text (refusing .write (0x20000 + m) { base with dstCap := 17 })
      s.latch.dstAt m = 0x20000 + m ∧ m < 17 ∧ WritesAllowed s m ∧ ReadsAllowed s (min 9 (8 * (m / 8) + 8))) := by
  refine ⟨?_, ⟨by decide, fun j hj => allows_job (.inr ?_), fun j _ => allows_job (.inl (by decide))⟩, ?_⟩
  · intro p hp
    simp only [List.mem_cons, List.not_mem_nil, or_false] at hp
    obtain rfl | rfl | rfl | rfl := hp <;>
      exact ⟨⟨by decide, by decide, by decide⟩, by decide, by decide, by decide, refuses_job.2 ⟨rfl, rfl⟩⟩
  · show 0x10008 ≠ 0x10000 + j
    omega
  · intro m hm
    refine ⟨rfl, ?_, fun j hj => allows_job (.inr ?_), fun j _ => allows_job (.inl (by decide))⟩
    · simp only [List.mem_cons, List.not_mem_nil, or_false] at hm
      omega
    · show 0x20000 + m ≠ 0x20000 + j
      omega

/-- The trailer's read; the last read of the body, with a plaintext shorter than its block; the first and the last
write. -/
theorem witness_DesDecBusErrorKeepsEarlierWrites :
    (∀ p ∈ [(Dir.read, 0x10008), (.read, 0x10007), (.write, 0x20000), (.write, 0x20004)],
      let s := job .desDec helloCipher (refusing p.1 p.2 { base with dstCap := 5 })
      RangesOk s.latch ∧ 8 ≤ s.latch.keylen.toNat ∧ s.latch.srclen.toNat = 9 ∧ s.latch.srclen.toNat % 8 = 1 ∧
        trailer s = 3 ∧ (s.cfg.trailerStrict = true → trailer s < 8) ∧ 5 ≤ s.latch.dstcap.toNat ∧
        s.refuses p.2 p.1 = true) ∧
    (let s := job .desDec helloCipher (refusing .read 0x10007 { base with dstCap := 5 });
      s.latch.srcAt 7 = 0x10007 ∧ s.refuses (s.latch.srcAt 8) .read = false ∧ ReadsAllowed s 7 ∧
        WritesAllowed s (min 5 (8 * (7 / 8)))) ∧
    (∀ m ∈ [0, 4],
      let s := job .desDec helloCipher (refusing .write (0x20000 + m) { base with dstCap := 5 })
      s.latch.dstAt m = 0x20000 + m ∧ m < 5 ∧ s.refuses (s.latch.srcAt 8) .read = false ∧ WritesAllowed s m ∧
        ReadsAllowed s (min 8 (8 * (m / 8) + 8))) := by
  refine ⟨?_, ⟨by decide, allows_job (.inr (by decide)), fun j hj => allows_job (.inr ?_),
    fun j _ => allows_job (.inl (by decide))⟩, ?_⟩
  · intro p hp
    simp only [List.mem_cons, List.not_mem_nil, or_false] at hp
    obtain rfl | rfl | rfl | rfl := hp <;>
      exact ⟨⟨by decide, by decide, by decide⟩, by decide, by decide, by decide, by decide +kernel, by decide +kernel,
        by decide, refuses_job.2 ⟨rfl, rfl⟩⟩
  · show 0x10007 ≠ 0x10000 + j
    omega
  · intro m hm
    refine ⟨rfl, ?_, allows_job (.inl (by decide)), fun j hj => allows_job (.inr ?_),
      fun j _ => allows_job (.inl (by decide))⟩
    · simp only [List.mem_cons, List.not_mem_nil, or_false] at hm
      omega
    · show 0x20000 + m ≠ 0x20000 + j
      omega

/-- The first and the last byte of the window, in and out of reset, and the last byte of a device. -/
theorem witness_OutsideMemoryAccesses :
    (∀ a ∈ [0x40000000, 0x400000FF], base.cfg.base ≤ a ∧ a < base.cfg.base + 0x100) ∧
    base.resetActive = false ∧ ({ base with resetActive := true } : State).resetActive = true ∧
    (∃ d ∈ (withDevice base).cfg.devices, d.contains 0x50003 = true) ∧
    (0x50003 < base.cfg.base ∨ base.cfg.base + 0x100 ≤ 0x50003) := by decide

end Sys2Proof.Tests
end

/-! SUPPORT. The configuration (spec 00_scope.md R9) under each turn of an agent, and the statement that no step
changes it. -/

namespace Sys2Proof.Proofs

open Sys2Proof Sys2Proof.Machine Sys2Proof.Laws Sys2Proof.Safety

variable {s t : State}

/-! ### The engine's turn -/

/-- A completed command leaves the configuration because every single action of its body does. -/
theorem exec_cfg {i : Instr} (h : exec i s = .next t) : t.cfg = s.cfg := by
  obtain ⟨code, n, u, hu, hR⟩ := exec_completes i s
  have hsame : SameOutside s u := hR (engineRel_sameOutside (fun _ => True) _) fun _ _ => trivial
  obtain rfl : complete code n u = t := Host.Outcome.next.inj (hu.symm.trans h)
  exact (hostSideSame_of_sameOutside hsame).cfg

theorem engineTurn_cfg (h : engineTurn s = .next t) : t.cfg = s.cfg := by
  obtain rfl | ⟨-, -, ⟨rfl, -⟩ | ⟨i, -, hi⟩⟩ := engineTurn_cases h
  · rfl
  · exact complete_cfg _ _ s
  · exact exec_cfg hi

/-! ### The register port -/

theorem cmdWrite_cfg {w : Word} (h : cmdWrite w s = .next t) : t.cfg = s.cfg := by
  cases he : s.engine with
  | idle =>
    obtain ⟨rfl, -, -⟩ := cmdWrite_idle he h
    rfl
  | busy =>
    rw [cmdWrite, he] at h
    cases h
    rfl

/-- Only a CMD write does more than set fields of its own register. -/
theorem regWrite_cfg {r : Reg} {v : Word} (h : regWrite r v s = .next t) : t.cfg = s.cfg := by
  cases r with
  | cmd => exact cmdWrite_cfg h
  | _ => cases h; rfl

theorem hostWrite_cfg {agent size : Nat} {o : BitVec 8} {v : Word} (h : hostWrite agent size o v s = .next t) :
    t.cfg = s.cfg := by
  obtain ⟨-, -, -, -, u, hu, rfl⟩ := hostWrite_next h
  exact (regWrite_cfg hu).trans (noteWrite_cfg _ _ s)

@[simp] theorem observeDone_cfg (seen : Bool) (s : State) : (observeDone seen s).cfg = s.cfg := by
  cases seen <;> rfl

theorem hostRead_cfg {size : Nat} {o : BitVec 8} (h : hostRead size o s = .next t) : t.cfg = s.cfg := by
  obtain ⟨-, -, -, rfl⟩ := hostRead_next h
  exact observeDone_cfg _ s

@[simp] theorem hostSeeIrq_cfg (s : State) : (hostSeeIrq s).cfg = s.cfg := observeDone_cfg _ s

/-! ### Host memory -/

theorem hostStore_cfg {a : Nat} {v : Byte} (h : hostStore a v s = .next t) : t.cfg = s.cfg := by
  obtain ⟨-, -, rfl⟩ := hostStore_next h
  exact putByte_cfg s a v

theorem hostLoad_cfg {a : Nat} (h : hostLoad a s = .next t) : t.cfg = s.cfg := by
  obtain ⟨-, ⟨-, rfl⟩ | ⟨-, rfl⟩⟩ := hostLoad_next h <;> rfl

/-! ### The reset input -/

@[simp] theorem drawRange_cfg (keep : Nat → Bool) (a n : Nat) (s : State) :
    (drawRange keep a n s).cfg = s.cfg := by
  obtain ⟨m, d, h⟩ := drawRange_frame keep a n s
  rw [h]

@[simp] theorem abortCommand_cfg (s : State) : (abortCommand s).cfg = s.cfg := by
  cases he : s.engine <;> simp [abortCommand, he]

@[simp] theorem resetBlock_cfg (level : Bool) (s : State) : (resetBlock level s).cfg = s.cfg := rfl

@[simp] theorem resetAssert_cfg (s : State) : (resetAssert s).cfg = s.cfg := abortCommand_cfg s

@[simp] theorem resetRelease_cfg (s : State) : (resetRelease s).cfg = s.cfg := by
  unfold resetRelease
  split
  · exact resetBlock_cfg false s
  · rfl

/-! ### The step -/

theorem inputTurn_cfg {x : Input} (h : inputTurn x s = .next t) : t.cfg = s.cfg := by
  cases x with
  | write agent size o v => exact hostWrite_cfg h
  | read agent size o => exact hostRead_cfg h
  | store agent a v => exact hostStore_cfg h
  | load agent a => exact hostLoad_cfg h
  | seeIrq agent => cases h; exact hostSeeIrq_cfg s
  | endSequence agent => cases h; rfl
  | cacheMaintain agent => cases h; rfl
  | resetAssert => cases h; exact resetAssert_cfg s
  | resetRelease => cases h; exact resetRelease_cfg s
  | engine => exact engineTurn_cfg h

/-- Settles O7: a step is the engine's turn or one input's, and each of them leaves the configuration. -/
theorem stepKeepsConfiguration : Obligations.StepKeepsConfiguration := by
  intro s t h
  cases hin : s.inputs with
  | nil => exact engineTurn_cfg (step_nil hin ▸ h)
  | cons x rest =>
    have hkept := inputTurn_cfg (step_cons hin ▸ h)
    exact hkept

end Sys2Proof.Proofs

/-! SUPPORT. What one step can do (spec 40_command_interface.md R110, R122), said once as `Effect`: every step has
one of nine effects, and the statements about all steps are a case for each. -/

namespace Sys2Proof.Proofs

open Sys2Proof Sys2Proof.Machine Sys2Proof.Laws Sys2Proof.Safety

variable {s t : State} {x : Option Input}

/-! ### The effects -/

/-- The states differ only in the operand registers, the inputs, the answer to the host, the open command sequence
and the counter of draws. -/
def OperandsOnly (s t : State) : Prop :=
  t = { s with
        srcAddr := t.srcAddr, srcLen := t.srcLen, dstAddr := t.dstAddr, dstCap := t.dstCap, keyLen := t.keyLen
        key0 := t.key0, key1 := t.key1, heapAddr := t.heapAddr, heapLen := t.heapLen
        inputs := t.inputs, response := t.response, owner := t.owner, draws := t.draws }

/-- What the step with next input `x` does to the state `s` from which that input has been taken. -/
inductive Effect (x : Option Input) (s t : State) : Prop where
  /-- no flag, result register or hidden register moves -/
  | operands (h : OperandsOnly s t)
  /-- a CTRL write (R24) -/
  | enable (b : Bool) (hreset : s.resetActive = false) (h : OperandsOnly { s with ie := b } t)
  /-- a STATUS write (R26, R27) -/
  | acknowledge (agent : Nat) (v : Word) (hx : x = some (.write agent 4 0x04 v))
      (h : OperandsOnly (acknowledge v s) t)
  /-- a CMD write that is accepted (R112) -/
  | accept (agent : Nat) (w : Word) (hx : x = some (.write agent 4 0x08 w)) (hreset : s.resetActive = false)
      (hidle : s.engine = .idle) (hrange : hazardRange s.cfg (s.capture w) = false)
      (h : OperandsOnly (acceptCommand w s) t)
  /-- the host observes DONE = 1 (R241) -/
  | observe (hdone : s.done = true) (h : OperandsOnly { s with unseen := [] } t)
  /-- the host stores a byte (R67) -/
  | store (a : Word) (v : Byte)
      (h : OperandsOnly { s.putByte a.toNat v with
                          hostDirty := if s.cfg.dmaCoherent then s.hostDirty else a.toNat :: s.hostDirty } t)
  /-- the host maintains its caches (R80) -/
  | maintain (h : t = hostMaintain s)
  /-- the reset input is asserted or released, after the memory of an aborted command was drawn (R230, R231) -/
  | reset (level : Bool) (u : State)
      (hx : x = some .resetAssert ∨ (x = some .resetRelease ∧ s.resetActive = true))
      (hframe : ∃ m d, u = { s with mem := m, draws := d })
      (hmem : Memory.wf s.mem = true → Memory.wf u.mem = true) (h : t = resetBlock level u)
  /-- the Busy engine runs its command to completion (R121, R122) -/
  | complete (code : ErrCode) (n : Nat) (u : State) (hreset : s.resetActive = false) (hbusy : s.engine = .busy)
      (hframe : SameOutside s u) (hmem : Memory.wf s.mem = true → Memory.wf u.mem = true)
      (hpath : u.pathsel = s.pathsel ∨ s.latch.w = encode .hexEnc ∨ s.latch.w = encode .hexDec)
      (h : t = complete code n u)

/-! ### The engine's turn -/

theorem usesHeapWindow_iff (i : Instr) : usesHeapWindow i = true ↔ i = .hexEnc ∨ i = .hexDec := by
  cases i <;> decide

/-- Only a hex command moves PATHSEL, and every DMA write is inside the DMA space. -/
theorem engineTurn_completes (hreset : s.resetActive = false) (hbusy : s.engine = .busy)
    (h : engineTurn s = .next t) : Effect x s t := by
  obtain ⟨code, n, u, ht, hR⟩ := engineTurn_busy hreset hbusy h
  have hframe : SameOutside s u := hR (engineRel_sameOutside (fun _ => True) _) fun _ _ _ _ => trivial
  have hmem := hR (engineRel_wf (W := (· < 2 ^ 32)) _ fun _ ha => ha) fun _ _ _ ha => (mayWrite_ranges ha).1
  refine .complete code n u hreset hbusy hframe hmem ?_ ht
  by_cases hhex : ∃ i, decode s.fetchWord = .ok i ∧ usesHeapWindow i = true
  · obtain ⟨i, hi, hu⟩ := hhex
    have hw : s.latch.w = encode i := decode_eq hi
    obtain rfl | rfl := (usesHeapWindow_iff i).1 hu
    · exact .inr (.inl hw)
    · exact .inr (.inr hw)
  · exact .inl (hR (engineRel_pathsel (fun _ => True) hhex) fun _ _ _ _ => trivial)

theorem engineTurn_effect (h : engineTurn s = .next t) : Effect x s t := by
  obtain rfl | ⟨hreset, hbusy, -⟩ := engineTurn_cases h
  · exact .operands rfl
  · exact engineTurn_completes hreset hbusy h

/-! ### The register port -/

theorem cmdWrite_busy {w : Word} (hbusy : s.engine = .busy) : cmdWrite w s = .next s := by simp [cmdWrite, hbusy]

theorem hostWrite_effect {agent size : Nat} {o : BitVec 8} {v : Word} (h : hostWrite agent size o v s = .next t) :
    Effect (some (.write agent size o v)) s t := by
  obtain ⟨hreset, rfl, -, -, u, hu, rfl⟩ := hostWrite_next h
  cases hr : Reg.ofOffset o with
  | ctrl => rw [hr] at hu; cases hu; exact .enable (v.getLsbD 0) hreset rfl
  | status =>
    obtain rfl := (ofOffset_eq o).1.1 hr
    cases hu
    exact .acknowledge agent v rfl rfl
  | cmd =>
    obtain rfl := (ofOffset_eq o).2.1 hr
    cases he : s.engine with
    | busy =>
      obtain rfl : noteWrite agent .cmd s = u := 
        Host.Outcome.next.inj ((cmdWrite_busy (s := noteWrite agent .cmd s) he).symm.trans hu)
      exact .operands rfl
    | idle =>
      obtain ⟨rfl, hrange, -⟩ := cmdWrite_idle (s := noteWrite agent .cmd s) he hu
      exact .accept agent v rfl hreset he hrange rfl
  | _ => rw [hr] at hu; cases hu; exact .operands rfl

/-- A read or a look at `irq` ends the duty of R241 only if it shows DONE = 1. -/
theorem observeDone_effect {seen : Bool} (hdone : seen = true → s.done = true) (r : Response) :
    Effect x s { observeDone seen s with response := r } := by
  cases seen with
  | true => exact .observe (hdone rfl) rfl
  | false => exact .operands rfl

theorem hostRead_effect {size : Nat} {o : BitVec 8} (h : hostRead size o s = .next t) : Effect x s t := by
  obtain ⟨-, -, -, rfl⟩ := hostRead_next h
  exact observeDone_effect (fun hs => (Bool.and_eq_true_iff.1 hs).2) _

/-! ### Host memory -/

theorem hostStore_effect {a : Word} {v : Byte} (h : hostStore a.toNat v s = .next t) : Effect x s t := by
  obtain ⟨-, -, rfl⟩ := hostStore_next h
  exact .store a v rfl

theorem hostLoad_effect {a : Nat} (h : hostLoad a s = .next t) : Effect x s t := by
  obtain ⟨-, ⟨-, rfl⟩ | ⟨-, rfl⟩⟩ := hostLoad_next h
  · exact .operands rfl
  · exact .operands rfl

/-! ### The reset input -/

theorem abortCommand_frame (s : State) : ∃ m d, abortCommand s = { s with mem := m, draws := d } := by
  unfold abortCommand
  split
  · exact ⟨s.mem, s.draws, rfl⟩
  · obtain ⟨m, d, hdst⟩ := drawRange_frame s.latch.source.contains s.latch.dst.toNat s.latch.dstcap.toNat s
    obtain ⟨m', d', hheap⟩ := drawRange_frame s.latch.source.contains s.latch.heap.toNat s.latch.heaplen.toNat
      { s with mem := m, draws := d }
    exact ⟨m', d', (congrArg (drawRange _ _ _) hdst).trans hheap⟩

theorem drawRange_wf (keep : Nat → Bool) (a n : Nat) (h : Memory.wf s.mem = true) :
    Memory.wf (drawRange keep a n s).mem = true :=
  keeps_drawRange (engineRel_wf (W := (· < 2 ^ 32)) True fun _ ha => ha) keep (fun _ _ _ _ ha => ha) s h

theorem abortCommand_wf (h : Memory.wf s.mem = true) : Memory.wf (abortCommand s).mem = true := by
  unfold abortCommand
  split
  · exact h
  · exact drawRange_wf _ _ _ (drawRange_wf _ _ _ h)

theorem resetRelease_effect (s : State) : Effect (some .resetRelease) s (resetRelease s) := by
  unfold resetRelease
  split
  · rename_i hactive
    exact .reset false s (.inr ⟨rfl, hactive⟩) ⟨s.mem, s.draws, rfl⟩ id rfl
  · exact .operands rfl

/-! ### The step -/

theorem inputTurn_effect {y : Input} (h : inputTurn y s = .next t) : Effect (some y) s t := by
  cases y with
  | write agent size o v => exact hostWrite_effect h
  | read agent size o => exact hostRead_effect h
  | store agent a v => exact hostStore_effect h
  | load agent a => exact hostLoad_effect h
  | seeIrq agent => cases h; exact observeDone_effect (fun hs => (Bool.and_eq_true_iff.1 hs).2) _
  | endSequence agent => cases h; exact .operands rfl
  | cacheMaintain agent => cases h; exact .maintain rfl
  | resetAssert => cases h; exact .reset true _ (.inl rfl) (abortCommand_frame s) abortCommand_wf rfl
  | resetRelease => cases h; exact resetRelease_effect s
  | engine => exact engineTurn_effect h

/-- Every step has an effect, on the state without the input it takes. -/
theorem step_effect (h : step s = .next t) : ∃ rest, Effect s.inputs.head? { s with inputs := rest } t := by
  cases hin : s.inputs with
  | nil => exact ⟨s.inputs, engineTurn_effect (step_nil hin ▸ h)⟩
  | cons y rest => exact ⟨rest, inputTurn_effect (step_cons hin ▸ h)⟩

end Sys2Proof.Proofs

/-! SUPPORT. The invariant of the machine (`Safety.Inv`): it holds at reset and each effect of a step keeps it. -/

namespace Sys2Proof.Proofs

open Sys2Proof Sys2Proof.Machine Sys2Proof.Laws Sys2Proof.Safety

variable {s t : State}

/-! ### One lemma per effect -/

/-- No clause speaks of the operand registers and the host's side of the port. -/
theorem inv_of_operandsOnly (hst : OperandsOnly s t) (h : Inv s) : Inv t := by
  rw [hst]
  exact { h with }

/-- `irq` has to stay deasserted only during reset. -/
theorem inv_enable (b : Bool) (hreset : s.resetActive = false) (h : Inv s) : Inv { s with ie := b } :=
  { h with resetQuiet := fun hr => absurd (hreset.symm.trans hr) (by decide) }

theorem inv_acknowledge (v : Word) (h : Inv s) : Inv (acknowledge v s) :=
  { h with
    inFlight := fun hb => by
      obtain ⟨hdone, herr, hrest⟩ := h.inFlight hb
      exact ⟨by simp [hdone], by simp [herr], hrest⟩
    errCoded := fun he => h.errCoded (Bool.and_eq_true_iff.1 he).1
    resetQuiet := fun hr => by
      obtain ⟨hidle, hirq⟩ := h.resetQuiet hr
      refine ⟨hidle, ?_⟩
      have hirq' : (s.ie && s.done) = false := hirq
      show (s.ie && (s.done && !v.getLsbD 1)) = false
      rw [← Bool.and_assoc, hirq', Bool.false_and] }

theorem inv_acceptCommand {w : Word} (hreset : s.resetActive = false)
    (hrange : hazardRange s.cfg (s.capture w) = false) (h : Inv s) : Inv (acceptCommand w s) where
  memory := h.memory
  schedule := h.schedule
  scratch := h.scratch
  inFlight _ := ⟨rfl, rfl, rfl, rfl, rfl, rfl⟩
  inFlightWord _ := rfl
  inFlightRanges _ := hrange
  inFlightDuty _ := List.mem_cons_self
  errCoded he := nomatch he
  failedEmpty _ := rfl
  pathOfHex hp := nomatch hp
  resetQuiet hr := absurd (hreset.symm.trans hr) (by decide)
  coherent hc := by
    obtain ⟨hhost, hdma⟩ := h.coherent hc
    have hkept : (acceptCommand w s).dmaDirty = s.dmaDirty := if_pos hc
    exact ⟨hhost, hkept.trans hdma⟩

/-- While a command is in flight DONE is 0, so its ranges cannot be dropped. -/
theorem inv_observe (hdone : s.done = true) (h : Inv s) : Inv { s with unseen := [] } :=
  { h with inFlightDuty := fun hb => absurd ((h.inFlight hb).1.symm.trans hdone) (by decide) }

theorem inv_store (a : Word) (v : Byte) (h : Inv s) :
    Inv { s.putByte a.toNat v with
          hostDirty := if s.cfg.dmaCoherent then s.hostDirty else a.toNat :: s.hostDirty } :=
  { h with
    memory := wf_write v h.memory a.isLt
    coherent := fun hc => by
      obtain ⟨hhost, hdma⟩ := h.coherent hc
      exact ⟨(if_pos hc).trans hhost, hdma⟩ }

theorem inv_hostMaintain (h : Inv s) : Inv (hostMaintain s) :=
  { h with
    coherent := fun hc => by
      have hc' : s.cfg.dmaCoherent = true := hc
      exact ⟨rfl, by simp [hostMaintain, hc']⟩ }

/-- Reset leaves only memory and the bookkeeping of maintenance to look at. -/
theorem inv_resetBlock {u : State} (level : Bool) (hmem : Memory.wf u.mem = true)
    (hcoherent : u.cfg.dmaCoherent = true → u.hostDirty = [] ∧ u.dmaDirty = []) : Inv (resetBlock level u) where
  memory := hmem
  schedule := rfl
  scratch := rfl
  inFlight hb := nomatch hb
  inFlightWord hb := nomatch hb
  inFlightRanges hb := nomatch hb
  inFlightDuty hb := nomatch hb
  errCoded he := nomatch he
  failedEmpty _ := rfl
  pathOfHex hp := nomatch hp
  resetQuiet _ := ⟨rfl, rfl⟩
  coherent := hcoherent

/-- At completion PATH shows PATHSEL, which accept had cleared and only a hex command sets. -/
theorem inv_complete {code : ErrCode} {n : Nat} {u : State} (hreset : s.resetActive = false)
    (hbusy : s.engine = .busy) (hframe : SameOutside s u) (hmem : Memory.wf s.mem = true → Memory.wf u.mem = true)
    (hpath : u.pathsel = s.pathsel ∨ s.latch.w = encode .hexEnc ∨ s.latch.w = encode .hexDec) (h : Inv s) :
    Inv (complete code n u) := by
  have host : HostSideSame s (complete code n u) := hostSideSame_of_sameOutside hframe
  obtain ⟨-, -, -, -, -, hpathsel⟩ := h.inFlight hbusy
  exact {
    memory := hmem h.memory
    schedule := rfl
    scratch := rfl
    inFlight := fun hb => nomatch hb
    inFlightWord := fun hb => nomatch hb
    inFlightRanges := fun hb => nomatch hb
    inFlightDuty := fun hb => nomatch hb
    errCoded := fun he => by simpa using he
    failedEmpty := fun hc => if_neg hc
    pathOfHex := fun hp => by
      rw [host.cmd, ← h.inFlightWord hbusy]
      exact hpath.resolve_left fun hsame => absurd ((hsame.trans hpathsel).symm.trans hp) (by decide)
    resetQuiet := fun hr => absurd (hreset.symm.trans (host.resetActive.symm.trans hr)) (by decide)
    coherent := fun hc => by
      rw [host.hostDirty, host.dmaDirty]
      exact h.coherent (host.cfg ▸ hc) }

theorem inv_effect {x : Option Input} (he : Effect x s t) (h : Inv s) : Inv t := by
  cases he with
  | operands hst => exact inv_of_operandsOnly hst h
  | enable b hreset hst => exact inv_of_operandsOnly hst (inv_enable b hreset h)
  | acknowledge agent v _ hst => exact inv_of_operandsOnly hst (inv_acknowledge v h)
  | accept agent w _ hreset _ hrange hst => exact inv_of_operandsOnly hst (inv_acceptCommand hreset hrange h)
  | observe hdone hst => exact inv_of_operandsOnly hst (inv_observe hdone h)
  | store a v hst => exact inv_of_operandsOnly hst (inv_store a v h)
  | maintain ht => exact ht ▸ inv_hostMaintain h
  | reset level u _ hframe hmem ht =>
    obtain ⟨m, d, rfl⟩ := hframe
    exact ht ▸ inv_resetBlock level (hmem h.memory) h.coherent
  | complete code n u hreset hbusy hframe hmem hpath ht =>
    exact ht ▸ inv_complete hreset hbusy hframe hmem hpath h

/-! ### The statements -/

/-- Settles O54: every step has an effect, and each effect keeps the invariant. -/
theorem stepKeepsInvariant : Obligations.StepKeepsInvariant := by
  intro s t h hstep
  obtain ⟨rest, he⟩ := step_effect hstep
  have hpopped : Inv { s with inputs := rest } := inv_of_operandsOnly rfl h
  exact inv_effect he hpopped

/-- Settles O53: at reset nothing is in flight, no code is shown, and the lists of the model are empty. -/
theorem invariantHoldsAtReset : Obligations.InvariantHoldsAtReset where
  memory := wf_empty
  schedule := rfl
  scratch := rfl
  inFlight hb := nomatch hb
  inFlightWord hb := nomatch hb
  inFlightRanges hb := nomatch hb
  inFlightDuty hb := nomatch hb
  errCoded he := nomatch he
  failedEmpty _ := rfl
  pathOfHex hp := nomatch hp
  resetQuiet _ := ⟨rfl, rfl⟩
  coherent _ := ⟨rfl, rfl⟩

end Sys2Proof.Proofs

/-! SUPPORT. Who moves the flags, the result registers, the CMD read value, H1 and H2 (spec 10_state.md R25 to R31,
R38, R48): the STATUS word, the W1C flags, and the causes of a change over all steps. -/

namespace Sys2Proof.Proofs

open Sys2Proof Sys2Proof.Machine Sys2Proof.Laws Sys2Proof.Safety

variable {s t : State}

/-! ### The STATUS word -/

theorem flagBit_getLsbD (b : Bool) (k : Nat) : (flagBit b).getLsbD k = (b && decide (k = 0)) := by
  cases b with
  | true => simp [flagBit, BitVec.getLsbD_one]
  | false => simp [flagBit]

theorem flagBit_shiftLeft_getLsbD (b : Bool) (k : Nat) {n : Nat} (hn : n < 32) :
    (flagBit b <<< n).getLsbD k = (b && decide (k = n)) := by
  rw [BitVec.getLsbD_shiftLeft, flagBit_getLsbD, Bool.eq_iff_iff]
  simp only [Bool.and_eq_true, Bool.not_eq_true', decide_eq_true_eq, decide_eq_false_iff_not]
  constructor
  · rintro ⟨⟨-, hnk⟩, hb, h0⟩
    exact ⟨hb, by omega⟩
  · rintro ⟨hb, rfl⟩
    exact ⟨⟨hn, by omega⟩, hb, by omega⟩

/-- R29, bit by bit. -/
theorem statusWord_getLsbD (s : State) (k : Nat) :
    s.statusWord.getLsbD k =
      (s.path && decide (k = 3) || s.err && decide (k = 2) || s.done && decide (k = 1) || s.busy && decide (k = 0)) := by
  simp only [State.statusWord, BitVec.getLsbD_or]
  rw [flagBit_shiftLeft_getLsbD _ _ (by decide), flagBit_shiftLeft_getLsbD _ _ (by decide),
    flagBit_shiftLeft_getLsbD _ _ (by decide), flagBit_getLsbD]

/-- Settles O15: the bits of the STATUS word, and that the acknowledgement looks at bits 1 and 2 only. -/
theorem statusWordIsTheFlags : Obligations.StatusWordIsTheFlags := by
  intro s
  simp only [statusWord_getLsbD]
  refine ⟨by simp [State.busy], by simp, by simp, by simp, fun k hk => ?_, fun v => ?_⟩
  · have h0 : k ≠ 0 ∧ k ≠ 1 ∧ k ≠ 2 ∧ k ≠ 3 := by omega
    simp [h0]
  · simp [regWrite, acknowledge]

/-- Settles O8: each line of R49 is the value `State.reset` gives. -/
theorem resetStateValues : Obligations.ResetStateValues := by
  unfold Obligations.ResetStateValues
  and_intros <;> rfl

/-- Settles O17: accept and completion by their laws, the W1C write by the laws of `acknowledge`. -/
theorem doneAndErrAreWriteOneToClear : Obligations.DoneAndErrAreWriteOneToClear := by
  refine ⟨rfl, rfl, fun w s t hidle h => ?_, fun s t hbusy hreset h => ?_, fun v s => ?_⟩
  · obtain ⟨rfl, -, -⟩ := cmdWrite_idle hidle h
    exact ⟨rfl, rfl⟩
  · obtain ⟨code, n, u, rfl, -⟩ := engineTurn_busy hreset hbusy h
    simp
  · refine ⟨acknowledge v s, rfl, ?_, ?_, rfl, rfl, rfl⟩
    · cases hv : v.getLsbD 1 <;> simp only [acknowledge_done, hv] <;> simp
    · cases hv : v.getLsbD 2 <;> simp only [acknowledge_err, hv] <;> simp

/-! ### The causes of a change -/

/-- The engine state, the flags, the result registers, the CMD read value, H1 and H2. -/
def visible (s : State) : Engine × Bool × Bool × Bool × ErrCode × Word × Word × Word × Word :=
  (s.engine, s.done, s.err, s.path, s.errcode, s.resLen, s.cmd, s.h1, s.h2)

theorem visible_eq_iff : visible t = visible s ↔
    t.engine = s.engine ∧ t.done = s.done ∧ t.err = s.err ∧ t.path = s.path ∧ t.errcode = s.errcode ∧
      t.resLen = s.resLen ∧ t.cmd = s.cmd ∧ t.h1 = s.h1 ∧ t.h2 = s.h2 := by
  simp only [visible, Prod.mk.injEq]

theorem visible_of_operandsOnly (h : OperandsOnly s t) : visible t = visible s := by
  rw [h]
  rfl

/-- A flag written with write-1-to-clear changes only to 0 and only by a 1. -/
theorem cleared_of_ne {b c k : Bool} (h : c = (b && !k)) (hne : c ≠ b) : c = false ∧ k = true := by
  revert b c k
  decide

/-- Where nothing changed no cause is asked for. -/
theorem no_cause_of_visible (h : visible t = visible s) {p₁ p₂ p₃ p₄ p₅ p₆ : Prop} :
    (s.done = false → t.done = true → p₁) ∧ (s.done = true → t.done = false → p₂) ∧ (t.err ≠ s.err → p₃) ∧
    (t.path ≠ s.path ∨ t.errcode ≠ s.errcode ∨ t.resLen ≠ s.resLen → p₄) ∧ (t.cmd ≠ s.cmd → p₅) ∧
    (t.h1 ≠ s.h1 ∨ t.h2 ≠ s.h2 → p₆) := by
  obtain ⟨-, hdone, herr, hpath, hcode, hlen, hcmd, hh1, hh2⟩ := visible_eq_iff.1 h
  refine ⟨fun hs ht => ?_, fun hs ht => ?_, absurd herr, ?_, absurd hcmd, ?_⟩
  · simp [hdone, hs] at ht
  · simp [hdone, hs] at ht
  · rintro (h | h | h)
    exacts [absurd hpath h, absurd hcode h, absurd hlen h]
  · rintro (h | h)
    exacts [absurd hh1 h, absurd hh2 h]

/-- R38: a completion moves H1 or H2 only as a successful HASHKEY. -/
theorem hashkey_of_hashRegs_changed {code : ErrCode} {n : Nat} {u : State} (hframe : SameOutside s u)
    (hne : (complete code n u).h1 ≠ s.h1 ∨ (complete code n u).h2 ≠ s.h2) :
    code = .ok ∧ opc s.latch.w = 0x01 := by
  have hlatch : u.latch = s.latch := by rw [hframe]
  by_contra hno
  obtain ⟨hh1, hh2⟩ : HashRegsSame s (complete code n u) :=
    hashRegs_of_opc (by rw [hframe]) (by rw [hframe]) (hlatch ▸ not_and.1 hno)
  exact hne.elim (absurd hh1) (absurd hh2)

/-- Settles O55: every step has an effect, and an effect that moves one of these registers is its own cause. -/
theorem onlyCompletionRaisesDone : Obligations.OnlyCompletionRaisesDone := by
  intro s t hstep accepted completed cleared reset
  obtain ⟨rest, he⟩ := step_effect hstep
  cases he with
  | operands h => exact no_cause_of_visible (visible_of_operandsOnly h)
  | enable b _ h => exact no_cause_of_visible (visible_of_operandsOnly h)
  | observe _ h => exact no_cause_of_visible (visible_of_operandsOnly h)
  | store a v h => exact no_cause_of_visible (visible_of_operandsOnly h)
  | maintain h => exact no_cause_of_visible (h ▸ rfl)
  | acknowledge agent v hx h =>
    obtain ⟨-, hdone, herr, hpath, hcode, hlen, hcmd, hh1, hh2⟩ := visible_eq_iff.1 (visible_of_operandsOnly h)
    have hclears : ∀ {k}, v.getLsbD k = true → cleared k := fun hk => ⟨agent, v, hx, hk⟩
    refine ⟨fun hs ht => ?_, fun hs ht => ?_, fun hne => ?_, ?_, ?_, ?_⟩
    · have hlow : t.done = false := (cleared_of_ne hdone (by simp [hs, ht])).1
      exact absurd (hlow.symm.trans ht) (by decide)
    · exact .inr (.inl (hclears (cleared_of_ne hdone (by simp [hs, ht])).2))
    · obtain ⟨hlow, hk⟩ := cleared_of_ne herr hne
      exact .inr (.inr (.inl ⟨hlow, hclears hk⟩))
    · simp [hpath, hcode, hlen]
    · simp [hcmd]
    · simp [hh1, hh2]
  | accept agent w hx _ hidle _ h =>
    obtain ⟨hengine, hdone, -, -, -, -, -, hh1, hh2⟩ := visible_eq_iff.1 (visible_of_operandsOnly h)
    have haccepted : accepted := ⟨agent, w, hx, hidle, hengine⟩
    refine ⟨fun _ ht => ?_, fun _ _ => .inl haccepted, fun _ => .inl haccepted, fun _ => .inl haccepted,
      fun _ => .inl haccepted, fun hne => ?_⟩
    · exact absurd (hdone.symm.trans ht) (by simp [acceptCommand])
    · exact absurd hne (by simp [hh1, hh2, acceptCommand])
  | reset level u hx _ _ h =>
    have hreset : reset := hx
    subst h
    exact ⟨fun _ hd => (nomatch hd), fun _ _ => .inr (.inr hreset), fun _ => .inr (.inr (.inr hreset)),
      fun _ => .inr (.inr hreset), fun _ => .inr hreset, fun _ => .inr hreset⟩
  | complete code n u _ hbusy hframe _ _ h =>
    subst h
    have hcompleted : completed := ⟨hbusy, rfl, rfl⟩
    refine ⟨fun _ _ => ⟨hbusy, rfl⟩, fun _ hd => (nomatch hd), fun _ => .inr (.inl hcompleted),
      fun _ => .inr (.inl hcompleted), absurd (hostSideSame_of_sameOutside hframe).cmd, fun hne => ?_⟩
    obtain ⟨hok, hhash⟩ := hashkey_of_hashRegs_changed hframe hne
    exact .inl ⟨hcompleted, hhash, hok⟩

/-! ### The hidden registers -/

/-- A state with other values in the hidden registers is alike. -/
theorem alike_hidden (s : State) (a1 a2 : Word) (k : Option Sched) (b : Block) (m : List Host.Cell) :
    Alike s { s with acc1 := a1, acc2 := a2, ks := k, blkbuf := b, scratch := m } :=
  ⟨s.latch, a1, a2, k, b, m, rfl, rfl⟩

/-- The completion of a command that is not HASHKEY does not read the accumulators, so they need not agree (R121). -/
theorem runCommand_hidden {body : Latched → Cmd Nat} (hopc : opc s.latch.w ≠ 0x01)
    (hbody : Paired Agree (body s.latch) (body s.latch) Agree)
    (a1 a2 : Word) (k : Option Sched) (b : Block) (m : List Host.Cell) :
    runCommand body { s with acc1 := a1, acc2 := a2, ks := k, blkbuf := b, scratch := m } = runCommand body s :=
  runCommand_paired ⟨alike_hidden s a1 a2 k b m, fun hhash => absurd hhash hopc⟩ (fun _ _ h => h.1) rfl rfl rfl hbody

/-- Settles O52: two runs from states that are alike end in one state; HASHKEY loads the accumulators itself, and no
other command's completion reads them. -/
theorem hiddenRegistersAreSetBeforeUse : Obligations.HiddenRegistersAreSetBeforeUse := by
  intro i s a1 a2 k b m hloaded
  have hword : s.latch.w = encode i := hloaded
  cases i with
  | hashkey =>
    exact congrArg Host.Outcome.next
      (runCommand_paired (alike_hidden s a1 a2 k b m) (fun _ _ h => h) rfl rfl rfl (paired_hashkeyBody s.latch))
  | hexEnc =>
    exact congrArg Host.Outcome.next
      (runCommand_hidden (by rw [hword]; decide) (paired_hexEncBody s.latch) a1 a2 k b m)
  | hexDec =>
    exact congrArg Host.Outcome.next
      (runCommand_hidden (by rw [hword]; decide) (paired_hexDecBody s.latch) a1 a2 k b m)
  | desEnc =>
    exact congrArg Host.Outcome.next
      (runCommand_hidden (by rw [hword]; decide) (paired_desEncBody s.latch) a1 a2 k b m)
  | desDec =>
    exact congrArg Host.Outcome.next
      (runCommand_hidden (by rw [hword]; decide) (paired_desDecBody s.latch) a1 a2 k b m)

end Sys2Proof.Proofs

/-! SUPPORT. Host memory and the register port (spec 20_memory.md): which accesses the port refuses, that an operand
register reads back, which bytes of host memory a step may change, and what a host store and a host load do. -/

namespace Sys2Proof.Proofs

open Sys2Proof Sys2Proof.Machine Sys2Proof.Laws Sys2Proof.Safety

variable {s t : State} {a : Nat} {v : Byte}

/-! ### What the engine may change -/

/-- The engine's turn changes no byte that no command may write. -/
theorem engineTurn_byteAt (h : engineTurn s = .next t) (ha : ∀ i, ¬ MayWrite i s a) : t.byteAt a = s.byteAt a := by
  obtain rfl | ⟨hreset, hbusy, -⟩ := engineTurn_cases h
  · rfl
  · obtain ⟨code, n, u, rfl, hR⟩ := engineTurn_busy hreset hbusy h
    have hkept : ∀ b, ¬ (∃ i, MayWrite i s b) → u.byteAt b = s.byteAt b :=
      hR (engineRel_memory _ _) fun i _ _ hw => ⟨i, hw⟩
    rw [byteAt_complete, hkept a (not_exists.2 ha)]

/-- Settles O48: no command may write a byte of its source range. -/
theorem sourceRangeIsNeverWritten : Obligations.SourceRangeIsNeverWritten := by
  intro s t h a hsrc
  refine engineTurn_byteAt h fun i hw => ?_
  rw [mayWrite_not_source hw] at hsrc
  cases hsrc

/-! ### Which bytes a step may change -/

/-- The byte lies in the destination range or the heap window of the command in flight. -/
def InFlight (s : State) (a : Nat) : Prop :=
  s.engine = .busy ∧ (s.latch.dest.contains a = true ∨ s.latch.heapWindow.contains a = true)

theorem engineTurn_changes (h : engineTurn s = .next t) (hne : t.byteAt a ≠ s.byteAt a) : InFlight s a := by
  obtain rfl | ⟨-, hbusy, -⟩ := engineTurn_cases h
  · exact absurd rfl hne
  · refine ⟨hbusy, by_contra fun hout => hne (engineTurn_byteAt h fun i hw => hout ?_)⟩
    obtain ⟨-, hranges⟩ := mayWrite_ranges hw
    exact hranges.imp_right And.right

/-- R231: an abort draws bytes of the two ranges only. -/
theorem abortCommand_changes (hne : (abortCommand s).byteAt a ≠ s.byteAt a) : InFlight s a := by
  cases hbusy : s.engine with
  | idle => simp [abortCommand, hbusy] at hne
  | busy =>
    refine ⟨hbusy, by_contra fun hout => hne ?_⟩
    obtain ⟨hdst, hheap⟩ := not_or.1 hout
    simp only [contains_iff, Latched.dest] at hdst
    simp only [contains_iff, Latched.heapWindow] at hheap
    simp only [abortCommand, hbusy]
    rw [byteAt_drawRange_out _ _ (by omega), byteAt_drawRange_out _ _ (by omega)]

theorem cmdWrite_mem {w : Word} (h : cmdWrite w s = .next t) : t.mem = s.mem := by
  cases he : s.engine with
  | idle =>
    obtain ⟨rfl, -, -⟩ := cmdWrite_idle he h
    rfl
  | busy =>
    rw [cmdWrite_busy he] at h
    cases h
    rfl

theorem regWrite_mem {r : Reg} {w : Word} (h : regWrite r w s = .next t) : t.mem = s.mem := by
  cases r with
  | cmd => exact cmdWrite_mem h
  | _ => cases h; rfl

theorem hostWrite_mem {agent size : Nat} {o : BitVec 8} {w : Word} (h : hostWrite agent size o w s = .next t) :
    t.mem = s.mem := by
  obtain ⟨-, -, -, -, u, hu, rfl⟩ := hostWrite_next h
  exact (regWrite_mem hu).trans (noteWrite_mem _ _ s)

@[simp] theorem observeDone_mem (seen : Bool) (s : State) : (observeDone seen s).mem = s.mem := by
  cases seen <;> rfl

theorem hostRead_mem {size : Nat} {o : BitVec 8} (h : hostRead size o s = .next t) : t.mem = s.mem := by
  obtain ⟨-, -, -, rfl⟩ := hostRead_next h
  exact observeDone_mem _ s

theorem hostStore_byteAt_other {b : Nat} (h : hostStore a v s = .next t) (hb : b ≠ a) :
    t.byteAt b = s.byteAt b := by
  obtain ⟨-, -, rfl⟩ := hostStore_next h
  exact byteAt_putByte_other s v hb

theorem hostLoad_mem (h : hostLoad a s = .next t) : t.mem = s.mem := by
  obtain ⟨-, ⟨-, rfl⟩ | ⟨-, rfl⟩⟩ := hostLoad_next h <;> rfl

@[simp] theorem resetRelease_mem (s : State) : (resetRelease s).mem = s.mem := by
  unfold resetRelease
  split <;> rfl

theorem byteAt_of_mem (h : t.mem = s.mem) (a : Nat) : t.byteAt a = s.byteAt a := congrArg (·.read a) h

theorem inputTurn_changes {x : Input} (h : inputTurn x s = .next t) (hne : t.byteAt a ≠ s.byteAt a) :
    (∃ agent v w, x = .store agent w v ∧ w.toNat = a) ∨ InFlight s a := by
  cases x with
  | write agent size o w => exact absurd (byteAt_of_mem (hostWrite_mem h) a) hne
  | read agent size o => exact absurd (byteAt_of_mem (hostRead_mem h) a) hne
  | store agent w v =>
    exact .inl ⟨agent, v, w, rfl, by_contra fun hwa => hne (hostStore_byteAt_other h (Ne.symm hwa))⟩
  | load agent w => exact absurd (byteAt_of_mem (hostLoad_mem h) a) hne
  | seeIrq agent => cases h; exact absurd (byteAt_of_mem (observeDone_mem _ s) a) hne
  | endSequence agent => cases h; exact absurd rfl hne
  | cacheMaintain agent => cases h; exact absurd rfl hne
  | resetAssert => cases h; exact .inr (abortCommand_changes hne)
  | resetRelease => cases h; exact absurd (byteAt_of_mem (resetRelease_mem s) a) hne
  | engine => exact .inr (engineTurn_changes h hne)

/-- Settles O56: a step is the engine's turn or one input's, and each of them changes no other byte. -/
theorem memoryChangesOnlyByStoreOrCommand : Obligations.MemoryChangesOnlyByStoreOrCommand := by
  intro s t a h hne
  cases hin : s.inputs with
  | nil => exact .inr (engineTurn_changes (step_nil hin ▸ h) hne)
  | cons x rest =>
    refine (inputTurn_changes (s := { s with inputs := rest }) (step_cons hin ▸ h) hne).imp_left ?_
    rintro ⟨agent, v, w, rfl, hw⟩
    exact ⟨agent, v, w, rfl, hw⟩

/-! ### The register port -/

theorem portAligned_false_iff {size : Nat} {o : BitVec 8} :
    portAligned size o = false ↔ size ≠ 4 ∨ o.toNat % 4 ≠ 0 := by
  rw [portAligned, Bool.and_eq_false_iff, beq_eq_false_iff_ne, beq_eq_false_iff_ne]

/-- Settles O12: the alignment check comes first outside reset. -/
theorem portRefusesOtherAccesses : Obligations.PortRefusesOtherAccesses := by
  intro s agent size o v hreset hother
  have hport := portAligned_false_iff.2 hother
  exact ⟨by simp [hostWrite, hreset, hport], by simp [hostRead, hreset, hport]⟩

/-- The operand registers, R32, R33 and R35 to R37. -/
def operandRegs : List Reg :=
  [.srcAddr, .srcLen, .dstAddr, .dstCap, .keyLen, .key0, .key1, .heapAddr, .heapLen]

/-- The offsets of R23. -/
theorem ofOffset_operand : ∀ o ∈ [0x10#8, 0x14#8, 0x18#8, 0x1C#8, 0x24#8, 0x28#8, 0x2C#8, 0x30#8, 0x34#8],
    Reg.ofOffset o ∈ operandRegs := by decide

/-- An operand register takes the value, whatever the answer to the host, and the reset input stays. -/
theorem regRead_regWrite_operand {r : Reg} {w : Word} (hr : r ∈ operandRegs) (h : regWrite r w s = .next t)
    (x : Response) : regRead r { t with response := x } = w ∧ t.resetActive = s.resetActive := by
  simp only [operandRegs, List.mem_cons, List.not_mem_nil, or_false] at hr
  obtain rfl | rfl | rfl | rfl | rfl | rfl | rfl | rfl | rfl := hr <;> (cases h; exact ⟨rfl, rfl⟩)

/-- Settles O16: an answered write was aligned and outside reset, so the read of the register is answered too. -/
theorem registersReadBackTheLastWrite : Obligations.RegistersReadBackTheLastWrite := by
  intro s t agent o v ho h
  obtain ⟨hreset, -, haligned, -, u, hu, rfl⟩ := hostWrite_next h
  obtain ⟨hvalue, hlevel⟩ := regRead_regWrite_operand (ofOffset_operand o ho) hu .ack
  exact ⟨_, hostRead_aligned (hlevel.trans hreset) haligned, congrArg Response.data hvalue⟩

/-! ### Accesses that meet no plain memory -/

theorem hostStore_outside {x : Host.Outcome State Fault Refusal} (h : outsideMemory a s = some x) (v : Byte) :
    hostStore a v s = x := by
  simp only [hostStore, h]

theorem hostLoad_outside {x : Host.Outcome State Fault Refusal} (h : outsideMemory a s = some x) :
    hostLoad a s = x := by
  simp only [hostLoad, h]

theorem outsideMemory_window (h : (registerWindow s.cfg).contains a = true) :
    outsideMemory a s =
      some (if s.resetActive then .fault .stuckInReset else .refused (.portAccess (a - s.cfg.base) 1)) :=
  if_pos h

theorem outsideMemory_device {d : Range} (h : (registerWindow s.cfg).contains a = false) (hd : d ∈ s.cfg.devices)
    (hda : d.contains a = true) : outsideMemory a s = some (.refused (.deviceAccess a)) := by
  have hany : s.cfg.devices.any (fun d => d.contains a) = true := List.any_eq_true.2 ⟨d, hd, hda⟩
  simp [outsideMemory, h, hany]

/-- Settles O60: the window is looked at before the devices. -/
theorem outsideMemoryAccesses : Obligations.OutsideMemoryAccesses := by
  refine fun s a v => ⟨fun hlow hhigh => ?_, fun d hd hda hout => ?_⟩
  · have hx := outsideMemory_window ((contains_iff (registerWindow s.cfg) a).2 ⟨hlow, hhigh⟩)
    rw [hostStore_outside hx, hostLoad_outside hx]
    exact ⟨fun hreset => by simp [hreset], fun hreset => by simp [hreset]⟩
  · have hwin : (registerWindow s.cfg).contains a = false := by
      simp only [contains_false_iff, registerWindow]
      omega
    have hx := outsideMemory_device hwin hd hda
    exact ⟨hostStore_outside hx v, hostLoad_outside hx⟩

/-! ### Plain memory -/

theorem hostStore_plain (h : outsideMemory a s = none) (hunseen : ∀ f ∈ s.unseen, f.owns a = false) (v : Byte) :
    hostStore a v s =
      .next { s.putByte a v with
              hostDirty := if s.cfg.dmaCoherent then s.hostDirty else a :: s.hostDirty
              response := .ack } := by
  have hany : s.unseen.any (fun f => f.owns a) = false := by simpa using hunseen
  simp [hostStore, h, hany]

/-- Outside a race a load is a fault or the byte, by the record of R80. -/
theorem hostLoad_plain (h : outsideMemory a s = none) (hunseen : ∀ f ∈ s.unseen, f.races a = false) :
    hostLoad a s =
      if !s.cfg.dmaCoherent && s.dmaDirty.any (fun f => f.races a) then .fault .hazardCoherence
      else .next { s with response := .byte (s.byteAt a) } := by
  have hany : s.unseen.any (fun f => f.races a) = false := by simpa using hunseen
  simp [hostLoad, h, hany]

/-- A byte that a command does not own is none it races for. -/
theorem not_races_of_not_owns {f : Footprint} (h : f.owns a = false) : f.races a = false := by
  simp only [Footprint.owns, Bool.or_eq_false_iff] at h
  obtain ⟨⟨-, hdst⟩, hheap⟩ := h
  simp [Footprint.races, hdst, hheap]

theorem hostLoad_coherent (h : outsideMemory a s = none) (hunseen : ∀ f ∈ s.unseen, f.races a = false)
    (hc : s.cfg.dmaCoherent = true) : hostLoad a s = .next { s with response := .byte (s.byteAt a) } := by
  simp [hostLoad_plain h hunseen, hc]

/-- Settles O25: the store is done, and what it leaves is plain memory for the load. -/
theorem hostMemoryHoldsLastStore : Obligations.HostMemoryHoldsLastStore := by
  intro s a v hplain hunseen hcoherent
  have hraces : ∀ f ∈ s.unseen, f.races a = false := fun f hf => not_races_of_not_owns (hunseen f hf)
  exact ⟨_, _, hostStore_plain hplain hunseen v, hostLoad_coherent hplain hraces hcoherent,
    congrArg Response.byte (byteAt_putByte_same s a v), fun b hb => byteAt_putByte_other s v hb, rfl⟩

/-! ### The coherence duty (R80) -/

/-- A command's ranges of R240: source and destination, and the heap window on the heap path. -/
theorem mem_hazardRanges {cfg : Config} {L : Latched} {i : Instr} {r : Range} (h : decode L.w = .ok i) :
    r ∈ hazardRanges cfg L ↔ r = L.source ∨ r = L.dest ∨ (r = L.heapWindow ∧ onHeapPath cfg L i = true) := by
  cases hpath : onHeapPath cfg L i <;> simp [hazardRanges, h, hpath]

/-- Only a hex command whose output is longer than SCRATCH_CAP is on the heap path (R160, R165, R168). -/
theorem onHeapPath_iff {cfg : Config} {L : Latched} {i : Instr} :
    onHeapPath cfg L i = true ↔
      (i = .hexEnc ∧ cfg.scratchCap < 2 * L.srclen.toNat) ∨
        (i = .hexDec ∧ L.srclen.toNat % 2 = 0 ∧ cfg.scratchCap < L.srclen.toNat / 2) := by
  cases i with
  | hexDec => by_cases heven : L.srclen.toNat % 2 = 0 <;> simp [onHeapPath, hexOutputLength, heven]
  | _ => simp [onHeapPath, hexOutputLength]

/-- The hazards are checked on the ranges the operand registers give. -/
theorem mem_hazardRanges_capture {i : Instr} {r : Range} :
    r ∈ hazardRanges s.cfg (s.capture (encode i)) ↔ OperandRange i s r := by
  rw [mem_hazardRanges (L := s.capture (encode i)) (decode_encode i), onHeapPath_iff]
  rfl

theorem hazardCoherence_of_dirty {L : Latched} {r : Range} (hc : s.cfg.dmaCoherent = false) (ha : a ∈ s.hostDirty)
    (hr : r ∈ hazardRanges s.cfg L) (hra : r.contains a = true) : hazardCoherence s L = true := by
  rw [hazardCoherence, hc, Bool.not_false, Bool.true_and]
  exact List.any_eq_true.2 ⟨r, hr, List.any_eq_true.2 ⟨a, ha, hra⟩⟩

/-- Nothing the host stored is left to make visible. -/
theorem hazardCoherence_maintain (L : Latched) : hazardCoherence (hostMaintain s) L = false := by
  simp [hazardCoherence, hostMaintain]

theorem cmdWrite_hazardCoherence {w : Word} (hidle : s.engine = .idle)
    (hrange : hazardRange s.cfg (s.capture w) = false) (h : hazardCoherence s (s.capture w) = true) :
    cmdWrite w s = .fault .hazardCoherence := by
  simp [cmdWrite, hidle, hrange, h]

/-- The engine's turn leaves the two records of R80. -/
theorem engineTurn_records (h : engineTurn s = .next t) : t.dmaDirty = s.dmaDirty ∧ t.hostDirty = s.hostDirty := by
  obtain rfl | ⟨hreset, hbusy, -⟩ := engineTurn_cases h
  · exact ⟨rfl, rfl⟩
  · obtain ⟨code, n, u, rfl, hR⟩ := engineTurn_busy hreset hbusy h
    have hsame : SameOutside s u := hR (engineRel_sameOutside (fun _ => True) _) fun _ _ _ _ => trivial
    have hhost : HostSideSame s (complete code n u) := hostSideSame_of_sameOutside hsame
    exact ⟨hhost.dmaDirty, hhost.hostDirty⟩

/-- Settles O24, clause by clause: stores, accept and its discharge, what accept and the engine record, maintenance,
loads. -/
theorem coherenceDutyFaultsAtAccept : Obligations.CoherenceDutyFaultsAtAccept := by
  refine ⟨fun s t a v hc _ h => ?_, fun s i r a hidle hc hrange ha hr hra => ⟨?_, ?_⟩,
    fun s t w a hidle hc h => ?_, fun s t h => engineTurn_records h,
    fun s a hc => ⟨rfl, unmaintained_maintain hc⟩, fun s a hc hplain hunseen => ?_⟩
  · obtain ⟨-, -, rfl⟩ := hostStore_next h
    simp [hc]
  · exact cmdWrite_hazardCoherence hidle hrange (hazardCoherence_of_dirty hc ha (mem_hazardRanges_capture.2 hr) hra)
  · exact ⟨_, cmdWrite_accepts (s := hostMaintain s) hidle hrange (hazardCoherence_maintain _)⟩
  · obtain ⟨rfl, -, -⟩ := cmdWrite_idle hidle h
    exact unmaintained_accept hc
  · have hiff : Unmaintained s a ↔ s.dmaDirty.any (fun f => f.races a) = true := List.any_eq_true.symm
    rw [hostLoad_plain hplain hunseen, hc, hiff]
    exact ⟨fun h => by simp [h], fun h => by simp [h]⟩

end Sys2Proof.Proofs

/-! SUPPORT. Command words (spec 30_encoding.md R90 to R96): which words decode, that an illegal one completes with
E_OPCODE, and which operands of L a command body reads. -/

namespace Sys2Proof.Proofs

open Sys2Proof Sys2Proof.Machine Sys2Proof.Laws Sys2Proof.Safety

variable {s : State}

/-! ### The decoder -/

/-- The opcodes of the five rows of R90. -/
def assignedOpcodes : List (BitVec 8) := [0x01#8, 0x02#8, 0x03#8, 0x04#8, 0x05#8]

theorem instrOfOpcode_eq_none_iff (o : BitVec 8) : instrOfOpcode o = none ↔ o ∉ assignedOpcodes := by
  simp [instrOfOpcode, assignedOpcodes, ite_eq_iff]

/-- The assigned opcodes are the numbers 1 to 5. -/
theorem mem_assignedOpcodes_iff (o : BitVec 8) : o ∈ assignedOpcodes ↔ 1 ≤ o.toNat ∧ o.toNat ≤ 5 := by
  simp only [assignedOpcodes, List.mem_cons, List.not_mem_nil, or_false]
  bv_omega

/-- The reserved field is looked at first (R93). -/
theorem decode_of_rsv_ne {w : Word} (hrsv : rsv w ≠ 0) : decode w = .error .reservedBits := if_neg hrsv

theorem decode_of_opc_unassigned {w : Word} (hrsv : rsv w = 0) (hopc : opc w ∉ assignedOpcodes) :
    decode w = .error .reservedOpcode := by
  rw [decode, if_pos hrsv, (instrOfOpcode_eq_none_iff _).2 hopc]

/-- A word decodes exactly when neither field is wrong (R92). -/
theorem exists_decode_ok_iff (w : Word) : (∃ i, decode w = .ok i) ↔ rsv w = 0 ∧ opc w ∈ assignedOpcodes := by
  constructor
  · rintro ⟨i, hi⟩
    have hrsv : rsv w = 0 := by_contra fun hne => nomatch (decode_of_rsv_ne hne).symm.trans hi
    exact ⟨hrsv, by_contra fun hno => nomatch (decode_of_opc_unassigned hrsv hno).symm.trans hi⟩
  · rintro ⟨hrsv, hopc⟩
    cases hi : instrOfOpcode (opc w) with
    | none => exact absurd hopc ((instrOfOpcode_eq_none_iff _).1 hi)
    | some i => exact ⟨i, by rw [decode, if_pos hrsv, hi]⟩

/-- A word with a wrong field is rejected, by whichever name. -/
theorem exists_decode_error {w : Word} (h : rsv w ≠ 0 ∨ opc w ∉ assignedOpcodes) : ∃ e, decode w = .error e := by
  cases hd : decode w with
  | error e => exact ⟨e, rfl⟩
  | ok i =>
    obtain ⟨hrsv, hopc⟩ := (exists_decode_ok_iff w).1 ⟨i, hd⟩
    exact absurd h (by simp [hrsv, hopc])

/-- The check of well-formedness is the same condition on the two fields. -/
theorem legalWord_iff (w : Word) : legalWord w = true ↔ rsv w = 0 ∧ opc w ∈ assignedOpcodes := by
  rw [mem_assignedOpcodes_iff]
  simp [legalWord, reservedClear, opcodeAssigned, rsv, opc]

/-- Settles O1: the two inverse laws of encoder and decoder. -/
theorem decodeIsInverseOfEncode : Obligations.DecodeIsInverseOfEncode := by
  intro w i
  constructor
  · exact decode_eq
  · rintro rfl
    exact decode_encode i

/-- Settles O2: legality and decoding are one condition on the two fields, and each field is rejected by its name. -/
theorem illegalWordsAreRejectedByName : Obligations.IllegalWordsAreRejectedByName := by
  refine fun w => ⟨(legalWord_iff w).trans (exists_decode_ok_iff w).symm, decode_of_rsv_ne, fun hrsv hopc => ?_⟩
  refine decode_of_opc_unassigned hrsv ?_
  rw [mem_assignedOpcodes_iff]
  obtain hzero | hbig := hopc
  · simp [hzero]
  · omega

/-- Settles O3: eight fixed words, evaluated. -/
theorem tableWordsDecode : Obligations.TableWordsDecode := by
  unfold Obligations.TableWordsDecode
  decide

/-! ### An illegal word -/

/-- The engine moves when no input is left or the next input gives it the turn (log 6). -/
theorem step_engine_next {rest : List Input} (h : (s.inputs = [] ∧ rest = []) ∨ s.inputs = .engine :: rest) :
    step s = engineTurn { s with inputs := rest } := by
  obtain ⟨hin, rfl⟩ | hin := h
  · rw [step_nil hin, ← hin]
  · exact step_cons hin

/-- Settles O5: the turn of the engine completes the word with E_OPCODE, from the very state it finds. -/
theorem illegalWordCompletesWithOpcodeError : Obligations.IllegalWordCompletesWithOpcodeError := by
  intro s rest hreset hbusy hturn hillegal
  obtain ⟨e, he⟩ : ∃ e, decode s.fetchWord = .error e := exists_decode_error hillegal
  refine ⟨complete .opcode 0 { s with inputs := rest }, ?_, completedWith_complete (by decide) fun _ => rfl, rfl,
    hashRegs_of_opc rfl rfl nofun, rfl, hostSideSame_of_sameOutside (SameOutside.refl _)⟩
  rw [step_engine_next hturn]
  exact engineTurn_illegal hreset hbusy he

/-! ### The operands a command reads -/

/-- Another operand set with the same word makes no difference beyond L. -/
theorem alike_latch {L : Latched} (hw : L.w = s.latch.w) : Alike s { s with latch := L } :=
  ⟨L, s.acc1, s.acc2, s.ks, s.blkbuf, s.scratch, rfl, congrArg opc hw⟩

theorem agree_latch {L : Latched} (hw : L.w = s.latch.w) : Agree s { s with latch := L } :=
  ⟨alike_latch hw, fun _ => ⟨rfl, rfl⟩⟩

/-- A body that is the same program over another operand set, with the same word and ranges, ends in the same state,
since the rest of L is not read after it. -/
theorem runCommand_latch (body : Latched → Cmd Nat) {L : Latched} (hbody : body L = body s.latch)
    (hw : L.w = s.latch.w) (hsrc : L.source = s.latch.source) (hdst : L.dest = s.latch.dest)
    (hpaired : Paired Agree (body s.latch) (body s.latch) Agree) :
    runCommand body { s with latch := L } = runCommand body s :=
  runCommand_paired (agree_latch hw) (fun _ _ h => h.1) hsrc hdst hbody hpaired

/-- Settles O51: each body is the same program whatever its unread fields of L hold. -/
theorem unreadOperandsDoNotMatter : Obligations.UnreadOperandsDoNotMatter := by
  refine fun s kl h hl k => ⟨congrArg Host.Outcome.next (runCommand_latch hashkeyBody rfl rfl rfl rfl ?_),
    congrArg Host.Outcome.next (runCommand_latch hexEncBody rfl rfl rfl rfl (paired_hexEncBody _)),
    congrArg Host.Outcome.next (runCommand_latch hexDecBody rfl rfl rfl rfl (paired_hexDecBody _)),
    congrArg Host.Outcome.next (runCommand_latch desEncBody rfl rfl rfl rfl (paired_desEncBody _)),
    congrArg Host.Outcome.next (runCommand_latch desDecBody rfl rfl rfl rfl (paired_desDecBody _))⟩
  exact paired_mono (paired_hashkeyBody _) (fun _ _ h => h.1) fun _ _ h => h

end Sys2Proof.Proofs

/-! SUPPORT. The command interface (spec 40_command_interface.md): the meaning a Busy engine's turn runs and its frame,
what a failed command has left in its destination range, and what each register-port access does. -/

namespace Sys2Proof.Proofs

open Sys2Proof Sys2Proof.Machine Sys2Proof.Laws Sys2Proof.Safety

variable {s t : State} {i : Instr}

/-! ### The frame of a command -/

/-- What every command leaves, however it ends: the state it completes has kept the host's side, every byte that it may
not write, and PATHSEL where it is no hex command. -/
theorem exec_frame (h : exec i s = .next t) :
    ∃ code n u, t = complete code n u ∧ SameOutside s u ∧ (∀ a, ¬ MayWrite i s a → u.byteAt a = s.byteAt a) ∧
      (usesHeapWindow i = false → u.pathsel = s.pathsel) := by
  obtain ⟨code, n, u, hu, hR⟩ := exec_completes i s
  refine ⟨code, n, u, Host.Outcome.next.inj (h.symm.trans hu), ?_, ?_, fun hhex => ?_⟩
  · exact hR (engineRel_sameOutside (fun _ => True) _) fun _ _ => trivial
  · exact hR (engineRel_memory _ _) fun _ hw => hw
  · exact hR (engineRel_pathsel (fun _ => True) (by simp [hhex])) fun _ _ => trivial

/-- A byte that a command may write lies in its destination range or its used heap region (R130). -/
theorem mayWrite_dest_or_usedHeap {a : Nat} (h : MayWrite i s a) :
    s.latch.dest.contains a = true ∨
      ∃ n, hexOutputLength s.latch i = some n ∧ (usedHeap s n).contains a = true := by
  obtain ⟨-, -, -, hw⟩ := h
  cases hn : hexOutputLength s.latch i with
  | none =>
    simp only [hn] at hw
    exact .inl hw
  | some n =>
    simp only [hn] at hw
    obtain hdst | ⟨hheap, -, -, hused⟩ := hw
    · exact .inl hdst
    · exact .inr ⟨n, rfl, by rwa [usedHeap_heap hheap]⟩

/-- Settles O49: a byte outside the two ranges is none that the command may write. -/
theorem commandWritesOnlyItsRanges : Obligations.CommandWritesOnlyItsRanges := by
  intro i s t h a hdst hheap
  obtain ⟨code, n, u, rfl, -, hmem, -⟩ := exec_frame h
  refine hmem a fun hw => ?_
  obtain hin | ⟨n, hn, hin⟩ := mayWrite_dest_or_usedHeap hw
  · exact absurd (hdst.symm.trans hin) (by decide)
  · exact absurd ((hheap n hn).symm.trans hin) (by decide)

theorem opc_encode_ne_hashkey (h : i ≠ .hashkey) : opc (encode i) ≠ 0x01 := by
  revert h
  cases i <;> decide

/-- Settles O50: the command ends in one completion, of a state that has kept the host's side. -/
theorem commandFrame : Obligations.CommandFrame := by
  intro i s t h
  obtain ⟨code, n, u, rfl, hsame, -, hpath⟩ := exec_frame h
  refine ⟨hostSideSame_of_sameOutside hsame, rfl, rfl, rfl, rfl, fun hloaded hne => ?_, hpath⟩
  have hword : s.latch.w = encode i := hloaded
  have hlatch : u.latch = s.latch := by rw [hsame]
  have hopc : opc u.latch.w ≠ 0x01 := by
    rw [hlatch, hword]
    exact opc_encode_ne_hashkey hne
  exact hashRegs_of_opc (by rw [hsame]) (by rw [hsame]) fun _ => hopc

/-! ### What a failed command has left -/

/-- If the body fails with any code but E_BUS, then before it wrote a byte of the destination range (R119). -/
def FailsBeforeOutput (body : Latched → Cmd Nat) : Prop :=
  ∀ s : State, RangesOk s.latch →
    wp (body s.latch) (fun _ _ => True) (fun e u => e = .bus ∨ DestSame s u) s

theorem failsBeforeOutput_hashkeyBody : FailsBeforeOutput hashkeyBody := fun s _ =>
  wp_hashkeyBody s (fun _ => .inr (DestSame.refl s)) (fun _ _ _ _ _ _ => .inl rfl)
    (fun _ _ _ _ _ _ _ _ => .inl rfl) fun _ _ _ _ _ => trivial

/-- A failed allocation draws no byte of the destination range. -/
theorem failsBeforeOutput_hexEncBody : FailsBeforeOutput hexEncBody := fun s _ =>
  wp_hexEncBody s (fun _ _ => .inr (DestSame.refl s)) (fun _ _ _ _ => .inr (destSame_allocFailed s _))
    (fun _ _ _ => .inl rfl) fun _ _ _ _ _ _ => trivial

/-- E_INPUT after the allocation comes before the copy-out. -/
theorem failsBeforeOutput_hexDecBody : FailsBeforeOutput hexDecBody := fun s _ =>
  wp_hexDecBody s (fun _ _ _ _ => .inr (DestSame.refl s)) (fun _ _ _ _ => .inr (destSame_allocFailed s _))
    (fun halloc _ _ _ hat => .inr (hat.destSame halloc)) (fun _ _ _ => .inl rfl) fun _ _ _ _ _ _ => trivial

theorem failsBeforeOutput_desEncBody : FailsBeforeOutput desEncBody := fun s ⟨_, _, hdisjoint⟩ =>
  wp_desEncBody s hdisjoint (fun _ _ _ => .inr (DestSame.refl s)) (fun _ _ _ => .inl rfl)
    fun _ _ _ _ _ => trivial

theorem failsBeforeOutput_desDecBody : FailsBeforeOutput desDecBody := fun s ⟨_, _, hdisjoint⟩ =>
  wp_desDecBody s hdisjoint (fun _ _ _ => .inr (DestSame.refl s)) (fun _ => .inl rfl) (fun _ _ _ => .inl rfl)
    fun _ _ _ _ _ => trivial

/-- The common checks come before any body, so they too leave the destination range. -/
theorem runCommand_destSame {body : Latched → Cmd Nat} (hbody : FailsBeforeOutput body)
    (hok : (runCommand body s).errcode ≠ .ok) (hbus : (runCommand body s).errcode ≠ .bus) :
    DestSame s (runCommand body s) := by
  suffices h : (runCommand body s).errcode = .ok ∨ (runCommand body s).errcode = .bus ∨
      DestSame s (runCommand body s) from (h.resolve_left hok).resolve_left hbus
  refine runCommand_cases (P := fun t => t.errcode = .ok ∨ t.errcode = .bus ∨ DestSame s t)
    (fun _ => .inr (.inr (DestSame.refl s))) (fun _ _ => .inr (.inr (DestSame.refl s))) fun hranges => ?_
  exact wp_mono (hbody s hranges) (fun _ _ _ => .inl rfl) fun _ _ hu => .inr hu

/-- Settles O47: no body has written a result byte when it fails, but at a refused access. -/
theorem noPartialResults : Obligations.NoPartialResults := by
  intro i s t h hok hbus
  cases i <;> cases h
  case hashkey => exact runCommand_destSame failsBeforeOutput_hashkeyBody hok hbus
  case hexEnc => exact runCommand_destSame failsBeforeOutput_hexEncBody hok hbus
  case hexDec => exact runCommand_destSame failsBeforeOutput_hexDecBody hok hbus
  case desEnc => exact runCommand_destSame failsBeforeOutput_desEncBody hok hbus
  case desDec => exact runCommand_destSame failsBeforeOutput_desDecBody hok hbus

/-! ### The engine's turn -/

theorem decode_tableWord_of_decodeTableWord {nbits w : Nat} (h : decodeTableWord nbits w = some i) :
    decode (tableWord nbits w) = .ok i := by
  unfold decodeTableWord at h
  cases hd : decode (tableWord nbits w) with
  | ok j =>
    rw [hd] at h
    exact congrArg Except.ok (Option.some.inj h)
  | error e =>
    rw [hd] at h
    cases h

/-- Settles O4: with no input left, or its own turn next, the engine runs what it has latched; `withFetchWord` gives
such a state. -/
theorem stepRunsDecodedCommand : Obligations.StepRunsDecodedCommand := by
  refine fun s i => ⟨fun hreset hbusy hd => ⟨fun hin => ?_, fun rest hin => ?_⟩, fun w hw => ?_⟩
  · rw [step_nil hin]
    exact engineTurn_runs hreset hbusy hd
  · rw [step_engine_next (.inr hin)]
    exact engineTurn_runs hreset hbusy hd
  · rw [step_nil (s := s.withFetchWord 32 w) rfl]
    exact engineTurn_runs rfl rfl (decode_tableWord_of_decodeTableWord hw)

/-- The turn of a Busy engine completes its command, and takes no input from the list (R121, R122). -/
theorem engineTurn_completes_command (hreset : s.resetActive = false) (hbusy : s.engine = .busy) :
    ∃ t, engineTurn s = .next t ∧ t.engine = .idle ∧ t.done = true ∧ t.inputs = s.inputs := by
  obtain ⟨t, ht⟩ := engineTurn_next s
  obtain ⟨code, n, u, rfl, hR⟩ := engineTurn_busy hreset hbusy ht
  have hsame : SameOutside s u := hR (engineRel_sameOutside (fun _ => True) _) fun _ _ _ _ => trivial
  exact ⟨_, ht, rfl, rfl, (hostSideSame_of_sameOutside (e := code) (n := n) hsame).inputs⟩

/-! ### Register reads -/

theorem observeDone_eq (seen : Bool) (s : State) :
    observeDone seen s = { s with unseen := if seen then [] else s.unseen } := by
  cases seen <;> rfl

/-- A 32-bit aligned read changes the answer and, where STATUS shows DONE = 1, the duty of R241. -/
theorem hostRead_eq {o : BitVec 8} (hreset : s.resetActive = false) (ho : o.toNat % 4 = 0) :
    hostRead 4 o s = .next { s with unseen := if o = 0x04 ∧ s.done = true then [] else s.unseen
                                    response := .data (regRead (Reg.ofOffset o) s) } := by
  have hseen : (Reg.ofOffset o == .status && s.done) = true ↔ o = 0x04 ∧ s.done = true := by
    rw [Bool.and_eq_true, beq_iff_eq, (ofOffset_eq o).1]
  rw [hostRead_aligned hreset ho, observeDone_eq]
  simp only [hseen]

/-- The flags as the number R29 makes of them. -/
theorem statusWord_eq_ofNat (s : State) :
    s.statusWord = BitVec.ofNat 32 (8 * (if s.path then 1 else 0) + 4 * (if s.err then 1 else 0) +
      2 * (if s.done then 1 else 0) + (if s.engine == .busy then 1 else 0)) := by
  have hflags : ∀ p e d b : Bool, (flagBit p <<< 3) ||| (flagBit e <<< 2) ||| (flagBit d <<< 1) ||| flagBit b =
      BitVec.ofNat 32 (8 * (if p then 1 else 0) + 4 * (if e then 1 else 0) + 2 * (if d then 1 else 0) +
        (if b then 1 else 0)) := by decide
  exact hflags _ _ _ _

theorem ctrlWord_eq_ofNat (s : State) : s.ctrlWord = BitVec.ofNat 32 (if s.ie then 1 else 0) := by
  unfold State.ctrlWord
  cases s.ie <;> rfl

/-- Every 4-aligned offset from 0x44 on is reserved (R23). -/
theorem ofOffset_reserved : ∀ o : BitVec 8, 0x44 ≤ o.toNat → Reg.ofOffset o = .reserved := by decide

/-- Settles O14: the read of each offset is R124's value of the register that R23 puts there. -/
theorem registerReadValues : Obligations.RegisterReadValues := by
  intro s hreset reads bit
  have hreads : ∀ (o : BitVec 8) (v : Word), o.toNat % 4 = 0 → regRead (Reg.ofOffset o) s = v → reads o v :=
    fun o v ho hv => hv ▸ hostRead_eq hreset ho
  refine ⟨hreads _ _ rfl (ctrlWord_eq_ofNat s), hreads _ _ rfl (statusWord_eq_ofNat s), hreads _ _ rfl rfl,
    hreads _ _ rfl rfl, hreads _ _ rfl rfl, hreads _ _ rfl rfl, hreads _ _ rfl rfl, hreads _ _ rfl rfl,
    hreads _ _ rfl rfl, hreads _ _ rfl rfl, hreads _ _ rfl rfl, hreads _ _ rfl rfl, hreads _ _ rfl rfl,
    hreads _ _ rfl rfl, hreads _ _ rfl rfl, hreads _ _ rfl rfl, hreads _ _ rfl rfl, fun o ho hres => ?_⟩
  exact hreads o 0 ho (by rw [ofOffset_reserved o hres]; rfl)

/-- Settles O6: by induction on the reads, each of which leaves the engine Busy; then it is the engine's turn. -/
theorem pollingHostSeesCompletion : Obligations.PollingHostSeesCompletion := by
  intro s hreset hbusy hpoll
  induction hin : s.inputs generalizing s with
  | nil =>
    obtain ⟨t, ht, hidle, hdone, hinputs⟩ := engineTurn_completes_command hreset hbusy
    have hstep : core.step s = .next t := (step_nil hin).trans ht
    exact ⟨t, run_succ core 0 hstep, hidle, hdone, hinputs.trans hin⟩
  | cons x rest ih =>
    obtain ⟨agent, o, rfl, ho⟩ := hpoll x (by simp [hin])
    have hread := hostRead_eq (s := { s with inputs := rest }) hreset ho
    have hstep : core.step s = .next _ := (step_cons hin).trans hread
    rw [List.length_cons, run_succ core _ hstep]
    exact ih _ hreset hbusy (fun y hy => hpoll y (by simp [hin, show y ∈ rest from hy])) rfl

/-! ### Register writes -/

/-- A 32-bit aligned write of an agent that none shuts out is acknowledged. -/
theorem hostWrite_unshared {agent : Nat} {o : BitVec 8} (v : Word) (hreset : s.resetActive = false)
    (hown : ownedByOther agent s = false) (ho : o.toNat % 4 = 0) :
    hostWrite agent 4 o v s =
      answer .ack (regWrite (Reg.ofOffset o) v (noteWrite agent (Reg.ofOffset o) s)) :=
  hostWrite_aligned hreset ho (by rw [hown, Bool.and_false])

/-- The registers whose writes do nothing (R123). -/
def readOnlyRegs : List Reg := [.errcode, .resLen, .h1, .h2, .caps, .reserved]

theorem ofOffset_readOnly : ∀ o ∈ [0x0C#8, 0x20#8, 0x38#8, 0x3C#8, 0x40#8],
    o.toNat % 4 = 0 ∧ Reg.ofOffset o ∈ readOnlyRegs := by decide

/-- A write of a read-only register changes nothing and opens no sequence. -/
theorem regWrite_noteWrite_readOnly {agent : Nat} {r : Reg} {v : Word} (hr : r ∈ readOnlyRegs) :
    regWrite r v (noteWrite agent r s) = .next s := by
  simp only [readOnlyRegs, List.mem_cons, List.not_mem_nil, or_false] at hr
  obtain rfl | rfl | rfl | rfl | rfl | rfl := hr <;> rfl

/-- A CMD write while Busy opens no sequence (log 14). -/
theorem noteWrite_cmd_busy {agent : Nat} (hbusy : s.engine = .busy) : noteWrite agent .cmd s = s := by
  have hclosed : opensSequence .cmd s = false := by simp [opensSequence, State.busy, hbusy]
  rw [noteWrite, hclosed]
  rfl

theorem noteWrite_cmd_idle {agent : Nat} (hidle : s.engine = .idle) :
    noteWrite agent .cmd s = { s with owner := some agent } := by
  have hopens : opensSequence .cmd s = true := by simp [opensSequence, sequenceReg, State.busy, hidle]
  rw [noteWrite, hopens]
  rfl

/-- R113 at the port. -/
theorem hostWrite_cmd_busy {agent : Nat} {w : Word} (hreset : s.resetActive = false)
    (hown : ownedByOther agent s = false) (hbusy : s.engine = .busy) :
    hostWrite agent 4 0x08 w s = .next { s with response := .ack } := by
  have hignored : regWrite .cmd w (noteWrite agent .cmd s) = .next s := by
    rw [noteWrite_cmd_busy hbusy]
    exact cmdWrite_busy hbusy
  exact (hostWrite_unshared w hreset hown rfl).trans (congrArg (answer .ack) hignored)

/-- R112 at the port: the accept, by the agent whose sequence is then open. -/
theorem hostWrite_cmd_idle {agent : Nat} {w : Word} (hreset : s.resetActive = false)
    (hown : ownedByOther agent s = false) (hidle : s.engine = .idle)
    (hrange : hazardRange s.cfg (s.capture w) = false) (hcoherence : hazardCoherence s (s.capture w) = false) :
    hostWrite agent 4 0x08 w s = .next { acceptCommand w s with owner := some agent, response := .ack } := by
  have haccepted : regWrite .cmd w (noteWrite agent .cmd s) =
      .next { acceptCommand w s with owner := some agent } := by
    rw [noteWrite_cmd_idle hidle]
    exact cmdWrite_accepts (s := { s with owner := some agent }) hidle hrange hcoherence
  exact (hostWrite_unshared w hreset hown rfl).trans (congrArg (answer .ack) haccepted)

/-- Settles O13: one clause per offset of R23; CMD by the engine's state, the others by R123's row. -/
theorem registerWriteEffects : Obligations.RegisterWriteEffects := by
  intro s agent v hreset hown w op
  have hw : ∀ o : BitVec 8, o.toNat % 4 = 0 →
      w o = answer .ack (regWrite (Reg.ofOffset o) v (noteWrite agent (Reg.ofOffset o) s)) :=
    fun o ho => hostWrite_unshared v hreset hown ho
  refine ⟨hw _ rfl, hw _ rfl, hostWrite_cmd_busy hreset hown, hostWrite_cmd_idle hreset hown, hw _ rfl, hw _ rfl,
    hw _ rfl, hw _ rfl, hw _ rfl, hw _ rfl, hw _ rfl, hw _ rfl, hw _ rfl, fun o ho => ?_⟩
  obtain ⟨haligned, hreg⟩ : o.toNat % 4 = 0 ∧ Reg.ofOffset o ∈ readOnlyRegs :=
    ho.elim (ofOffset_readOnly o) fun h => ⟨h.1, by rw [ofOffset_reserved o h.2]; decide⟩
  rw [hw o haligned, regWrite_noteWrite_readOnly hreg]
  rfl

/-- Settles O20: the CMD write meets a Busy engine. -/
theorem busyCommandWriteIsIgnored : Obligations.BusyCommandWriteIsIgnored :=
  fun _ _ hbusy => ⟨cmdWrite_busy hbusy, fun _ hreset hown => hostWrite_cmd_busy hreset hown hbusy⟩

/-! ### Accept -/

/-- The key bytes are `LE32(KEY0) ++ LE32(KEY1)` (R36). -/
theorem keyBytes_get (key0 key1 : Word) {j : Nat} (hj : j < 4) :
    (keyBytes key0 key1).get j = key0.extractLsb' (8 * j) 8 ∧
      (keyBytes key0 key1).get (4 + j) = key1.extractLsb' (8 * j) 8 := by
  interval_cases j <;> exact ⟨rfl, rfl⟩

/-- Settles O19: with no hazard the write accepts, and each field of the accepted state is R112's. -/
theorem acceptLatchesOperands : Obligations.AcceptLatchesOperands := by
  intro s w hidle hrange hcoherence
  refine ⟨acceptCommand w s, cmdWrite_accepts hidle hrange hcoherence, rfl, rfl, rfl, rfl, rfl, rfl, rfl, rfl, rfl,
    fun j hj => keyBytes_get s.key0 s.key1 hj, ?_⟩
  and_intros <;> rfl

end Sys2Proof.Proofs

/-! SUPPORT. HASHKEY (spec 41_fingerprint.md): the accumulator step as arithmetic, and the state that a successful
execution leaves, read from `wp_hashkeyBody` once for both directions: where it completes, and what it left if it
did. -/

namespace Sys2Proof.Proofs

open Sys2Proof Sys2Proof.Machine Sys2Proof.Laws Sys2Proof.Safety

variable {s t u : State}

/-! ### The accumulator step -/

/-- Settles O26: each operation of the step is its arithmetic modulo 2^32. -/
theorem fingerprintStepFormula : Obligations.FingerprintStepFormula := by
  intro h1 h2 c
  have hbyte : (c.setWidth 32).toNat = c.toNat := BitVec.toNat_setWidth_of_le (by decide)
  have hshl : ∀ h : Word, (h <<< 5).toNat = h.toNat * 2 ^ 5 % 2 ^ 32 := fun h => by
    rw [BitVec.toNat_shiftLeft, Nat.shiftLeft_eq]
  have hshr : (h2 >>> 2).toNat = h2.toNat / 2 ^ 2 := by
    rw [BitVec.toNat_ushiftRight, Nat.shiftRight_eq_div_pow]
  constructor
  · rw [fpStep, BitVec.toNat_add, BitVec.toNat_add, hbyte, hshl, Nat.mod_add_mod]
  · rw [fpStep, BitVec.toNat_xor, BitVec.toNat_add, BitVec.toNat_add, hbyte, hshl, hshr, Nat.mod_add_mod]

/-- Settles O27: R151's sum is `h1 + 32 * h1 + c` modulo 2^32. -/
theorem firstAccumulatorTimes33 : Obligations.FirstAccumulatorTimes33 := by
  intro h1 h2 c
  rw [(fingerprintStepFormula h1 h2 c).1]
  omega

/-! ### The fingerprint as a key -/

/-- Settles O30: KEY0 is the first four bytes and KEY1 the last four, both little-endian as the fingerprint is. -/
theorem fingerprintIsAKey : Obligations.FingerprintIsAKey := by
  intro text j hj
  have hlen : j < (fingerprintBytes text).length := hj
  rw [List.getD_eq_getElem _ _ hlen, fingerprintBytes_getElem]
  split
  next h4 => exact (keyBytes_get _ _ h4).1
  next h4 =>
    have hhigh := (keyBytes_get (fingerprint text).1 (fingerprint text).2 (j := j - 4) (by omega)).2
    rwa [Nat.add_sub_cancel' (by omega)] at hhigh

/-! ### What a successful HASHKEY leaves -/

/-- The text is in the accumulators and the eight bytes are written: HASHKEY's state as it completes (R150, R152). -/
def HashWritten (s u : State) : Prop := Wrote s.latch.dst.toNat (hashByte s) 0 8 (hashed s) u

/-- R150: HASHKEY completes on a state whose conditions all hold. -/
theorem exec_hashkey_completes (hranges : RangesOk s.latch) (hcap : 8 ≤ s.latch.dstcap.toNat)
    (hread : Allows s s.latch.source .read) (hwrite : Allows s ⟨s.latch.dst.toNat, 8⟩ .write) :
    ∃ u, HashWritten s u ∧ exec .hashkey s = .next (complete .ok 8 u) := by
  suffices h : ∃ u, HashWritten s u ∧ runCommand hashkeyBody s = complete .ok 8 u from
    h.imp fun _ hu => ⟨hu.1, congrArg _ hu.2⟩
  refine runCommand_runs (P := fun t => ∃ u, HashWritten s u ∧ t = complete .ok 8 u) hranges ?_
  refine wp_hashkeyBody s (fun hsmall => absurd hsmall (by omega)) (fun _ a _ ha hrefused _ => ?_)
    (fun _ _ k _ hk _ hrefused _ => ?_) fun _ _ _ u hu => ⟨u, hu, rfl⟩
  · exact absurd ((hread a ha).symm.trans hrefused) (by decide)
  · have hallowed := hwrite (s.latch.dst.toNat + k) (by rw [contains_iff]; dsimp only; omega)
    exact absurd (hallowed.symm.trans hrefused) (by decide)

/-- A HASHKEY that succeeded has absorbed the text and written the eight bytes. -/
theorem hashWritten_of_exec_ok (h : exec .hashkey s = .next t) (hok : t.errcode = .ok) :
    ∃ u, HashWritten s u ∧ t = complete .ok 8 u := by
  cases h
  refine runCommand_cases (P := fun t => t.errcode = .ok → ∃ u, HashWritten s u ∧ t = complete .ok 8 u)
    (fun _ => nofun) (fun _ _ => nofun) (fun _ => ?_) hok
  exact wp_hashkeyBody s (fun _ => nofun) (fun _ _ _ _ _ _ => nofun) (fun _ _ _ _ _ _ _ _ => nofun)
    fun _ _ _ u hu _ => ⟨u, hu, rfl⟩

theorem HashWritten.sameOutside (h : HashWritten s u) : SameOutside s u := by
  obtain ⟨m, rfl, -⟩ := h
  rfl

theorem HashWritten.pathsel (h : HashWritten s u) : u.pathsel = s.pathsel := by
  obtain ⟨m, rfl, -⟩ := h
  rfl

/-- R150: H1 and H2 take the final accumulators. -/
theorem HashWritten.hashRegs (h : HashWritten s u) (hloaded : Loaded .hashkey s) :
    (complete .ok 8 u).h1 = (fingerprint (sourceBytes s)).1 ∧
      (complete .ok 8 u).h2 = (fingerprint (sourceBytes s)).2 := by
  obtain ⟨m, rfl, -⟩ := h
  have hopc : opc s.latch.w = 0x01 := by
    rw [show s.latch.w = encode .hashkey from hloaded]
    decide
  exact ⟨if_pos ⟨rfl, hopc⟩, if_pos ⟨rfl, hopc⟩⟩

/-- R152: the destination holds `LE32(h1) ++ LE32(h2)`. -/
theorem HashWritten.holds (h : HashWritten s u) :
    Holds (complete .ok 8 u) s.latch.dst.toNat (fingerprintBytes (sourceBytes s)) := by
  rw [holds_iff]
  intro j hj
  rw [byteAt_complete, h.byteAt_in (Nat.zero_le j) hj, fingerprintBytes_getElem]
  rfl

theorem HashWritten.memorySameOutside (h : HashWritten s u) :
    MemorySameOutside ⟨s.latch.dst.toNat, 8⟩ s (complete .ok 8 u) := by
  intro a ha
  rw [contains_false_iff] at ha
  exact h.byteAt_out (by dsimp only at ha; omega)

/-! ### The statements -/

/-- Settles O28: the command completes, and each clause is a law of the state it has written. -/
theorem hashkeyWritesFingerprint : Obligations.HashkeyWritesFingerprint := by
  intro s hloaded hranges hcap hread hwrite
  obtain ⟨u, hu, hexec⟩ := exec_hashkey_completes hranges hcap hread hwrite
  obtain ⟨hh1, hh2⟩ := hu.hashRegs hloaded
  exact ⟨_, hexec, completedWith_complete (fun _ => by decide) nofun, hu.pathsel, hh1, hh2, hu.holds,
    hu.memorySameOutside, hostSideSame_of_sameOutside hu.sameOutside⟩

/-- Settles O29: each run leaves the fingerprint of its source bytes, and these are the same. -/
theorem fingerprintDependsOnTextOnly : Obligations.FingerprintDependsOnTextOnly := by
  intro s s' t t' hloaded hloaded' htext hexec hexec' hok hok'
  obtain ⟨u, hu, rfl⟩ := hashWritten_of_exec_ok hexec hok
  obtain ⟨u', hu', rfl⟩ := hashWritten_of_exec_ok hexec' hok'
  obtain ⟨hh1, hh2⟩ := hu.hashRegs hloaded
  obtain ⟨hh1', hh2'⟩ := hu'.hashRegs hloaded'
  have hbytes : bytesFrom (complete .ok 8 u) s.latch.dst.toNat 8 = fingerprintBytes (sourceBytes s) := hu.holds
  have hbytes' : bytesFrom (complete .ok 8 u') s'.latch.dst.toNat 8 = fingerprintBytes (sourceBytes s') := hu'.holds
  rw [hh1, hh2, hbytes, hh1', hh2', hbytes', htext]
  exact ⟨rfl, rfl, rfl⟩

end Sys2Proof.Proofs

/-! SUPPORT. The hex codec (spec 42_hex_codec.md): its digits and texts, and how a hex command ends, read from
`wp_hexEncBody` and `wp_hexDecBody` once for both commands and for every outcome; the statements are laws of the states
in which it ends. -/

namespace Sys2Proof.Proofs

open Sys2Proof Sys2Proof.Machine Sys2Proof.Laws Sys2Proof.Safety

variable {s t u : State} {i : Instr} {n : Nat}

/-! ### Digits and texts -/

theorem hexDigit_toNat (d : BitVec 4) : (hexDigit d).toNat = [0x30, 0x31, 0x32, 0x33, 0x34, 0x35, 0x36, 0x37, 0x38,
    0x39, 0x61, 0x62, 0x63, 0x64, 0x65, 0x66].getD d.toNat 0 := by
  revert d
  decide

theorem nibble_toNat_decimal {x : Byte} (hlow : 0x30 ≤ x.toNat) (hhigh : x.toNat ≤ 0x39) :
    (nibble x).toNat = x.toNat - 0x30 := by
  rw [nibble, if_pos hhigh, BitVec.toNat_ofNat, Nat.mod_eq_of_lt (by omega)]

theorem nibble_toNat_letter {x : Byte} (hlow : 0x61 ≤ x.toNat) (hhigh : x.toNat ≤ 0x66) :
    (nibble x).toNat = x.toNat - 0x61 + 10 := by
  rw [nibble, if_neg (by omega), BitVec.toNat_ofNat, Nat.mod_eq_of_lt (by omega)]

/-- R164: no uppercase letter is a digit. -/
theorem not_uppercase_of_isHex {x : Byte} (h : isHex x = true) : ¬ (0x41 ≤ x.toNat ∧ x.toNat ≤ 0x5A) := by
  rw [isHex_iff] at h
  omega

/-- Settles O32: each clause is a law of the digits. -/
theorem hexDigitsSpellTheByte : Obligations.HexDigitsSpellTheByte := by
  refine ⟨hexDigit_toNat, fun x => ⟨nibble_toNat_decimal, nibble_toNat_letter⟩, fun c =>
    ⟨isHex_hexDigit _, isHex_hexDigit _, pairByte_hexDigit c, isHex_iff c, fun hlow hhigh => ?_⟩⟩
  by_contra hhex
  exact not_uppercase_of_isHex (by simpa using hhex) ⟨hlow, by omega⟩

/-- R166: a hex text has only digits. -/
theorem allHex_hexText (bytes : List Byte) : AllHex (hexText bytes) := by
  intro x hx
  obtain ⟨c, -, hx⟩ := List.mem_flatMap.1 hx
  simp only [List.mem_cons, List.not_mem_nil, or_false] at hx
  obtain rfl | rfl := hx
  · exact isHex_hexDigit _
  · exact isHex_hexDigit _

/-- R169: the hex text of bytes spells them. -/
theorem spelled_hexText (bytes : List Byte) : spelled (hexText bytes) = bytes := by
  induction bytes with
  | nil => rfl
  | cons c bytes ih =>
    calc spelled (hexText (c :: bytes))
        = pairByte (hexDigit (highNibble c)) (hexDigit (lowNibble c)) :: spelled (hexText bytes) := rfl
      _ = c :: bytes := by rw [pairByte_hexDigit, ih]

/-! ### The output -/

/-- A command with an output length is HEX_ENC, or HEX_DEC of an even source length (R165, R168). -/
theorem hexOutputLength_eq_some {L : Latched} (hn : hexOutputLength L i = some n) :
    (i = .hexEnc ∧ n = 2 * L.srclen.toNat) ∨
      (i = .hexDec ∧ L.srclen.toNat % 2 = 0 ∧ n = L.srclen.toNat / 2) := by
  cases i with
  | hexEnc => exact .inl ⟨rfl, (Option.some.inj hn).symm⟩
  | hexDec =>
    simp only [hexOutputLength, Option.ite_none_right_eq_some, Option.some.injEq] at hn
    exact .inr ⟨rfl, hn.1, hn.2.symm⟩
  | hashkey => cases hn
  | desEnc => cases hn
  | desDec => cases hn

/-- Byte `k` that a hex command writes (R165, R168). -/
def hexByte : Instr → State → Nat → Byte
  | .hexEnc => encodedByte
  | .hexDec => decodedByte
  | .hashkey | .desEnc | .desDec => fun _ _ => 0

theorem hexOutput_length (hn : hexOutputLength s.latch i = some n) : (hexOutput i s).length = n := by
  obtain ⟨rfl, rfl⟩ | ⟨rfl, -, rfl⟩ := hexOutputLength_eq_some hn
  · rw [hexOutput, hexText_length, sourceBytes_length]
  · rw [hexOutput, spelled_length, sourceBytes_length]

theorem hexText_sourceBytes_getElem {k : Nat} (hk : k < (hexText (sourceBytes s)).length) :
    (hexText (sourceBytes s))[k] = encodedByte s k := by
  have hsource : k / 2 < (sourceBytes s).length := by rw [hexText_length] at hk; omega
  rw [← Option.some_inj, ← List.getElem?_eq_getElem, hexText_getElem?, List.getElem?_eq_getElem hsource,
    sourceBytes_getElem s hsource]
  rfl

theorem spelled_sourceBytes_getElem {k : Nat} (hk : k < (spelled (sourceBytes s)).length) :
    (spelled (sourceBytes s))[k] = decodedByte s k := by
  have hlen : k < (sourceBytes s).length / 2 := by rwa [spelled_length] at hk
  rw [spelled_getElem _ hk, List.getD_eq_getElem _ _ (by omega), List.getD_eq_getElem _ _ (by omega),
    sourceBytes_getElem, sourceBytes_getElem]
  rfl

theorem hexOutput_getElem (hn : hexOutputLength s.latch i = some n) {k : Nat} (hk : k < (hexOutput i s).length) :
    (hexOutput i s)[k] = hexByte i s k := by
  obtain ⟨rfl, -⟩ | ⟨rfl, -⟩ := hexOutputLength_eq_some hn
  · exact hexText_sourceBytes_getElem hk
  · exact spelled_sourceBytes_getElem hk

/-! ### How a hex command ends -/

/-- Where the output has room, a failed allocation check is the first that fails (R205). -/
theorem firstError_bodyChecks_of_not_allocOk (hn : hexOutputLength s.latch i = some n)
    (hcap : n ≤ s.latch.dstcap.toNat) (hfailed : ¬ AllocOk s n) :
    firstError (bodyChecks i s) = firstError (allocChecks s n) := by
  obtain ⟨rfl, rfl⟩ | ⟨rfl, heven, rfl⟩ := hexOutputLength_eq_some hn
  · rw [firstError_hexEnc, if_neg (Nat.not_lt.2 hcap)]
  · rw [firstError_hexDec, if_neg (by omega), if_neg (Nat.not_lt.2 hcap), if_neg (mt allocChecks_ok.1 hfailed)]

/-- R167: HEX_DEC stops only at a source byte that is no digit. -/
theorem not_allHex_of_inputStop (h : InputStop s) : ¬ AllHex (sourceBytes s) := by
  intro hdigits
  have digit : ∀ k, k < s.latch.srclen.toNat → isHex (s.byteAt (s.latch.srcAt k)) = true := fun k hk =>
    hdigits _ (List.mem_map.2 ⟨k, List.mem_range.2 hk, rfl⟩)
  obtain ⟨k, hk, hpair, -⟩ := h
  rw [pairOk, digit _ (by omega), digit _ (by omega)] at hpair
  cases hpair

/-- The states in which a hex command with output length `n` ends, once its operands have passed the checks before the
allocation. -/
inductive HexEnd (i : Instr) (s : State) (n : Nat) : State → Prop where
  | alloc (hfailed : ¬ AllocOk s n) :
      HexEnd i s n (complete (firstError (allocChecks s n)) 0 (allocFailed s n))
  | input {v : State} (halloc : AllocOk s n) (hdec : i = .hexDec) (hdigits : ¬ AllHex (sourceBytes s))
      (hv : HexAt s n (hexByte i s) 0 v) : HexEnd i s n (complete .input 0 v)
  | bus {v : State} (halloc : AllocOk s n) (hv : HexBus s n (hexByte i s) v) : HexEnd i s n (complete .bus 0 v)
  | done {v : State} (halloc : AllocOk s n) (hv : HexAt s n (hexByte i s) n v) : HexEnd i s n (complete .ok n v)

/-- R160 to R168: how a hex command ends that has passed the checks before the allocation. -/
theorem exec_hexEnd (hn : hexOutputLength s.latch i = some n) (hranges : RangesOk s.latch)
    (hcap : n ≤ s.latch.dstcap.toNat) : ∃ t, exec i s = .next t ∧ HexEnd i s n t := by
  have halloc : ∀ e, e = firstError (bodyChecks i s) → ¬ AllocOk s n →
      HexEnd i s n (complete e 0 (allocFailed s n)) := fun e he hfailed => by
    rw [he, firstError_bodyChecks_of_not_allocOk hn hcap hfailed]
    exact .alloc hfailed
  obtain ⟨rfl, rfl⟩ | ⟨rfl, heven, rfl⟩ := hexOutputLength_eq_some hn
  · refine ⟨_, rfl, runCommand_runs hranges ?_⟩
    exact wp_hexEncBody s (fun hsmall => absurd hsmall (by omega)) (fun e _ => halloc e)
      (fun ho _ hu => .bus ho hu) fun _ ho _ _ _ hu => .done ho hu
  · refine ⟨_, rfl, runCommand_runs hranges ?_⟩
    exact wp_hexDecBody s (fun e _ _ hsmall => absurd hsmall (by omega)) (fun e _ => halloc e)
      (fun ho _ hstop _ hu => .input ho rfl (not_allHex_of_inputStop hstop) hu)
      (fun ho _ hu => .bus ho hu) fun _ ho _ _ _ hu => .done ho hu

/-- A hex command that succeeded has passed its checks. -/
theorem checks_of_exec_hex_ok (hhex : usesHeapWindow i = true) (h : exec i s = .next t) (hok : t.errcode = .ok) :
    RangesOk s.latch ∧ firstError (bodyChecks i s) = .ok := by
  obtain rfl | rfl := (usesHeapWindow_iff i).1 hhex
  · cases h
    refine runCommand_cases
      (P := fun t => t.errcode = .ok → RangesOk s.latch ∧ firstError (bodyChecks .hexEnc s) = .ok)
      (fun _ => nofun) (fun _ _ => nofun) (fun hranges => ?_) hok
    exact wp_hexEncBody s (fun _ _ => nofun) (fun _ he _ _ h => absurd h he) (fun _ _ _ => nofun)
      fun hchecks _ _ _ _ _ _ => ⟨hranges, hchecks⟩
  · cases h
    refine runCommand_cases
      (P := fun t => t.errcode = .ok → RangesOk s.latch ∧ firstError (bodyChecks .hexDec s) = .ok)
      (fun _ => nofun) (fun _ _ => nofun) (fun hranges => ?_) hok
    exact wp_hexDecBody s (fun _ he _ _ h => absurd h he) (fun _ he _ _ h => absurd h he) (fun _ _ _ _ _ => nofun)
      (fun _ _ _ => nofun) fun hchecks _ _ _ _ _ _ => ⟨hranges, hchecks⟩

/-- The checks before the allocation are those of the source length and of the destination's room. -/
theorem hexOutputLength_of_bodyChecks_ok (hhex : usesHeapWindow i = true) (h : firstError (bodyChecks i s) = .ok) :
    ∃ n, hexOutputLength s.latch i = some n ∧ n ≤ s.latch.dstcap.toNat := by
  obtain rfl | rfl := (usesHeapWindow_iff i).1 hhex
  · rw [firstError_hexEnc] at h
    split at h
    next => cases h
    next hcap => exact ⟨_, rfl, Nat.not_lt.1 hcap⟩
  · rw [firstError_hexDec] at h
    split at h
    next => cases h
    next heven =>
      split at h
      next => cases h
      next hcap => exact ⟨_, if_pos (Decidable.not_not.1 heven), Nat.not_lt.1 hcap⟩

/-- A hex command that succeeded got its buffer and has written its output. -/
theorem hexAt_of_exec_ok (hhex : usesHeapWindow i = true) (h : exec i s = .next t) (hok : t.errcode = .ok) :
    ∃ n u, hexOutputLength s.latch i = some n ∧ n ≤ s.latch.dstcap.toNat ∧ AllocOk s n ∧
      HexAt s n (hexByte i s) n u ∧ t = complete .ok n u := by
  obtain ⟨hranges, hchecks⟩ := checks_of_exec_hex_ok hhex h hok
  obtain ⟨n, hn, hcap⟩ := hexOutputLength_of_bodyChecks_ok hhex hchecks
  obtain ⟨t', ht', hend⟩ := exec_hexEnd hn hranges hcap
  obtain rfl : t = t' := Host.Outcome.next.inj (h.symm.trans ht')
  cases hend with
  | alloc hfailed => exact absurd (allocChecks_ok.1 hok) hfailed
  | input => cases hok
  | bus => cases hok
  | done halloc hu => exact ⟨n, _, hn, hcap, halloc, hu, rfl⟩

/-- A platform that allows every access gives no E_BUS. -/
theorem not_hexBus {f : Nat → Byte} (hbuffer : BufferOk s n) (hread : Allows s s.latch.source .read)
    (hwrite : Allows s ⟨s.latch.dst.toNat, n⟩ .write) : ¬ HexBus s n f u := by
  have hdest : ∀ k, k < n → s.refuses (s.latch.dstAt k) .write = false := fun k hk =>
    hwrite _ (by rw [contains_iff]; dsimp only [Latched.dstAt]; omega)
  obtain ⟨-, hheap⟩ := hbuffer
  rintro (⟨⟨k, hk, hrefused⟩ | ⟨hpath, k, hk, hrefused⟩, -⟩ | ⟨-, k, hk, -, ⟨hpath, hrefused⟩ | hrefused, -⟩)
  · exact absurd ((hread _ (srcAt_contains hk)).symm.trans hrefused) (by decide)
  · exact absurd (((hheap hpath).1 _ (heapAt_contains hk)).symm.trans hrefused) (by decide)
  · exact absurd (((hheap hpath).2 _ (heapAt_contains hk)).symm.trans hrefused) (by decide)
  · exact absurd ((hdest k hk).symm.trans hrefused) (by decide)

/-- A hex command whose conditions all hold completes with its output written. -/
theorem exec_hex_completes (hn : hexOutputLength s.latch i = some n) (hranges : RangesOk s.latch)
    (hcap : n ≤ s.latch.dstcap.toNat) (hdigits : i = .hexDec → AllHex (sourceBytes s)) (hbuffer : BufferOk s n)
    (hread : Allows s s.latch.source .read) (hwrite : Allows s ⟨s.latch.dst.toNat, n⟩ .write) :
    ∃ u, HexAt s n (hexByte i s) n u ∧ exec i s = .next (complete .ok n u) := by
  obtain ⟨t, ht, hend⟩ := exec_hexEnd hn hranges hcap
  cases hend with
  | alloc hfailed => exact absurd hbuffer.1 hfailed
  | input _ hdec hbad _ => exact absurd (hdigits hdec) hbad
  | bus _ hu => exact absurd hu (not_hexBus hbuffer hread hwrite)
  | done _ hu => exact ⟨_, hu, ht⟩

/-! ### What a successful hex command leaves -/

theorem sameOutside_of_hexAt {f : Nat → Byte} {j : Nat} (h : HexAt s n f j u) : SameOutside s u := by
  obtain ⟨sc, m, d, rfl, -⟩ := h
  rfl

theorem pathsel_of_hexAt {f : Nat → Byte} {j : Nat} (h : HexAt s n f j u) :
    u.pathsel = decide (s.cfg.scratchCap < n) := by
  obtain ⟨sc, m, d, rfl, -⟩ := h
  rfl

/-- No hex command moves H1 or H2 (R38). -/
theorem hashRegsSame_complete_hex {code : ErrCode} (hhex : usesHeapWindow i = true) (h : SameOutside s u)
    (hloaded : Loaded i s) : HashRegsSame s (complete code n u) := by
  have hword : u.latch.w = encode i := by rw [h]; exact hloaded
  refine hashRegs_of_opc (by rw [h]) (by rw [h]) fun _ => ?_
  rw [hword]
  exact opc_encode_ne_hashkey (by rintro rfl; cases hhex)

theorem usesHeapWindow_of_hexOutputLength (hn : hexOutputLength s.latch i = some n) : usesHeapWindow i = true := by
  obtain ⟨rfl, -⟩ | ⟨rfl, -⟩ := hexOutputLength_eq_some hn
  · rfl
  · rfl

theorem holds_hexOutput_of_hexAt (hn : hexOutputLength s.latch i = some n) (h : HexAt s n (hexByte i s) n u) :
    Holds u s.latch.dst.toNat (hexOutput i s) := by
  obtain ⟨-, -, -, -, hbytes, -⟩ := h
  rw [holds_iff]
  intro k hk
  rw [hexOutput_getElem hn, hbytes k (by rwa [hexOutput_length hn] at hk)]

theorem memorySameOutside_of_hexAt {f : Nat → Byte} {j : Nat} (h : HexAt s n f j u) :
    MemorySameOutsideTwo ⟨s.latch.dst.toNat, j⟩ (usedHeap s n) s u := by
  obtain ⟨-, -, -, -, -, hsame, -⟩ := h
  exact fun a hdest hheap => hsame a ((contains_false_iff _ _).1 hdest) hheap

theorem heapFree_of_hexAt {f : Nat → Byte} {j : Nat} (h : HexAt s n f j u) : HeapFree s n u := by
  obtain ⟨-, -, -, -, -, -, hfree⟩ := h
  exact hfree

theorem completedWith_complete_hex (hcap : n ≤ s.latch.dstcap.toNat) : CompletedWith .ok n (complete .ok n u) :=
  completedWith_complete (fun _ => hcap.trans_lt (latch_lt _)) nofun

/-- R165, R168: a hex command whose conditions all hold writes its output, and the frame of that. -/
theorem exec_hex_writes_output (hloaded : Loaded i s) (hn : hexOutputLength s.latch i = some n)
    (hranges : RangesOk s.latch) (hcap : n ≤ s.latch.dstcap.toNat)
    (hdigits : i = .hexDec → AllHex (sourceBytes s)) (hbuffer : BufferOk s n)
    (hread : Allows s s.latch.source .read) (hwrite : Allows s ⟨s.latch.dst.toNat, n⟩ .write) :
    ∃ t, exec i s = .next t ∧ CompletedWith .ok n t ∧ t.path = decide (s.cfg.scratchCap < n) ∧ HashRegsSame s t ∧
      Holds t s.latch.dst.toNat (hexOutput i s) ∧
      MemorySameOutsideTwo ⟨s.latch.dst.toNat, n⟩ (usedHeap s n) s t ∧ HeapFree s n t ∧ HostSideSame s t := by
  obtain ⟨u, hu, hexec⟩ := exec_hex_completes hn hranges hcap hdigits hbuffer hread hwrite
  have hsame := sameOutside_of_hexAt hu
  have hholds := holds_hexOutput_of_hexAt hn hu
  have hmemory := memorySameOutside_of_hexAt hu
  have hfree := heapFree_of_hexAt hu
  exact ⟨_, hexec, completedWith_complete_hex hcap, pathsel_of_hexAt hu,
    hashRegsSame_complete_hex (usesHeapWindow_of_hexOutputLength hn) hsame hloaded, hholds, hmemory, hfree,
    hostSideSame_of_sameOutside hsame⟩

/-- Settles O33: HEX_ENC is a hex command with no condition on its source bytes. -/
theorem hexEncWritesText : Obligations.HexEncWritesText := by
  intro s n hloaded hranges hcap hbuffer hread hwrite
  exact exec_hex_writes_output hloaded rfl hranges hcap nofun hbuffer hread hwrite

/-- Settles O35: HEX_DEC is a hex command for an even source length. -/
theorem hexDecWritesBytes : Obligations.HexDecWritesBytes := by
  intro s n hloaded hranges heven hdigits hcap hbuffer hread hwrite
  exact exec_hex_writes_output hloaded (if_pos heven) hranges hcap (fun _ => hdigits) hbuffer hread hwrite

/-- R165, R166: HEX_ENC that succeeded leaves twice the source length and the text. -/
theorem hexText_of_exec_ok (h : exec .hexEnc s = .next t) (hok : t.errcode = .ok) :
    t.resLen.toNat = 2 * s.latch.srclen.toNat ∧
      bytesFrom t s.latch.dst.toNat (2 * s.latch.srclen.toNat) = hexText (sourceBytes s) := by
  obtain ⟨n, u, hn, hcap, -, hu, rfl⟩ := hexAt_of_exec_ok rfl h hok
  obtain rfl : 2 * s.latch.srclen.toNat = n := Option.some.inj hn
  have hholds : Holds u s.latch.dst.toNat (hexText (sourceBytes s)) := holds_hexOutput_of_hexAt hn hu
  rw [Holds, hexText_length, sourceBytes_length] at hholds
  exact ⟨(completedWith_complete_hex hcap).resLen, hholds⟩

/-- Settles O34: the output is a hex text, so its bytes are digits, and no digit is uppercase. -/
theorem hexEncOutputLaws : Obligations.HexEncOutputLaws := by
  intro s t _ h hok
  obtain ⟨hlen, htext⟩ := hexText_of_exec_ok h hok
  refine ⟨hlen, fun x hx => ?_⟩
  rw [hlen, htext] at hx
  have hdigit := allHex_hexText _ x hx
  exact ⟨hdigit, not_uppercase_of_isHex hdigit⟩

/-- Settles O38: the source of HEX_DEC is a hex text, which has only digits and spells the bytes. -/
theorem hexRoundTrip : Obligations.HexRoundTrip := by
  intro s t u n _ hexec hok hloaded hsrc hsrclen hbytes hranges hcap hbuffer hread hwrite
  obtain ⟨hlen, htext⟩ := hexText_of_exec_ok hexec hok
  have hulen : u.latch.srclen.toNat = 2 * n := by rw [hsrclen, hlen]
  have hsource : sourceBytes u = hexText (sourceBytes s) := by
    rw [← htext, sourceBytes, bytesFrom, hulen]
    refine List.map_congr_left fun k hk => ?_
    rw [hbytes _ (srcAt_contains (by rw [hulen]; exact List.mem_range.1 hk)), Latched.srcAt, hsrc]
  have hn : hexOutputLength u.latch .hexDec = some n := by simp [hexOutputLength, hulen]
  obtain ⟨v, hv, hcompleted, -, -, hholds, -⟩ := exec_hex_writes_output hloaded hn hranges hcap
    (fun _ => by rw [hsource]; exact allHex_hexText _) hbuffer hread hwrite
  rw [hexOutput, hsource, spelled_hexText] at hholds
  exact ⟨v, hv, hcompleted, hholds⟩

/-! ### The two paths -/

/-- A byte of the destination range after a hex command that got its buffer: an output byte, or as it was. -/
theorem byteAt_dest_of_hexAt {f : Nat → Byte} {a : Nat} (halloc : AllocOk s n) (h : HexAt s n f n u)
    (ha : s.latch.dest.contains a = true) :
    u.byteAt a = if a < s.latch.dst.toNat + n then f (a - s.latch.dst.toNat) else s.byteAt a := by
  obtain ⟨-, -, -, -, hbytes, hsame, -⟩ := h
  have hbase : s.latch.dst.toNat ≤ a := ((contains_iff _ _).1 ha).1
  split
  next hin => rw [← hbytes _ (by omega), Nat.add_sub_cancel' hbase]
  next hout =>
    refine hsame a (by omega) ?_
    by_contra hheap
    exact absurd (ha.symm.trans (usedHeap_disjoint halloc (by simpa using hheap)).2.1) (by decide)

/-- The output bytes are those of the source, whatever the parameters are (R163). -/
theorem hexByte_cfg (i : Instr) (s : State) (c : Config) : hexByte i { s with cfg := c } = hexByte i s := by
  cases i <;> rfl

/-- Settles O37: the size of the scratch region is in neither the output length nor the output. -/
theorem pathChangesNoResult : Obligations.PathChangesNoResult := by
  intro s cap i t t' hhex hloaded hexec hexec' hok hok'
  obtain ⟨n, u, hn, -, halloc, hu, rfl⟩ := hexAt_of_exec_ok hhex hexec hok
  obtain ⟨n', u', hn', -, halloc', hu', rfl⟩ := hexAt_of_exec_ok hhex hexec' hok'
  obtain rfl : n = n' := Option.some.inj (hn.symm.trans hn')
  obtain ⟨h1, h2⟩ := hashRegsSame_complete_hex (code := .ok) (n := n) hhex (sameOutside_of_hexAt hu) hloaded
  obtain ⟨h1', h2'⟩ := hashRegsSame_complete_hex (code := .ok) (n := n) hhex (sameOutside_of_hexAt hu') hloaded
  refine ⟨rfl, h1.trans h1'.symm, h2.trans h2'.symm, fun a ha => ?_⟩
  rw [byteAt_complete, byteAt_complete, byteAt_dest_of_hexAt halloc hu ha, byteAt_dest_of_hexAt halloc' hu' ha,
    hexByte_cfg i s { s.cfg with scratchCap := cap }]
  rfl

/-! ### A failed allocation -/

theorem sameOutside_allocFailed (s : State) (n : Nat) : SameOutside s (allocFailed s n) := by
  obtain ⟨m, d, h⟩ := releaseBuffer_frame s.latch (decide (s.cfg.scratchCap < n)) n
    { s with pathsel := decide (s.cfg.scratchCap < n) }
  rw [allocFailed, h]
  rfl

theorem pathsel_allocFailed (s : State) (n : Nat) :
    (allocFailed s n).pathsel = decide (s.cfg.scratchCap < n) := by
  obtain ⟨m, d, h⟩ := releaseBuffer_frame s.latch (decide (s.cfg.scratchCap < n)) n
    { s with pathsel := decide (s.cfg.scratchCap < n) }
  rw [allocFailed, h]

/-- R71, R119, R120: only the used heap region is drawn, and no byte of the source or the destination range. -/
theorem byteAt_allocFailed {a : Nat} (hheap : s.cfg.scratchCap < n)
    (ha : s.latch.source.contains a = true ∨ s.latch.dest.contains a = true ∨ (usedHeap s n).contains a = false) :
    (allocFailed s n).byteAt a = s.byteAt a := by
  rw [usedHeap_heap hheap] at ha
  refine byteAt_releaseBuffer _ ?_
  obtain hsource | hdest | hout := ha
  · exact .inr (.inr (.inl hsource))
  · exact .inr (.inr (.inr hdest))
  · exact .inr (.inl hout)

theorem exec_hex_alloc_fails (hn : hexOutputLength s.latch i = some n) (hranges : RangesOk s.latch)
    (hcap : n ≤ s.latch.dstcap.toNat) (hfailed : ¬ AllocOk s n) :
    exec i s = .next (complete (firstError (allocChecks s n)) 0 (allocFailed s n)) := by
  obtain ⟨t, ht, hend⟩ := exec_hexEnd hn hranges hcap
  cases hend with
  | alloc => exact ht
  | input halloc => exact absurd halloc hfailed
  | bus halloc => exact absurd halloc hfailed
  | done halloc => exact absurd halloc hfailed

/-- Settles O36: each condition makes its check the first that fails, and the rest is the state that a failed allocation
leaves. -/
theorem shortHeapWindowFailsWithAlloc : Obligations.ShortHeapWindowFailsWithAlloc := by
  intro s i n hn hranges hcap hheap failsWith
  have hfails : ∀ e, e ≠ .ok → firstError (allocChecks s n) = e → failsWith e := by
    rintro e he rfl
    have hsame := sameOutside_allocFailed s n
    refine ⟨_, exec_hex_alloc_fails hn hranges hcap fun halloc => he (allocChecks_ok.2 halloc),
      completedWith_complete (fun hok => absurd hok he) fun _ => rfl, ?_,
      hashRegs_of_opc (by rw [hsame]) (by rw [hsame]) fun hok => absurd hok he, hostSideSame_of_sameOutside hsame,
      heapFree_release s n _, fun a => byteAt_allocFailed hheap⟩
    rw [complete_path, pathsel_allocFailed, decide_eq_true hheap]
  refine ⟨fun hshort => hfails _ (by decide) ?_, fun hlong hpast => hfails _ (by decide) ?_,
    fun hlong hin hmeets => hfails _ (by decide) ?_⟩
  · simp [allocChecks, firstError, hheap, hshort]
  · have hinvalid : (s.latch.heapRegion n).valid = false := decide_eq_false (Nat.not_le.2 hpast)
    simp [allocChecks, firstError, hheap, Nat.not_lt.2 hlong, hinvalid]
  · have hvalid : (s.latch.heapRegion n).valid = true := decide_eq_true hin
    simp [allocChecks, firstError, hheap, Nat.not_lt.2 hlong, hvalid, hmeets]

end Sys2Proof.Proofs

/-! SUPPORT. The block framer (spec 43_block_framer.md): deciphering undoes enciphering, and what a DES command has
written as it completes, read from `wp_desEncBody` and `wp_desDecBody`; the round trip composes the two. -/

namespace Sys2Proof.Proofs

open Sys2Proof Sys2Proof.Machine Sys2Proof.Laws Sys2Proof.Safety

variable {s t u : State} {i : Instr} {n : Nat}

/-! ### The primitive -/

/-- The reversed round keys undo DES, because each round is its own inverse on the exchanged halves. -/
theorem desBlock_reverse (keys : List (BitVec 48)) (b : Block) : desBlock keys.reverse (desBlock keys b) = b :=
  calc desJoin (desRounds keys.reverse (desSplit (desJoin (desRounds keys (desSplit b)))))
      = desJoin (desRounds keys.reverse (desRounds keys (desSplit b)).swap) := by rw [desSplit_desJoin]
    _ = desJoin (desSplit b).swap := by rw [desRounds_reverse]
    _ = b := desJoin_swap_desSplit b

theorem blk_dec_enc (ks : Sched) (b : Block) : blk .dec ks (blk .enc ks b) = b := by
  cases ks with
  | des keys => exact desBlock_reverse keys b
  | external id k => exact (Config.externalCipher id k).symm_apply_apply b

/-- Settles O39: the law holds of every schedule. -/
theorem cipherInverseLaw : Obligations.CipherInverseLaw := fun p k => blk_dec_enc (ksetup p k)

/-! ### What a successful DES command leaves -/

/-- A platform that allows every access stops no DES command. -/
theorem not_desStop {f : Nat → Byte} {S : Nat} (hS : S ≤ s.latch.srclen.toNat)
    (hread : Allows s s.latch.source .read) (hwrite : Allows s ⟨s.latch.dst.toNat, n⟩ .write) :
    ¬ DesStop s f S n u := by
  rintro (⟨k, hk, -, hrefused, -⟩ | ⟨k, hk, -, hrefused, -⟩)
  · exact absurd ((hread _ (srcAt_contains (hk.trans_le hS))).symm.trans hrefused) (by decide)
  · have hdest : s.refuses (s.latch.dstAt k) .write = false :=
      hwrite _ (by rw [contains_iff]; dsimp only [Latched.dstAt]; omega)
    exact absurd (hdest.symm.trans hrefused) (by decide)

theorem memorySameOutside_of_desAt {f : Nat → Byte} (h : DesAt s f n u) :
    MemorySameOutside ⟨s.latch.dst.toNat, n⟩ s u := fun _ ha =>
  h.byteAt_out ((contains_false_iff _ _).1 ha)

/-- A DES command that completes with the bytes `f` written: its result, and its frame. -/
theorem exec_des_leaves {f : Nat → Byte} (hloaded : Loaded i s) (hheap : usesHeapWindow i = false)
    (hne : i ≠ .hashkey) (hcap : n ≤ s.latch.dstcap.toNat)
    (hexec : ∃ u, DesAt s f n u ∧ exec i s = .next (complete .ok n u)) :
    ∃ t, exec i s = .next t ∧ CompletedWith .ok n t ∧ t.path = s.pathsel ∧ HashRegsSame s t ∧
      (∀ m, m < n → t.byteAt (s.latch.dst.toNat + m) = f m) ∧
      MemorySameOutside ⟨s.latch.dst.toNat, n⟩ s t ∧ HostSideSame s t := by
  obtain ⟨u, hu, hexec⟩ := hexec
  obtain ⟨hhost, -, -, -, -, hregs, hpath⟩ := commandFrame i s _ hexec
  have hbytes : ∀ m, m < n → u.byteAt (s.latch.dst.toNat + m) = f m := fun _ => hu.byteAt_dst
  have hmemory := memorySameOutside_of_desAt hu
  exact ⟨_, hexec, completedWith_complete (fun _ => hcap.trans_lt (latch_lt _)) nofun,
    hpath hheap, hregs hloaded hne, hbytes, hmemory, hhost⟩

/-! ### DES_ENC -/

/-- R183: the trailer counts the bytes that fill the last block. -/
theorem blockCount_padCount (a : Nat) : 8 * blockCount a = a + padCount a := by
  unfold blockCount padCount
  omega

theorem padCount_le (a : Nat) : padCount a ≤ 7 := by
  unfold padCount
  omega

theorem framedByte_body {k j : Nat} (hk : k < blockCount s.latch.srclen.toNat) (hj : j < 8) :
    framedByte s (8 * k + j) = (transform s .enc (plainBlock s k)).get j := by
  rw [framedByte, if_pos (by omega), cipherByte, show (8 * k + j) / 8 = k by omega,
    show (8 * k + j) % 8 = j by omega]

theorem framedByte_trailer (s : State) :
    (framedByte s (8 * blockCount s.latch.srclen.toNat)).toNat = padCount s.latch.srclen.toNat := by
  have := padCount_le s.latch.srclen.toNat
  rw [framedByte, if_neg (lt_irrefl _), BitVec.toNat_ofNat, Nat.mod_eq_of_lt (by omega)]

/-- The framed ciphertext of the source is written: DES_ENC's state as it completes (R184). -/
def Framed (s u : State) : Prop := DesAt s (framedByte s) (8 * blockCount s.latch.srclen.toNat + 1) u

/-- R185: DES_ENC completes on a state whose conditions all hold. -/
theorem exec_desEnc_completes (hranges : RangesOk s.latch) (hkey : 8 ≤ s.latch.keylen.toNat)
    (hcap : 8 * blockCount s.latch.srclen.toNat + 1 ≤ s.latch.dstcap.toNat) (hread : Allows s s.latch.source .read)
    (hwrite : Allows s ⟨s.latch.dst.toNat, 8 * blockCount s.latch.srclen.toNat + 1⟩ .write) :
    ∃ u, Framed s u ∧ exec .desEnc s = .next (complete .ok (8 * blockCount s.latch.srclen.toNat + 1) u) := by
  have hchecks : firstError (bodyChecks .desEnc s) = .ok := by
    rw [firstError_desEnc, if_neg (Nat.not_lt.2 hkey), if_neg (Nat.not_lt.2 hcap)]
  refine runCommand_runs (P := fun t => ∃ u, Framed s u ∧ Host.Outcome.next t = .next (complete .ok _ u)) hranges ?_
  exact wp_desEncBody s hranges.2.2 (fun e he hfirst => absurd (hfirst.trans hchecks) he)
    (fun _ _ hstop => absurd hstop (not_desStop le_rfl hread hwrite)) fun _ _ _ u hu => ⟨u, hu, rfl⟩

/-- A DES_ENC that succeeded had room for its output and has written it. -/
theorem framed_of_exec_ok (h : exec .desEnc s = .next t) (hok : t.errcode = .ok) :
    8 * blockCount s.latch.srclen.toNat + 1 ≤ s.latch.dstcap.toNat ∧
      ∃ u, Framed s u ∧ t = complete .ok (8 * blockCount s.latch.srclen.toNat + 1) u := by
  cases h
  refine runCommand_cases (P := fun t => t.errcode = .ok →
      8 * blockCount s.latch.srclen.toNat + 1 ≤ s.latch.dstcap.toNat ∧ ∃ u, Framed s u ∧ t = complete .ok _ u)
    (fun _ => nofun) (fun _ _ => nofun) (fun hranges => ?_) hok
  refine wp_desEncBody s hranges.2.2 (fun _ he _ h => absurd h he) (fun _ _ _ => nofun)
    fun hchecks _ _ u hu _ => ⟨?_, u, hu, rfl⟩
  by_contra hsmall
  rw [firstError_desEnc, if_pos (Nat.not_le.1 hsmall)] at hchecks
  split at hchecks <;> cases hchecks

/-- R184, R186: what a DES_ENC that succeeded has left. -/
theorem framedCiphertext_of_exec_ok (h : exec .desEnc s = .next t) (hok : t.errcode = .ok) :
    t.resLen.toNat = 8 * blockCount s.latch.srclen.toNat + 1 ∧
      ∀ m, m < 8 * blockCount s.latch.srclen.toNat + 1 → t.byteAt (s.latch.dst.toNat + m) = framedByte s m := by
  obtain ⟨hcap, u, hu, rfl⟩ := framed_of_exec_ok h hok
  have hdone : CompletedWith .ok _ (complete .ok (8 * blockCount s.latch.srclen.toNat + 1) u) :=
    completedWith_complete (fun _ => hcap.trans_lt (latch_lt _)) nofun
  exact ⟨hdone.resLen, fun _ => hu.byteAt_dst⟩

/-- Settles O40: the bytes written are the framed ciphertext, blocks then trailer. -/
theorem desEncWritesFramedCiphertext : Obligations.DesEncWritesFramedCiphertext := by
  intro s n nb hloaded hranges hkey hcap hread hwrite
  obtain ⟨t, hexec, hdone, hpath, hregs, hbytes, hmemory, hhost⟩ := exec_des_leaves hloaded rfl nofun hcap
    (exec_desEnc_completes hranges hkey hcap hread hwrite)
  refine ⟨t, hexec, hdone, hpath, hregs, fun k j hk hj => ?_, ?_, hmemory, hhost⟩
  · rw [Nat.add_assoc, hbytes _ (by omega), framedByte_body hk hj]
  · rw [hbytes _ (Nat.lt_succ_self _)]
    exact framedByte_trailer s

/-- Settles O41: the trailer is what the source length lacks of whole blocks. -/
theorem desEncOutputLaws : Obligations.DesEncOutputLaws := by
  intro s t _ hexec hok n tr
  obtain ⟨hlen, hbytes⟩ := framedCiphertext_of_exec_ok hexec hok
  have hn : n = 8 * blockCount s.latch.srclen.toNat + 1 := hlen
  have htr : tr = padCount s.latch.srclen.toNat := by
    rw [← framedByte_trailer, ← hbytes _ (Nat.lt_succ_self _)]
    simp only [tr, hn, Nat.add_sub_cancel]
  have hpad := padCount_le s.latch.srclen.toNat
  have hblocks := blockCount_padCount s.latch.srclen.toNat
  refine ⟨hn, ?_, ?_, ?_, ?_⟩ <;> omega

/-! ### DES_DEC -/

/-- R188, R189: a trailer that DES_DEC accepts, with room for the output, passes the checks. -/
theorem bodyChecks_desDec_ok (hkey : 8 ≤ s.latch.keylen.toNat) (hlen : s.latch.srclen.toNat % 8 = 1)
    (htrailer : trailer s ≤ s.latch.srclen.toNat - 1) (hstrict : s.cfg.trailerStrict = true → trailer s < 8)
    (hcap : s.latch.srclen.toNat - 1 - trailer s ≤ s.latch.dstcap.toNat) :
    firstError (bodyChecks .desDec s) = .ok := by
  have hframe : ¬ (s.latch.srclen.toNat == 0 || (s.latch.srclen.toNat - 1) % 8 != 0) = true := by
    simp only [Bool.or_eq_true, beq_iff_eq, bne_iff_ne]
    omega
  have hlow : ¬ (s.cfg.trailerStrict && decide (8 ≤ trailer s)) = true := by
    rw [Bool.and_eq_true, decide_eq_true_eq]
    exact fun ⟨hs, h8⟩ => absurd (hstrict hs) (Nat.not_lt.2 h8)
  rw [firstError_desDec, if_neg (Nat.not_lt.2 hkey), if_neg hframe, if_neg (Nat.not_lt.2 htrailer), if_neg hlow,
    if_neg (Nat.not_lt.2 hcap)]

/-- R190: DES_DEC completes on a state that passes its checks and whose accesses are allowed. -/
theorem exec_desDec_completes (hranges : RangesOk s.latch) (hchecks : firstError (bodyChecks .desDec s) = .ok)
    (hlen : 0 < s.latch.srclen.toNat) (hread : Allows s s.latch.source .read)
    (hwrite : Allows s ⟨s.latch.dst.toNat, s.latch.srclen.toNat - 1 - trailer s⟩ .write) :
    ∃ u, DesAt s (plainByte s) (s.latch.srclen.toNat - 1 - trailer s) u ∧
      exec .desDec s = .next (complete .ok (s.latch.srclen.toNat - 1 - trailer s) u) := by
  refine runCommand_runs (P := fun t => ∃ u, DesAt s (plainByte s) _ u ∧
    Host.Outcome.next t = .next (complete .ok _ u)) hranges ?_
  refine wp_desDecBody s hranges.2.2 (fun e he hfirst => absurd (hfirst.trans hchecks) he) (fun hrefused => ?_)
    (fun _ _ hstop => absurd hstop (not_desStop (Nat.sub_le _ _) hread hwrite)) fun _ _ _ u hu => ⟨u, hu, rfl⟩
  exact absurd ((hread _ (srcAt_contains (Nat.sub_lt hlen Nat.one_pos))).symm.trans hrefused) (by decide)

/-- Settles O42: the bytes written are those of the deciphered blocks. -/
theorem desDecWritesPlaintext : Obligations.DesDecWritesPlaintext := by
  intro s body n hloaded hranges hkey hlen htrailer hstrict hcap hread hwrite
  exact exec_des_leaves hloaded rfl nofun hcap (exec_desDec_completes hranges
    (bodyChecks_desDec_ok hkey hlen htrailer hstrict hcap) (by omega) hread hwrite)

/-! ### The round trip -/

/-- The source range of `u` holds the framed ciphertext of `s` (R184). -/
def HoldsFramed (s u : State) : Prop :=
  u.latch.srclen.toNat = 8 * blockCount s.latch.srclen.toNat + 1 ∧
    ∀ m, m < u.latch.srclen.toNat → u.byteAt (u.latch.srcAt m) = framedByte s m

/-- The bytes that a successful DES_ENC wrote make a framed ciphertext wherever they are the source. -/
theorem holdsFramed_of_exec_ok (h : exec .desEnc s = .next t) (hok : t.errcode = .ok)
    (hsrc : u.latch.src = s.latch.dst) (hsrclen : u.latch.srclen = t.resLen)
    (hbytes : ∀ a, u.latch.source.contains a = true → u.byteAt a = t.byteAt a) : HoldsFramed s u := by
  obtain ⟨hlen, hframed⟩ := framedCiphertext_of_exec_ok h hok
  have hulen : u.latch.srclen.toNat = 8 * blockCount s.latch.srclen.toNat + 1 := by rw [hsrclen, hlen]
  refine ⟨hulen, fun m hm => ?_⟩
  rw [hbytes _ (srcAt_contains hm), Latched.srcAt, hsrc, hframed m (hulen ▸ hm)]

theorem HoldsFramed.trailer (h : HoldsFramed s u) : trailer u = padCount s.latch.srclen.toNat := by
  obtain ⟨hlen, hbytes⟩ := h
  rw [Safety.trailer, hbytes _ (by omega), hlen, Nat.add_sub_cancel, framedByte_trailer]

theorem HoldsFramed.cipherBlock (h : HoldsFramed s u) {k : Nat} (hk : k < blockCount s.latch.srclen.toNat) :
    cipherBlock u k = transform s .enc (plainBlock s k) := by
  obtain ⟨hlen, hbytes⟩ := h
  refine block_ext fun j hj => ?_
  rw [Safety.cipherBlock, block_get_ofFn _ hj, hbytes _ (by omega), framedByte_body hk hj]

/-- Under the same key and primitive a deciphered block is the plaintext block. -/
theorem HoldsFramed.transform_dec (h : HoldsFramed s u) (hkey : u.latch.key = s.latch.key)
    (hprim : u.cfg.primitive = s.cfg.primitive) {k : Nat} (hk : k < blockCount s.latch.srclen.toNat) :
    transform u .dec (Safety.cipherBlock u k) = plainBlock s k := by
  rw [h.cipherBlock hk, transform, transform, hkey, hprim, blk_dec_enc]

theorem plainBlock_get {m : Nat} (hm : m < s.latch.srclen.toNat) :
    (plainBlock s (m / 8)).get (m % 8) = s.byteAt (s.latch.srcAt m) := by
  rw [plainBlock, block_get_ofFn _ (Nat.mod_lt _ (by decide)), Nat.div_add_mod, if_pos hm]

/-- Settles O43: the trailer passes both checks, and each deciphered block is the plaintext block. -/
theorem desRoundTrip : Obligations.DesRoundTrip := by
  intro s t u n _ hexec hok hloaded hkey hprim hkeylen hsrc hsrclen hbytes hranges hcap hread hwrite
  have hframed := holdsFramed_of_exec_ok hexec hok hsrc hsrclen hbytes
  have hlen := hframed.1
  have htrailer := hframed.trailer
  have hpad := padCount_le s.latch.srclen.toNat
  have hblocks := blockCount_padCount s.latch.srclen.toNat
  have hn : u.latch.srclen.toNat - 1 - trailer u = n := by omega
  obtain ⟨v, hv, hdone, -, -, hplain, -⟩ := desDecWritesPlaintext u hloaded hranges hkeylen (by omega) (by omega)
    (fun _ => by omega) (by rwa [hn]) hread (by rwa [hn])
  rw [hn] at hdone hplain
  refine ⟨v, hv, hdone, ?_⟩
  rw [holds_iff]
  intro m hm
  have hmn : m < n := by rwa [sourceBytes_length] at hm
  rw [hplain m hmn, hframed.transform_dec hkey hprim (by omega), plainBlock_get hmn, sourceBytes_getElem]

end Sys2Proof.Proofs

/-! SUPPORT. Exceptions (spec 60_exceptions.md): the interrupt output and the completion codes, the order in which a
command reports its errors, and what a command leaves that a refused access stops. -/

namespace Sys2Proof.Proofs

open Sys2Proof Sys2Proof.Machine Sys2Proof.Laws Sys2Proof.Safety

variable {s t u : State} {i : Instr} {n : Nat}

/-! ### The interrupt output and the codes -/

/-- Settles O18: `irq` is a function of IE and DONE, and each action has its law for both. -/
theorem interruptIsEnableAndDone : Obligations.InterruptIsEnableAndDone := by
  refine ⟨rfl, fun _ => rfl, fun v s => ⟨_, rfl, rfl⟩, fun v s => ⟨_, rfl, ?_⟩, fun w s t hidle h => ?_,
    fun s t hbusy hreset h => ?_⟩
  · exact (Bool.and_assoc s.ie s.done _).symm
  · obtain ⟨rfl, -, -⟩ := cmdWrite_idle hidle h
    exact Bool.and_false s.ie
  · obtain ⟨code, m, u, rfl, hR⟩ := engineTurn_busy hreset hbusy h
    have hsame : SameOutside s u := hR (engineRel_sameOutside (fun _ => True) _) fun _ _ _ _ => trivial
    have hie : u.ie = s.ie := by rw [hsame]
    exact (Bool.and_true u.ie).trans hie

/-- Settles O45: the read widens the four bits of the code, so their number stays. -/
theorem errorCodeNumbers : Obligations.ErrorCodeNumbers := by
  rintro e s rfl
  have hread : (regRead .errcode s).toNat = s.errcode.number.toNat := BitVec.toNat_setWidth_of_le (by decide)
  rw [hread]
  cases s.errcode <;> rfl

/-! ### A failed command -/

/-- R202: what the completion of a failed command records, and what it leaves of the host's side and of H1 and H2. -/
theorem complete_failed {e : ErrCode} (he : e ≠ .ok) (h : SameOutside s u) :
    CompletedWith e 0 (complete e n u) ∧ HashRegsSame s (complete e n u) ∧ HostSideSame s (complete e n u) := by
  have hlen : (complete e n u).resLen = 0 := if_neg he
  exact ⟨⟨rfl, by rw [hlen]; rfl, rfl, rfl, rfl, rfl⟩,
    hashRegs_of_opc (by rw [h]) (by rw [h]) fun hok => absurd hok he, hostSideSame_of_sameOutside h⟩

/-- Settles O46: a command ends in one completion, here with a code other than 0. -/
theorem failureRecords : Obligations.FailureRecords := by
  intro i s t h hfailed
  obtain ⟨e, n, u, rfl, hsame, -⟩ := exec_frame h
  have he : e ≠ .ok := hfailed
  obtain ⟨hdone, hregs, -⟩ := complete_failed (n := n) he hsame
  exact ⟨by rw [hdone.err]; simpa using he, hdone.done, BitVec.eq_of_toNat_eq hdone.resLen, hdone.idle,
    hdone.schedule, hregs⟩

/-! ### The order of the errors -/

/-- The body ends with the first error of its checks. -/
def BodyReports (i : Instr) (body : Latched → Cmd Nat) (s : State) : Prop :=
  RangesOk s.latch → wp (body s.latch) (fun _ _ => .ok = firstError (bodyChecks i s))
    (fun e _ => e = firstError (bodyChecks i s)) s

/-- R205: the common checks come first, then those of the body. -/
theorem runCommand_reports {body : Latched → Cmd Nat} (h : BodyReports i body s) :
    (runCommand body s).errcode = firstError (checksInOrder i s) := by
  refine runCommand_cases (P := fun t => t.errcode = firstError (checksInOrder i s)) (fun hbad => ?_)
    (fun hvalid hmeet => ?_) fun hranges => ?_
  · simp [checksInOrder, commonChecks, firstError, hbad]
  · simp [checksInOrder, commonChecks, firstError, hvalid, hmeet]
  · rw [firstError_checksInOrder hranges]
    exact h hranges

theorem not_refuses_of_refused_nil (h : s.cfg.refused = []) (a : Nat) (d : Dir) : ¬ s.refuses a d = true := by
  simp [State.refuses, h]

theorem allows_of_refused_nil (h : s.cfg.refused = []) (r : Range) (d : Dir) : Allows s r d := fun a _ =>
  eq_false_of_ne_true (not_refuses_of_refused_nil h a d)

theorem not_hexBus_of_refused_nil {f : Nat → Byte} (h : s.cfg.refused = []) (halloc : AllocOk s n) :
    ¬ HexBus s n f u :=
  not_hexBus ⟨halloc, fun _ => ⟨allows_of_refused_nil h _ _, allows_of_refused_nil h _ _⟩⟩
    (allows_of_refused_nil h _ _) (allows_of_refused_nil h _ _)

theorem not_desStop_of_refused_nil {f : Nat → Byte} {S : Nat} (h : s.cfg.refused = [])
    (hS : S ≤ s.latch.srclen.toNat) : ¬ DesStop s f S n u :=
  not_desStop hS (allows_of_refused_nil h _ _) (allows_of_refused_nil h _ _)

theorem bodyReports_hashkey (h : s.cfg.refused = []) : BodyReports .hashkey hashkeyBody s := fun _ => by
  have hchecks : firstError (bodyChecks .hashkey s) = if s.latch.dstcap.toNat < 8 then .dstcap else .ok := by
    simp [bodyChecks, firstError]
  refine wp_hashkeyBody s (fun hsmall => ?_)
    (fun _ a _ _ hrefused _ => absurd hrefused (not_refuses_of_refused_nil h a _))
    (fun _ _ _ _ _ _ hrefused _ => absurd hrefused (not_refuses_of_refused_nil h _ _)) fun hcap _ _ _ _ => ?_
  · rw [hchecks, if_pos hsmall]
  · rw [hchecks, if_neg (Nat.not_lt.2 hcap)]

theorem bodyReports_hexEnc (h : s.cfg.refused = []) : BodyReports .hexEnc hexEncBody s := fun _ =>
  wp_hexEncBody s (fun _ hfirst => hfirst.symm) (fun _ _ hfirst _ => hfirst)
    (fun halloc _ hbus => absurd hbus (not_hexBus_of_refused_nil h halloc)) fun hfirst _ _ _ _ _ => hfirst.symm

theorem bodyReports_hexDec (h : s.cfg.refused = []) : BodyReports .hexDec hexDecBody s := fun _ =>
  wp_hexDecBody s (fun _ _ hfirst _ => hfirst) (fun _ _ hfirst _ => hfirst) (fun _ hfirst _ _ _ => hfirst.symm)
    (fun halloc _ hbus => absurd hbus (not_hexBus_of_refused_nil h halloc)) fun hfirst _ _ _ _ _ => hfirst.symm

theorem bodyReports_desEnc (h : s.cfg.refused = []) : BodyReports .desEnc desEncBody s := fun ⟨_, _, hdisjoint⟩ =>
  wp_desEncBody s hdisjoint (fun _ _ hfirst => hfirst)
    (fun _ _ hstop => absurd hstop (not_desStop_of_refused_nil h le_rfl)) fun hfirst _ _ _ _ => hfirst.symm

theorem bodyReports_desDec (h : s.cfg.refused = []) : BodyReports .desDec desDecBody s := fun ⟨_, _, hdisjoint⟩ =>
  wp_desDecBody s hdisjoint (fun _ _ hfirst => hfirst)
    (fun hrefused => absurd hrefused (not_refuses_of_refused_nil h _ _))
    (fun _ _ hstop => absurd hstop (not_desStop_of_refused_nil h (Nat.sub_le _ 1))) fun hfirst _ _ _ _ => hfirst.symm

/-- Settles O44: with no access refused, each body reports the first error of its own checks. -/
theorem errorsFollowPriority : Obligations.ErrorsFollowPriority := by
  intro i s h
  cases i with
  | hashkey => exact ⟨_, rfl, runCommand_reports (bodyReports_hashkey h)⟩
  | hexEnc => exact ⟨_, rfl, runCommand_reports (bodyReports_hexEnc h)⟩
  | hexDec => exact ⟨_, rfl, runCommand_reports (bodyReports_hexDec h)⟩
  | desEnc => exact ⟨_, rfl, runCommand_reports (bodyReports_desEnc h)⟩
  | desDec => exact ⟨_, rfl, runCommand_reports (bodyReports_desDec h)⟩

end Sys2Proof.Proofs

/-! SUPPORT. E_BUS (spec 60_exceptions.md R203): the access that stops a command is the first that the platform refuses,
so a refused access with none before it fixes the state in which the command ends. -/

namespace Sys2Proof.Proofs

open Sys2Proof Sys2Proof.Machine Sys2Proof.Laws Sys2Proof.Safety

variable {s t u : State} {i : Instr} {n k j : Nat} {f : Nat → Byte}

/-! ### The first refused access -/

/-- A refused access is none of those that were allowed. -/
theorem le_of_refused {g : Nat → Nat} {d : Dir} (h : ∀ j, j < k → s.refuses (g j) d = false)
    (hj : s.refuses (g j) d = true) : k ≤ j := by
  by_contra hlt
  rw [h j (Nat.not_le.1 hlt)] at hj
  cases hj

/-- The result bytes written before the refused one. -/
theorem holds_take {a : Nat} {l : List Byte} (h : ∀ m (hm : m < l.length), m < k → t.byteAt (a + m) = l[m]) :
    Holds t a (l.take k) := by
  rw [holds_iff]
  intro m hm
  rw [List.length_take, Nat.lt_min] at hm
  rw [List.getElem_take, h m hm.2 hm.1]

/-! ### HASHKEY -/

/-- R203: HASHKEY with room for its result stops at a refused source read and writes nothing. -/
theorem exec_hashkey_read_stops (hranges : RangesOk s.latch) (hcap : 8 ≤ s.latch.dstcap.toNat)
    (hread : ¬ Allows s s.latch.source .read) :
    ∃ u, u = { s with acc1 := u.acc1, acc2 := u.acc2 } ∧ exec .hashkey s = .next (complete .bus 0 u) := by
  refine runCommand_runs (P := fun t => ∃ u, u = { s with acc1 := u.acc1, acc2 := u.acc2 } ∧
    Host.Outcome.next t = .next (complete .bus 0 u)) hranges ?_
  exact wp_hashkeyBody s (fun hsmall => absurd hcap (Nat.not_le.2 hsmall)) (fun _ _ u _ _ hu => ⟨u, hu, rfl⟩)
    (fun _ hall => absurd hall hread) fun _ hall => absurd hall hread

/-- R203: HASHKEY stops at the first refused write of a result byte. -/
theorem exec_hashkey_write_stops (hranges : RangesOk s.latch) (hcap : 8 ≤ s.latch.dstcap.toNat) (hk : k < 8)
    (hread : Allows s s.latch.source .read)
    (hbefore : ∀ j, j < k → s.refuses (s.latch.dst.toNat + j) .write = false)
    (hwrite : s.refuses (s.latch.dst.toNat + k) .write = true) :
    ∃ u, Wrote s.latch.dst.toNat (hashByte s) 0 k (hashed s) u ∧ exec .hashkey s = .next (complete .bus 0 u) := by
  refine runCommand_runs (P := fun t => ∃ u, Wrote s.latch.dst.toNat (hashByte s) 0 k (hashed s) u ∧
    Host.Outcome.next t = .next (complete .bus 0 u)) hranges ?_
  refine wp_hashkeyBody s (fun hsmall => absurd hcap (Nat.not_le.2 hsmall)) (fun _ a _ ha hrefused _ => ?_)
    (fun _ _ k' u _ hbefore' hwrite' hu => ?_) fun _ _ hall => ?_
  · exact absurd ((hread a ha).symm.trans hrefused) (by decide)
  · obtain rfl : k' = k := le_antisymm (le_of_refused hbefore' hwrite) (le_of_refused hbefore hwrite')
    exact ⟨u, hu, rfl⟩
  · exact absurd hk (Nat.not_lt.2 (le_of_refused hall hwrite))

/-- Settles O31: the bytes before the refused write are the first of the fingerprint; a refused read comes before all
writes. -/
theorem hashkeyBusErrorKeepsEarlierWrites : Obligations.HashkeyBusErrorKeepsEarlierWrites := by
  refine fun s hranges hcap => ⟨fun k hk hread hbefore hwrite => ?_, fun a ha hrefused => ?_⟩
  · obtain ⟨u, hu, hexec⟩ := exec_hashkey_write_stops hranges hcap hk hread
      (fun j hj => hbefore _ (by rw [contains_iff]; dsimp only; omega)) hwrite
    have hsame : SameOutside s u := by
      obtain ⟨m, rfl, -⟩ := hu
      rfl
    obtain ⟨hdone, hregs, -⟩ := complete_failed (e := .bus) (n := 0) nofun hsame
    refine ⟨_, hexec, hdone, hregs, holds_take fun m hm hmk => ?_, fun a ha => ?_⟩
    · rw [byteAt_complete, hu.byteAt_in (Nat.zero_le m) hmk, fingerprintBytes_getElem]
      rfl
    · rw [contains_false_iff] at ha
      exact hu.byteAt_out ha
  · obtain ⟨u, hu, hexec⟩ := exec_hashkey_read_stops hranges hcap fun hall =>
      absurd ((hall a ha).symm.trans hrefused) (by decide)
    have hsame : SameOutside s u := by
      rw [hu]
      rfl
    obtain ⟨hdone, hregs, -⟩ := complete_failed (e := .bus) (n := 0) nofun hsame
    refine ⟨_, hexec, hdone, hregs, ?_⟩
    rw [complete_mem, hu]

/-! ### HEX_ENC and HEX_DEC -/

theorem not_fillAllowed_of_fillRefused (h : FillRefused s n) : ¬ FillAllowed s n := by
  rintro ⟨hread, hwrite⟩
  obtain ⟨m, hm, hrefused⟩ | ⟨hpath, m, hm, hrefused⟩ := h
  · exact absurd ((hread m hm).symm.trans hrefused) (by decide)
  · exact absurd ((hwrite hpath m hm).symm.trans hrefused) (by decide)

/-- The byte whose copy is refused is none of those copied out. -/
theorem le_of_copyRefused (h : CopyAllowed s n k) (hj : CopyRefused s n j) : k ≤ j := by
  by_contra hlt
  obtain ⟨hread, hwrite⟩ := h j (Nat.not_le.1 hlt)
  obtain ⟨hpath, hrefused⟩ | hrefused := hj
  · exact absurd ((hread hpath).symm.trans hrefused) (by decide)
  · exact absurd (hwrite.symm.trans hrefused) (by decide)

/-- A hex command that meets no byte other than a digit and is refused an access ends with E_BUS. -/
theorem exec_hex_stops (hn : hexOutputLength s.latch i = some n) (hranges : RangesOk s.latch)
    (hcap : n ≤ s.latch.dstcap.toNat) (halloc : AllocOk s n) (hinput : i = .hexDec → ¬ InputStop s)
    (hrefused : FillRefused s n ∨ ∃ k, k < n ∧ CopyRefused s n k) :
    ∃ u, HexBus s n (hexByte i s) u ∧ exec i s = .next (complete .bus 0 u) := by
  have hnotdone : FillAllowed s n → ¬ CopyAllowed s n n := fun hfill hcopy => by
    obtain hbad | ⟨k, hk, hbad⟩ := hrefused
    · exact not_fillAllowed_of_fillRefused hbad hfill
    · exact absurd hk (Nat.not_lt.2 (le_of_copyRefused hcopy hbad))
  obtain ⟨rfl, rfl⟩ | ⟨rfl, heven, rfl⟩ := hexOutputLength_eq_some hn
  · refine runCommand_runs (P := fun t => ∃ u, HexBus s _ (encodedByte s) u ∧
      Host.Outcome.next t = .next (complete .bus 0 u)) hranges ?_
    exact wp_hexEncBody s (fun hsmall _ => absurd hcap (Nat.not_le.2 hsmall))
      (fun _ _ _ hfailed => absurd halloc hfailed) (fun _ u hu => ⟨u, hu, rfl⟩)
      fun _ _ hfill hcopy => absurd hcopy (hnotdone hfill)
  · refine runCommand_runs (P := fun t => ∃ u, HexBus s _ (decodedByte s) u ∧
      Host.Outcome.next t = .next (complete .bus 0 u)) hranges ?_
    exact wp_hexDecBody s (fun _ _ _ hearly => absurd hearly (by omega))
      (fun _ _ _ hfailed => absurd halloc hfailed) (fun _ _ hstop => absurd hstop (hinput rfl))
      (fun _ u hu => ⟨u, hu, rfl⟩) fun _ _ hfill hcopy => absurd hcopy (hnotdone hfill)

/-- Digits in the first source bytes make the pairs in them valid. -/
theorem pairOk_of_allHex_take {m : Nat} (h : AllHex ((sourceBytes s).take m)) (hk : 2 * k + 2 ≤ m)
    (hlen : 2 * k + 2 ≤ s.latch.srclen.toNat) : pairOk s k = true := by
  have digit : ∀ p, p < m → p < s.latch.srclen.toNat → isHex (s.byteAt (s.latch.srcAt p)) = true := fun p hp hlt => by
    have hp' : p < (sourceBytes s).length := by rwa [sourceBytes_length]
    rw [← sourceBytes_getElem s hp']
    exact h _ (List.mem_take_iff_getElem.2 ⟨p, by omega, rfl⟩)
  rw [pairOk, digit _ (by omega) (by omega), digit _ (by omega) (by omega)]
  rfl

/-- HEX_DEC stops at a byte that is no digit only past the digits, the reads and the heap writes before it. -/
theorem exists_bad_pair_of_inputStop (h : InputStop s) : ∃ p, p < s.latch.srclen.toNat / 2 ∧
    (∀ m, AllHex ((sourceBytes s).take m) → m < 2 * p + 2) ∧
    (∀ j, s.refuses (s.latch.srcAt j) .read = true → 2 * p + 2 ≤ j) ∧
    (s.cfg.scratchCap < s.latch.srclen.toNat / 2 → ∀ k, s.refuses (s.latch.heapAt k) .write = true → p ≤ k) := by
  obtain ⟨p, hp, hpair, hread, hwrite⟩ := h
  refine ⟨p, hp, fun m hm => ?_, fun j => le_of_refused hread, fun hpath k => le_of_refused (hwrite hpath)⟩
  by_contra hlt
  rw [pairOk_of_allHex_take hm (by omega) (by omega)] at hpair
  cases hpair

/-- R203: what a hex command leaves that a refused access has stopped with the first `k` result bytes written. -/
theorem exec_hexAt_bus (hn : hexOutputLength s.latch i = some n)
    (h : ∃ u, HexAt s n (hexByte i s) k u ∧ exec i s = .next (complete .bus 0 u)) :
    ∃ t, exec i s = .next t ∧ CompletedWith .bus 0 t ∧ t.path = decide (s.cfg.scratchCap < n) ∧ HashRegsSame s t ∧
      Holds t s.latch.dst.toNat ((hexOutput i s).take k) ∧
      MemorySameOutsideTwo ⟨s.latch.dst.toNat, k⟩ (usedHeap s n) s t ∧ HeapFree s n t ∧ HostSideSame s t := by
  obtain ⟨u, hu, hexec⟩ := h
  obtain ⟨hdone, hregs, hhost⟩ := complete_failed (e := .bus) (n := 0) nofun (sameOutside_of_hexAt hu)
  have hholds : Holds u s.latch.dst.toNat ((hexOutput i s).take k) := holds_take fun m hm hmk => by
    obtain ⟨-, -, -, -, hbytes, -⟩ := hu
    rw [hexOutput_getElem hn hm, hbytes m hmk]
  have hmemory := memorySameOutside_of_hexAt hu
  have hfree := heapFree_of_hexAt hu
  exact ⟨_, hexec, hdone, pathsel_of_hexAt hu, hregs, hholds, hmemory, hfree, hhost⟩

theorem hexAt_of_fillRefused (h : HexBus s n f u) (hrefused : FillRefused s n) : HexAt s n f 0 u := by
  obtain ⟨-, hu⟩ | ⟨hfill, -⟩ := h
  · exact hu
  · exact absurd hfill (not_fillAllowed_of_fillRefused hrefused)

theorem hexAt_of_copyRefused (h : HexBus s n f u) (hfill : FillAllowed s n) (hcopy : CopyAllowed s n k)
    (hrefused : CopyRefused s n k) : HexAt s n f k u := by
  obtain ⟨hbad, -⟩ | ⟨-, k', -, hcopy', hrefused', hu⟩ := h
  · exact absurd hfill (not_fillAllowed_of_fillRefused hbad)
  · obtain rfl : k' = k := le_antisymm (le_of_copyRefused hcopy' hrefused) (le_of_copyRefused hcopy hrefused')
    exact hu

/-- Settles O57: the digits before the refused access keep HEX_DEC from stopping earlier, and the refused access tells
how far the copy-out has come. -/
theorem hexBusErrorKeepsEarlierWrites : Obligations.HexBusErrorKeepsEarlierWrites := by
  intro s i n hn hranges hcap halloc digits stands
  have hlen : i = .hexDec → n = s.latch.srclen.toNat / 2 := by
    rintro rfl
    obtain ⟨h, -⟩ | ⟨-, -, rfl⟩ := hexOutputLength_eq_some hn
    · cases h
    · rfl
  have hfill : FillRefused s n → (i = .hexDec → ¬ InputStop s) → stands 0 := fun hrefused hinput => by
    obtain ⟨u, hu, hexec⟩ := exec_hex_stops hn hranges hcap halloc hinput (.inl hrefused)
    exact exec_hexAt_bus hn ⟨u, hexAt_of_fillRefused hu hrefused, hexec⟩
  refine ⟨fun j hj hrefused hdigits => hfill (.inl ⟨j, hj, hrefused⟩) fun hdec hstop => ?_,
    fun k hk hpath hrefused hdigits => hfill (.inr ⟨hpath, k, hk, hrefused⟩) fun hdec hstop => ?_,
    fun k hk hdigits hread hwrite hheap hrefused => ?_⟩
  · obtain ⟨p, -, hpast, hreads, -⟩ := exists_bad_pair_of_inputStop hstop
    have hdigit := hpast _ (hdigits hdec)
    have hread := hreads j hrefused
    omega
  · obtain ⟨p, -, hpast, -, hwrites⟩ := exists_bad_pair_of_inputStop hstop
    have hdigit := hpast _ (hdigits hdec)
    have hwrite := hwrites (hlen hdec ▸ hpath) k hrefused
    omega
  · have hinput : i = .hexDec → ¬ InputStop s := fun hdec hstop => by
      obtain ⟨p, hp, hpast, -⟩ := exists_bad_pair_of_inputStop hstop
      have hdigit := hpast _ (hdigits hdec)
      omega
    have hfills : FillAllowed s n := ⟨fun m hm => hread _ (srcAt_contains hm), fun hpath m hm =>
      (hheap hpath).1 _ (heapAt_contains hm)⟩
    obtain ⟨u, hu, hexec⟩ := exec_hex_stops hn hranges hcap halloc hinput (.inr ⟨k, hk, hrefused⟩)
    exact exec_hexAt_bus hn ⟨u, hexAt_of_copyRefused hu hfills
      (fun m hm => ⟨fun hpath => (hheap hpath).2 m hm, hwrite m hm⟩) hrefused, hexec⟩

/-! ### DES_ENC and DES_DEC -/

/-- A DES command that is refused the read of source byte `j` first has written the blocks before it. -/
theorem desAt_of_readRefused {S : Nat} (h : DesStop s f S n u) (hj : j < S) (hreads : ReadsAllowed s j)
    (hrefused : s.refuses (s.latch.srcAt j) .read = true) (hwrites : WritesAllowed s (min n (8 * (j / 8)))) :
    DesAt s f (min n (8 * (j / 8))) u := by
  obtain ⟨j', -, hreads', hrefused', -, hu⟩ | ⟨m, hm, -, hrefused', hreads', -⟩ := h
  · obtain rfl : j' = j := le_antisymm (le_of_refused hreads' hrefused) (le_of_refused hreads hrefused')
    exact hu
  · have hpast := le_of_refused hwrites hrefused'
    have hread := le_of_refused hreads' hrefused
    omega

/-- A DES command that is refused the write of result byte `k` first has written the bytes before it. -/
theorem desAt_of_writeRefused {S : Nat} (h : DesStop s f S n u) (hk : k < n) (hwrites : WritesAllowed s k)
    (hrefused : s.refuses (s.latch.dstAt k) .write = true) (hreads : ReadsAllowed s (min S (8 * (k / 8) + 8))) :
    DesAt s f k u := by
  obtain ⟨j, hj, -, hrefused', hwrites', -⟩ | ⟨k', -, hwrites', hrefused', -, hu⟩ := h
  · have hwritten := le_of_refused hwrites' hrefused
    have hpast := le_of_refused hreads hrefused'
    omega
  · obtain rfl : k' = k := le_antisymm (le_of_refused hwrites' hrefused) (le_of_refused hwrites hrefused')
    exact hu

/-- R203: what a DES command leaves that a refused access has stopped with the first `k` bytes of `f` written. -/
theorem exec_desAt_bus {f g : Nat → Byte} (hfg : ∀ m, m < k → f m = g m)
    (h : ∃ u, DesAt s f k u ∧ exec i s = .next (complete .bus 0 u)) :
    ∃ t, exec i s = .next t ∧ CompletedWith .bus 0 t ∧ t.path = s.pathsel ∧ HashRegsSame s t ∧
      (∀ m, m < k → t.byteAt (s.latch.dst.toNat + m) = g m) ∧
      MemorySameOutside ⟨s.latch.dst.toNat, k⟩ s t ∧ HostSideSame s t := by
  obtain ⟨u, hu, hexec⟩ := h
  obtain ⟨hsame, hpath⟩ : SameOutside s u ∧ u.pathsel = s.pathsel := by
    obtain ⟨b, m, rfl, -⟩ := hu
    exact ⟨rfl, rfl⟩
  obtain ⟨hdone, hregs, hhost⟩ := complete_failed (e := .bus) (n := 0) nofun hsame
  have hmemory := memorySameOutside_of_desAt hu
  exact ⟨_, hexec, hdone, hpath, hregs, fun m hm => (hu.byteAt_dst hm).trans (hfg m hm), hmemory, hhost⟩

/-- DES_ENC that passes its checks and is refused an access ends with E_BUS. -/
theorem exec_desEnc_stops (hranges : RangesOk s.latch) (hkey : 8 ≤ s.latch.keylen.toNat)
    (hcap : 8 * blockCount s.latch.srclen.toNat + 1 ≤ s.latch.dstcap.toNat)
    (hrefused : ReadsAllowed s s.latch.srclen.toNat →
      ¬ WritesAllowed s (8 * blockCount s.latch.srclen.toNat + 1)) :
    ∃ u, DesStop s (framedByte s) s.latch.srclen.toNat (8 * blockCount s.latch.srclen.toNat + 1) u ∧
      exec .desEnc s = .next (complete .bus 0 u) := by
  have hchecks : firstError (bodyChecks .desEnc s) = .ok := by
    rw [firstError_desEnc, if_neg (Nat.not_lt.2 hkey), if_neg (Nat.not_lt.2 hcap)]
  refine runCommand_runs (P := fun t => ∃ u, DesStop s (framedByte s) s.latch.srclen.toNat _ u ∧
    Host.Outcome.next t = .next (complete .bus 0 u)) hranges ?_
  exact wp_desEncBody s hranges.2.2 (fun e he hfirst => absurd (hfirst.trans hchecks) he)
    (fun _ u hu => ⟨u, hu, rfl⟩) fun _ hreads hwrites => absurd hwrites (hrefused hreads)

/-- Settles O58: the bytes written before the refused access are ciphertext, since the trailer comes last. -/
theorem desEncBusErrorKeepsEarlierWrites : Obligations.DesEncBusErrorKeepsEarlierWrites := by
  intro s len nb hranges hkey hcap stands
  have hlen : len ≤ 8 * nb := by omega
  have hstands : ∀ k, k ≤ 8 * nb →
      (∃ u, DesAt s (framedByte s) k u ∧ exec .desEnc s = .next (complete .bus 0 u)) → stands k := fun k hk =>
    exec_desAt_bus fun m hm => if_pos (hm.trans_le hk)
  refine ⟨fun j hj hreads hrefused hwrites => hstands _ (by omega) ?_,
    fun m hm hwrites hrefused hreads => hstands _ (by omega) ?_⟩
  · obtain ⟨u, hu, hexec⟩ := exec_desEnc_stops hranges hkey hcap fun hall =>
      absurd hj (Nat.not_lt.2 (le_of_refused hall hrefused))
    have hmin : min (8 * nb + 1) (8 * (j / 8)) = 8 * (j / 8) := by omega
    have hat := desAt_of_readRefused hu hj hreads hrefused (hmin.symm ▸ hwrites)
    exact ⟨u, hmin ▸ hat, hexec⟩
  · obtain ⟨u, hu, hexec⟩ := exec_desEnc_stops hranges hkey hcap fun _ hall =>
      absurd hm (Nat.not_lt.2 (le_of_refused hall hrefused))
    exact ⟨u, desAt_of_writeRefused hu hm hwrites hrefused hreads, hexec⟩

/-- R188: the trailer is read before it is checked, so a refused read of it comes before E_MALFORMED. -/
theorem exec_desDec_trailer_stops (hranges : RangesOk s.latch) (hkey : 8 ≤ s.latch.keylen.toNat)
    (hlen : s.latch.srclen.toNat % 8 = 1)
    (hrefused : s.refuses (s.latch.srcAt (s.latch.srclen.toNat - 1)) .read = true) :
    exec .desDec s = .next (complete .bus 0 s) := by
  refine runCommand_runs (P := fun t => Host.Outcome.next t = .next (complete .bus 0 s)) hranges ?_
  have hframe : (s.latch.srclen.toNat == 0 || (s.latch.srclen.toNat - 1) % 8 != 0) = false := by
    rw [Bool.or_eq_false_iff, beq_eq_false_iff_ne, bne_eq_false_iff_eq]
    omega
  simp [desDecBody, checkKeyLength, hframe, hrefused, Nat.not_lt.2 hkey]

/-- DES_DEC that passes its checks, reads its trailer and is refused an access ends with E_BUS. -/
theorem exec_desDec_stops (hranges : RangesOk s.latch) (hchecks : firstError (bodyChecks .desDec s) = .ok)
    (htrailer : s.refuses (s.latch.srcAt (s.latch.srclen.toNat - 1)) .read = false)
    (hrefused : ReadsAllowed s s.latch.srclen.toNat →
      ¬ WritesAllowed s (s.latch.srclen.toNat - 1 - trailer s)) :
    ∃ u, DesStop s (plainByte s) (s.latch.srclen.toNat - 1) (s.latch.srclen.toNat - 1 - trailer s) u ∧
      exec .desDec s = .next (complete .bus 0 u) := by
  refine runCommand_runs (P := fun t => ∃ u, DesStop s (plainByte s) (s.latch.srclen.toNat - 1) _ u ∧
    Host.Outcome.next t = .next (complete .bus 0 u)) hranges ?_
  exact wp_desDecBody s hranges.2.2 (fun e he hfirst => absurd (hfirst.trans hchecks) he)
    (fun hbad => absurd (htrailer.symm.trans hbad) (by decide)) (fun _ u hu => ⟨u, hu, rfl⟩)
    fun _ hreads hwrites => absurd hwrites (hrefused hreads)

/-- Settles O59: nothing is written before the trailer is read, and then the first refused access tells how many
plaintext bytes are. -/
theorem desDecBusErrorKeepsEarlierWrites : Obligations.DesDecBusErrorKeepsEarlierWrites := by
  intro s body n hranges hkey hlen stands
  have hstands : ∀ k, (∃ u, DesAt s (plainByte s) k u ∧ exec .desDec s = .next (complete .bus 0 u)) → stands k :=
    fun k => exec_desAt_bus fun _ _ => rfl
  refine ⟨fun hrefused => ?_, fun htrailer hle hstrict hcap => ?_⟩
  · obtain ⟨hdone, hregs, hhost⟩ := complete_failed (e := .bus) (n := 0) nofun (SameOutside.refl s)
    exact ⟨_, exec_desDec_trailer_stops hranges hkey hlen hrefused, hdone, rfl, hregs,
      fun m hm => absurd hm (Nat.not_lt_zero m), fun _ _ => rfl, hhost⟩
  have hchecks := bodyChecks_desDec_ok hkey hlen hle hstrict hcap
  refine ⟨fun j hj hreads hrefused hwrites => hstands _ ?_, fun m hm hwrites hrefused hreads => hstands _ ?_⟩
  · obtain ⟨u, hu, hexec⟩ := exec_desDec_stops hranges hchecks htrailer fun hall =>
      absurd (hj.trans_le (Nat.sub_le _ 1)) (Nat.not_lt.2 (le_of_refused hall hrefused))
    exact ⟨u, desAt_of_readRefused hu hj hreads hrefused hwrites, hexec⟩
  · obtain ⟨u, hu, hexec⟩ := exec_desDec_stops hranges hchecks htrailer fun _ hall =>
      absurd hm (Nat.not_lt.2 (le_of_refused hall hrefused))
    exact ⟨u, desAt_of_writeRefused hu hm hwrites hrefused hreads, hexec⟩

end Sys2Proof.Proofs

/-! SUPPORT. The reset input (spec 70_reset_and_hazards.md R230 to R232): what it gives the registers, what an aborted
command leaves of host memory, and that nothing is accessed while it is active. -/

namespace Sys2Proof.Proofs

open Sys2Proof Sys2Proof.Machine Sys2Proof.Laws Sys2Proof.Safety

variable {s : State} {rest : List Input}

/-! ### The registers -/

/-- R49: every register but CAPS reads 0. -/
theorem regRead_resetBlock (level : Bool) (u : State) {r : Reg} (hr : r ≠ .caps) :
    regRead r (resetBlock level u) = 0 := by
  cases r with
  | caps => exact absurd rfl hr
  | status => exact statusWord_eq_ofNat (resetBlock level u)
  | _ => rfl

/-- CAPS stands at one offset of R23. -/
theorem ofOffset_ne_caps : ∀ o : BitVec 8, o ≠ 0x40 → Reg.ofOffset o ≠ .caps := by decide

theorem resetRelease_active (h : s.resetActive = true) : resetRelease s = resetBlock false s := if_pos h

/-- Both edges of the reset input reset the block; before the assertion memory may be drawn (R231). -/
theorem step_resetBlock {level : Bool}
    (h : (s.inputs = .resetAssert :: rest ∧ level = true) ∨
      (s.inputs = .resetRelease :: rest ∧ s.resetActive = true ∧ level = false)) :
    ∃ u, step s = .next (resetBlock level u) ∧ u.inputs = rest ∧ u.cfg = s.cfg := by
  obtain ⟨hin, rfl⟩ | ⟨hin, hactive, rfl⟩ := h
  · obtain ⟨m, d, hu⟩ := abortCommand_frame { s with inputs := rest }
    exact ⟨_, step_cons hin, by rw [hu], by rw [hu]⟩
  · have hrelease := resetRelease_active (s := { s with inputs := rest }) hactive
    exact ⟨_, (step_cons hin).trans (congrArg Host.Outcome.next hrelease), rfl, rfl⟩

/-- Settles O9: either edge of the input is `resetBlock`, whatever the state it finds. -/
theorem resetInputRestoresRegisters : Obligations.ResetInputRestoresRegisters := by
  intro s rest level hedge
  obtain ⟨u, hstep, hinputs, hcfg⟩ := step_resetBlock hedge
  exact ⟨_, hstep, rfl, hinputs, hcfg, fun o _ ho => regRead_resetBlock level u (ofOffset_ne_caps o ho),
    congrArg (fun c : Config => BitVec.ofNat 32 c.scratchCap) hcfg, rfl, rfl, rfl, rfl⟩

/-! ### The command in flight -/

theorem abortCommand_idle (h : s.engine = .idle) : abortCommand s = s := by simp [abortCommand, h]

theorem abortCommand_busy (h : s.engine = .busy) :
    abortCommand s =
      drawRange s.latch.source.contains s.latch.heap.toNat s.latch.heaplen.toNat
        (drawRange s.latch.source.contains s.latch.dst.toNat s.latch.dstcap.toNat s) := by
  simp [abortCommand, h]

/-- R71: no draw of an abort is a source byte. -/
theorem byteAt_abortCommand_source {a : Nat} (ha : s.latch.source.contains a = true) :
    (abortCommand s).byteAt a = s.byteAt a := by
  cases he : s.engine with
  | idle => rw [abortCommand_idle he]
  | busy => rw [abortCommand_busy he, byteAt_drawRange_out _ _ (.inr ha), byteAt_drawRange_out _ _ (.inr ha)]

theorem byteAt_abortCommand_outside {a : Nat} (hdst : s.latch.dest.contains a = false)
    (hheap : s.latch.heapWindow.contains a = false) : (abortCommand s).byteAt a = s.byteAt a := by
  by_contra hne
  obtain ⟨-, hin⟩ := abortCommand_changes hne
  simp [hdst, hheap] at hin

/-- Each of the two runs of draws leaves a byte or makes it a free value. -/
theorem byteAt_abortCommand (s : State) (a : Nat) :
    (abortCommand s).byteAt a = s.byteAt a ∨ ∃ k, (abortCommand s).byteAt a = Config.freeByte k := by
  cases he : s.engine with
  | idle => exact .inl (by rw [abortCommand_idle he])
  | busy =>
    rw [abortCommand_busy he]
    obtain hheap | hheap := byteAt_drawRange s.latch.source.contains s.latch.heap.toNat s.latch.heaplen.toNat a
      (drawRange s.latch.source.contains s.latch.dst.toNat s.latch.dstcap.toNat s)
    · rw [hheap]
      exact byteAt_drawRange _ _ _ a s
    · exact .inr hheap

/-- Settles O10: reset is the abort, which changes memory only, and then `resetBlock`, which leaves memory alone. -/
theorem resetAbortsCommand : Obligations.ResetAbortsCommand := by
  intro s rest _ hin
  refine ⟨resetAssert { s with inputs := rest }, step_cons hin, rfl, rfl, rfl, rfl, rfl, fun a ha => ?_,
    fun a hdst hheap => ?_, fun a => ?_⟩
  · exact byteAt_abortCommand_source (s := { s with inputs := rest }) ha
  · exact byteAt_abortCommand_outside (s := { s with inputs := rest }) hdst hheap
  · exact byteAt_abortCommand { s with inputs := rest } a

/-! ### While reset is active -/

/-- Settles O11: the port looks at the reset input before it looks at the access. -/
theorem noAccessDuringReset : Obligations.NoAccessDuringReset := fun _ hactive =>
  ⟨fun _ _ _ _ => if_pos hactive, fun _ _ => if_pos hactive, engineTurn_reset hactive⟩

end Sys2Proof.Proofs

/-! SUPPORT. The host's hazards (spec 70_reset_and_hazards.md R240 to R243): the range hazard at accept, the duty to the
ranges of an unobserved command, from its start to its end, and the sequences of several agents. -/

namespace Sys2Proof.Proofs

open Sys2Proof Sys2Proof.Machine Sys2Proof.Laws Sys2Proof.Safety

variable {s t : State} {a : Nat} {f : Footprint}

/-! ### The range hazard (R240) -/

theorem hazardRange_of_overlaps {cfg : Config} {L : Latched} {r : Range} (hr : r ∈ hazardRanges cfg L)
    (h : r.overlaps (registerWindow cfg) = true ∨ ∃ d ∈ cfg.devices, r.overlaps d = true) :
    hazardRange cfg L = true := by
  refine List.any_eq_true.2 ⟨r, hr, ?_⟩
  rw [Bool.or_eq_true, List.any_eq_true]
  exact h

/-- A CMD write at the port, while Idle, faults with the range hazard of the operands it would latch. -/
theorem hostWrite_cmd_hazardRange {agent : Nat} {w : Word} (hreset : s.resetActive = false)
    (hown : ownedByOther agent s = false) (hidle : s.engine = .idle)
    (h : hazardRange s.cfg (s.capture w) = true) : hostWrite agent 4 0x08 w s = .fault .hazardRange := by
  have hfault : regWrite .cmd w (noteWrite agent .cmd s) = .fault .hazardRange :=
    cmdWrite_hazardRange (s := noteWrite agent .cmd s) hidle h
  exact (hostWrite_unshared w hreset hown rfl).trans (congrArg (answer .ack) hfault)

/-- Settles O21: the ranges of the operand registers are those the hazard is checked on. -/
theorem rangeHazardFaultsAtAccept : Obligations.RangeHazardFaultsAtAccept := by
  intro s agent i r hreset hidle hown hr hmeets
  exact hostWrite_cmd_hazardRange hreset hown hidle
    (hazardRange_of_overlaps (mem_hazardRanges_capture.2 hr) hmeets)

/-! ### The start of the duty (R241) -/

/-- The ranges an accepted word owns: the heap window only as one of the two hex commands (C8). -/
theorem footprint_eq (L : Latched) :
    footprint L =
      ⟨L.source, L.dest, if L.w = encode .hexEnc ∨ L.w = encode .hexDec then L.heapWindow else ⟨0, 0⟩⟩ := by
  cases hd : decode L.w with
  | error e =>
    have hno : ∀ i, L.w ≠ encode i := fun i hi => nomatch (hi ▸ hd).symm.trans (decode_encode i)
    simp [footprint, hd, hno]
  | ok i =>
    have hhex : usesHeapWindow i = true ↔ encode i = encode .hexEnc ∨ encode i = encode .hexDec := by
      cases i <;> decide
    simp only [footprint, hd, hhex]
    rw [decode_eq hd]

/-! ### The end of the duty (R241) -/

theorem engineTurn_unseen (h : engineTurn s = .next t) : t.unseen = s.unseen := by
  obtain rfl | ⟨hreset, hbusy, -⟩ := engineTurn_cases h
  · rfl
  · obtain ⟨code, n, u, rfl, hR⟩ := engineTurn_busy hreset hbusy h
    have hsame : SameOutside s u := hR (engineRel_sameOutside (fun _ => True) _) fun _ _ _ _ => trivial
    exact (hostSideSame_of_sameOutside (e := code) (n := n) hsame).unseen

theorem hostRead_unseen {size : Nat} {o : BitVec 8} (h : hostRead size o s = .next t) :
    t.unseen = if o = 0x04 ∧ s.done = true then [] else s.unseen := by
  obtain ⟨hreset, rfl, ho, -⟩ := hostRead_next h
  rw [hostRead_eq hreset ho] at h
  cases h
  rfl

theorem hostSeeIrq_unseen (s : State) : (hostSeeIrq s).unseen = if s.irq then [] else s.unseen := by
  rw [hostSeeIrq, observeDone_eq]

theorem resetAssert_unseen (s : State) : (resetAssert s).unseen = [] := rfl

theorem resetRelease_unseen (s : State) :
    (resetRelease s).unseen = if s.resetActive then [] else s.unseen := by
  cases hactive : s.resetActive <;> simp [resetRelease, hactive, resetBlock]

/-- A register write may add a footprint, by an accept, and drops none. -/
theorem hostWrite_keeps_unseen {agent size : Nat} {o : BitVec 8} {v : Word} (h : hostWrite agent size o v s = .next t)
    (hf : f ∈ s.unseen) : f ∈ t.unseen := by
  obtain ⟨-, -, -, -, u, hu, rfl⟩ := hostWrite_next h
  cases hr : Reg.ofOffset o with
  | cmd =>
    rw [hr] at hu
    cases he : s.engine with
    | busy =>
      rw [noteWrite_cmd_busy he] at hu
      cases (cmdWrite_busy he).symm.trans hu
      exact hf
    | idle =>
      obtain ⟨rfl, -, -⟩ := cmdWrite_idle (s := noteWrite agent .cmd s) he hu
      exact List.mem_cons_of_mem _ hf
  | _ => rw [hr] at hu; cases hu; exact hf

/-- The inputs that end the duty, in a state: a STATUS read that shows DONE = 1, a look at an asserted `irq`, and the
edges of the reset input. -/
def EndsDuty (s : State) (x : Input) : Prop :=
  (∃ agent, x = .read agent 4 0x04 ∧ s.done = true) ∨ (∃ agent, x = .seeIrq agent ∧ s.irq = true) ∨
    x = .resetAssert ∨ (x = .resetRelease ∧ s.resetActive = true)

/-- A list that is emptied on a condition loses a member only if the condition holds. -/
theorem of_dropped {α : Type} {p : Prop} [Decidable p] {l m : List α} {b : α} (hm : m = if p then [] else l)
    (hb : b ∈ l) (hdrop : b ∉ m) : p := by
  by_contra hp
  rw [hm, if_neg hp] at hdrop
  exact hdrop hb

theorem inputTurn_drops {x : Input} (h : inputTurn x s = .next t) (hf : f ∈ s.unseen) (hdrop : f ∉ t.unseen) :
    EndsDuty s x := by
  cases x with
  | write agent size o v => exact absurd (hostWrite_keeps_unseen h hf) hdrop
  | read agent size o =>
    obtain ⟨-, rfl, -, -⟩ := hostRead_next h
    obtain ⟨rfl, hdone⟩ := of_dropped (hostRead_unseen h) hf hdrop
    exact .inl ⟨agent, rfl, hdone⟩
  | store agent w v =>
    obtain ⟨-, -, rfl⟩ := hostStore_next h
    exact absurd hf hdrop
  | load agent w => obtain ⟨-, ⟨-, rfl⟩ | ⟨-, rfl⟩⟩ := hostLoad_next h <;> exact absurd hf hdrop
  | seeIrq agent => cases h; exact .inr (.inl ⟨agent, rfl, of_dropped (hostSeeIrq_unseen s) hf hdrop⟩)
  | endSequence agent => cases h; exact absurd hf hdrop
  | cacheMaintain agent => cases h; exact absurd hf hdrop
  | resetAssert => exact .inr (.inr (.inl rfl))
  | resetRelease =>
    cases h
    exact .inr (.inr (.inr ⟨rfl, of_dropped (resetRelease_unseen s) hf hdrop⟩))
  | engine => exact absurd (engineTurn_unseen h ▸ hf) hdrop

/-- A step that ends the duty to a range takes an input that does; the engine's turn does not. -/
theorem step_drops (h : step s = .next t) (hf : f ∈ s.unseen) (hdrop : f ∉ t.unseen) :
    ∃ x, s.inputs.head? = some x ∧ EndsDuty s x := by
  cases hin : s.inputs with
  | nil => exact absurd (engineTurn_unseen (step_nil hin ▸ h) ▸ hf) hdrop
  | cons x rest => exact ⟨x, rfl, inputTurn_drops (s := { s with inputs := rest }) (step_cons hin ▸ h) hf hdrop⟩

/-! ### Accesses under the duty (R241) -/

theorem hostStore_owned (v : Byte) (h : outsideMemory a s = none) (hf : f ∈ s.unseen) (howns : f.owns a = true) :
    hostStore a v s = .fault .hazardMemWrite := by
  have hany : s.unseen.any (fun f => f.owns a) = true := List.any_eq_true.2 ⟨f, hf, howns⟩
  simp [hostStore, h, hany]

theorem hostLoad_racing (h : outsideMemory a s = none) (hf : f ∈ s.unseen) (hraces : f.races a = true) :
    hostLoad a s = .next { s with response := .byte (Config.freeByte s.draws), draws := s.draws + 1 } := by
  have hany : s.unseen.any (fun f => f.races a) = true := List.any_eq_true.2 ⟨f, hf, hraces⟩
  simp [hostLoad, h, hany]

theorem owns_iff :
    f.owns a = true ↔ f.src.contains a = true ∨ f.dst.contains a = true ∨ f.heap.contains a = true := by
  rw [Footprint.owns, Bool.or_eq_true, Bool.or_eq_true, or_assoc]

theorem races_iff :
    f.races a = true ↔ (f.dst.contains a = true ∨ f.heap.contains a = true) ∧ f.src.contains a = false := by
  rw [Footprint.races, Bool.and_eq_true, Bool.or_eq_true, Bool.not_eq_true']

/-- The block never writes a source byte, so there is no race for it (R71). -/
theorem not_races_of_source (h : f.src.contains a = true) : f.races a = false := by simp [Footprint.races, h]

/-- Settles O22, clause by clause: the start of the duty, what each action does to it, the inputs that end it, and
stores and loads under it. -/
theorem inFlightMemoryHazard : Obligations.InFlightMemoryHazard := by
  refine ⟨fun s t w hidle h => ?_, fun s t h => engineTurn_unseen h, fun s t o h => hostRead_unseen h,
    hostSeeIrq_unseen, fun s => ⟨resetAssert_unseen s, resetRelease_unseen s⟩, fun s t f h hf hdrop => ?_,
    fun s a v f hplain hf => ⟨fun howns => ?_, fun hsrc hdst => ?_⟩, fun s a f hplain hone hc hsrc => ?_⟩
  · obtain ⟨rfl, -, -⟩ := cmdWrite_idle hidle h
    exact List.mem_cons.2 (.inl (footprint_eq (s.capture w)).symm)
  · obtain ⟨x, hx, hends⟩ := step_drops h hf hdrop
    simpa [hx, EndsDuty] using hends
  · exact hostStore_owned v hplain hf (owns_iff.2 howns)
  · exact hostLoad_racing hplain hf (races_iff.2 ⟨hdst, hsrc⟩)
  · have hraces : ∀ g ∈ s.unseen, g.races a = false := by
      rw [hone]
      exact List.forall_mem_singleton.2 (not_races_of_source hsrc)
    exact hostLoad_coherent hplain hraces hc

/-! ### Several agents (R243) -/

theorem ownedByOther_of_owner {x y : Nat} (h : s.owner = some x) (hxy : y ≠ x) : ownedByOther y s = true := by
  simp [ownedByOther, h, hxy.symm]

/-- A write of a register of the command sequence while another agent's sequence is open. -/
theorem hostWrite_shared {agent : Nat} {o : BitVec 8} (v : Word) (hreset : s.resetActive = false)
    (ho : o.toNat % 4 = 0) (hseq : sequenceReg (Reg.ofOffset o) = true) (hown : ownedByOther agent s = true) :
    hostWrite agent 4 o v s = .fault .hazardShared := by
  simp [hostWrite, hreset, portAligned, ho, hseq, hown]

/-- The offsets of STATUS, CMD and the operand registers (R23). -/
theorem ofOffset_sequence :
    ∀ o ∈ [0x04#8, 0x08#8, 0x10#8, 0x14#8, 0x18#8, 0x1C#8, 0x24#8, 0x28#8, 0x2C#8, 0x30#8, 0x34#8],
      o.toNat % 4 = 0 ∧ sequenceReg (Reg.ofOffset o) = true := by decide

/-- Settles O23: CTRL is no register of the sequence, each listed one is. -/
theorem sharedUseFaults : Obligations.SharedUseFaults := by
  refine fun s a b o v hreset howner hne => ⟨fun ho => ?_, ?_⟩
  · obtain ⟨haligned, hseq⟩ := ofOffset_sequence o ho
    exact hostWrite_shared v hreset haligned hseq (ownedByOther_of_owner howner hne)
  · exact ⟨_, hostWrite_aligned hreset rfl rfl⟩

end Sys2Proof.Proofs
